-- ==== Sys2Proof/Word.lean ====
section
/-! DEFINITION. The word types of LEC-CORE: 256-bit registers and elements, 64-bit command and MMIO words, register numbers. -/

namespace Sys2Proof

/-- A wide register, a field constant or the value of an element: 256 bits (R31, R37, R39). -/
abbrev Word := BitVec 256

/-- A command word or an MMIO word: 64 bits (R60, R130). -/
abbrev Word64 := BitVec 64

/-- A register number 0..15, naming w0..w15 (R31, R131). -/
abbrev Reg := Fin 16

end Sys2Proof
end

