-- ==== Sys2Proof/Syntax.lean ====
section
/-! DEFINITION. The commands of LEC-CORE as data: one constructor for each row of the opcode map (R142). -/

namespace Sys2Proof

/-- The width of a wide-integer command (R131): W = 0 selects 256 bits, W = 1 selects 128. -/
inductive Width where
  | w256
  | w128
  deriving DecidableEq, Repr

/-- The order of a twiddle table (R40, R138): ORD = 0 natural, ORD = 1 bit-reversed. -/
inductive TwOrder where
  | nat
  | rev
  deriving DecidableEq, Repr

/-- The variant of a butterfly stage (R140): MODE = 0 NR, MODE = 1 RN. -/
inductive Mode where
  | nr
  | rn
  deriving DecidableEq, Repr

/-- The 28 commands.
A register field is a register number.
SHAMT, K, GL and element addresses are the unsigned integers of R141, and WellFormed bounds them. -/
inductive Instr where
  /-- R310. -/
  | nop
  /-- R311. -/
  | sync (irq : Bool)
  /-- R171. -/
  | add (rd rs1 rs2 : Reg) (w : Width)
  /-- R172. -/
  | adc (rd rs1 rs2 : Reg) (w : Width)
  /-- R173. -/
  | sub (rd rs1 rs2 : Reg) (w : Width)
  /-- R174. -/
  | sbb (rd rs1 rs2 : Reg) (w : Width)
  /-- R175. -/
  | cmp (rs1 rs2 : Reg) (w : Width)
  /-- R176. -/
  | and (rd rs1 rs2 : Reg) (w : Width)
  /-- R177. -/
  | shr (rd rs1 : Reg) (shamt : Nat) (w : Width)
  /-- R178. -/
  | shl (rd rs1 : Reg) (shamt : Nat) (w : Width)
  /-- R179. -/
  | mul (rd rs1 rs2 : Reg) (w : Width)
  /-- R180. -/
  | mulb (rd rs1 rs2 : Reg) (w : Width)
  /-- R181. -/
  | mov (rd rs1 : Reg) (w : Width)
  /-- R182. -/
  | li (rd : Reg) (imm32 : BitVec 32)
  /-- R212: rn holds N (field B), rr2 holds R2 (field Cr), rni holds NINV (field A). -/
  | fcfg (rn rr2 rni : Reg)
  /-- R213. -/
  | fadd (rd rs1 rs2 : Reg)
  /-- R214. -/
  | fsub (rd rs1 rs2 : Reg)
  /-- R215. -/
  | fmul (rd rs1 rs2 : Reg)
  /-- R216. -/
  | fsqr (rd rs1 : Reg)
  /-- R217. -/
  | finv (rd rs1 : Reg)
  /-- R218. -/
  | fpow (rd rs1 rs2 : Reg)
  /-- R219. -/
  | ftom (rd rs1 : Reg)
  /-- R220. -/
  | ffromm (rd rs1 : Reg)
  /-- R250. -/
  | ld (rd : Reg) (p : Nat)
  /-- R251. -/
  | st (rs : Reg) (p : Nat)
  /-- R260. -/
  | twgen (ord : TwOrder) (rs1 : Reg) (ks dst : Nat)
  /-- R280. -/
  | bitrev (k dst src : Nat)
  /-- R292. -/
  | bfly (mode : Mode) (gl k tw buf : Nat)
  deriving DecidableEq, Repr

end Sys2Proof
end

