-- ==== Sys2Proof/WellFormed.lean ====
section
/-! DEFINITION. Which commands have an encoding: each integer operand fits its field (R134, R137 to R141). -/

namespace Sys2Proof

/-- SHAMT = c[8:0], an integer 0..511 (R141). -/
abbrev shamtFits (n : Nat) : Bool := decide (n < 2 ^ 9)

/-- P and Q are 18-bit element addresses (R141). -/
abbrev addrFits (n : Nat) : Bool := decide (n < 2 ^ 18)

/-- K and GL are integers 0..31 (R141). -/
abbrev logFits (n : Nat) : Bool := decide (n < 2 ^ 5)

/-- The command has an encoding (R141). -/
def Instr.wellFormed : Instr → Bool
  | .nop => true
  | .sync _ => true
  | .add _ _ _ _ => true
  | .adc _ _ _ _ => true
  | .sub _ _ _ _ => true
  | .sbb _ _ _ _ => true
  | .cmp _ _ _ => true
  | .and _ _ _ _ => true
  | .shr _ _ shamt _ => shamtFits shamt
  | .shl _ _ shamt _ => shamtFits shamt
  | .mul _ _ _ _ => true
  | .mulb _ _ _ _ => true
  | .mov _ _ _ => true
  | .li _ _ => true
  | .fcfg _ _ _ => true
  | .fadd _ _ _ => true
  | .fsub _ _ _ => true
  | .fmul _ _ _ => true
  | .fsqr _ _ => true
  | .finv _ _ => true
  | .fpow _ _ _ => true
  | .ftom _ _ => true
  | .ffromm _ _ => true
  | .ld _ p => addrFits p
  | .st _ p => addrFits p
  | .twgen _ _ ks dst => logFits ks && addrFits dst
  | .bitrev k dst src => logFits k && addrFits dst && addrFits src
  | .bfly _ gl k tw buf => logFits gl && logFits k && addrFits tw && addrFits buf

end Sys2Proof
end

