-- ==== Sys2Proof/Decode.lean ====
section
/-! DEFINITION. The decoder (R130 to R145), total on every 64-bit word, and after it the encoder. -/

namespace Sys2Proof

/-- Why a word is no command (R144).
Both raise ILLEGAL_COMMAND. -/
inductive DecodeError where
  /-- The opcode is not in the table of R142. -/
  | reservedOpcode
  /-- A must-be-zero bit of the row's mask is 1. -/
  | mustBeZero
  deriving DecidableEq, Repr

/-- What the decoder answers. -/
inductive Decoded where
  | command (i : Instr)
  | illegal (e : DecodeError)
  deriving DecidableEq, Repr

/-- Bits 63:56, the opcode (R131). -/
def wordOpcode (c : Word64) : BitVec 8 := c.extractLsb' 56 8

/-- A = bits 55:52 (R131). -/
def wordA (c : Word64) : Reg := (c.extractLsb' 52 4).toFin

/-- B = bits 51:48 (R131). -/
def wordB (c : Word64) : Reg := (c.extractLsb' 48 4).toFin

/-- Cr = bits 47:44 (R131). -/
def wordCr (c : Word64) : Reg := (c.extractLsb' 44 4).toFin

/-- W = bit 43 (R131): 0 selects 256 bits, 1 selects 128. -/
def wordW (c : Word64) : Width := if c.getLsbD 43 then .w128 else .w256

/-- ORD = bit 43 (R138): 0 natural, 1 bit-reversed. -/
def wordOrd (c : Word64) : TwOrder := if c.getLsbD 43 then .rev else .nat

/-- MODE = bit 46 (R140): 0 NR, 1 RN. -/
def wordMode (c : Word64) : Mode := if c.getLsbD 46 then .rn else .nr

/-- IRQ = bit 0 (R132). -/
def wordIrq (c : Word64) : Bool := c.getLsbD 0

/-- SHAMT = bits 8:0 (R134). -/
def wordShamt (c : Word64) : Nat := (c.extractLsb' 0 9).toNat

/-- IMM32 = bits 31:0 (R135). -/
def wordImm32 (c : Word64) : BitVec 32 := c.extractLsb' 0 32

/-- P = bits 17:0 (R131). -/
def wordP (c : Word64) : Nat := (c.extractLsb' 0 18).toNat

/-- Q = bits 35:18 (R131). -/
def wordQ (c : Word64) : Nat := (c.extractLsb' 18 18).toNat

/-- K = bits 40:36 (R131). -/
def wordK (c : Word64) : Nat := (c.extractLsb' 36 5).toNat

/-- GL = bits 45:41 (R140). -/
def wordGL (c : Word64) : Nat := (c.extractLsb' 41 5).toNat

/-- The row of the opcode map (R142) for an opcode: its must-be-zero mask, and the command a word of that row is. -/
def opcodeRow (opcode : Nat) (c : Word64) : Option (Word64 × Instr) :=
  match opcode with
  | 0x01 => some (0xFFFFFFFFFFFFFFFF, .nop)
  | 0x02 => some (0xFFFFFFFFFFFFFFFE, .sync (wordIrq c))
  | 0x10 => some (0xFF0007FFFFFFFFFF, .add (wordA c) (wordB c) (wordCr c) (wordW c))
  | 0x11 => some (0xFF0007FFFFFFFFFF, .adc (wordA c) (wordB c) (wordCr c) (wordW c))
  | 0x12 => some (0xFF0007FFFFFFFFFF, .sub (wordA c) (wordB c) (wordCr c) (wordW c))
  | 0x13 => some (0xFF0007FFFFFFFFFF, .sbb (wordA c) (wordB c) (wordCr c) (wordW c))
  | 0x14 => some (0xFFF007FFFFFFFFFF, .cmp (wordB c) (wordCr c) (wordW c))
  | 0x15 => some (0xFF0007FFFFFFFFFF, .and (wordA c) (wordB c) (wordCr c) (wordW c))
  | 0x16 => some (0xFF00F7FFFFFFFE00, .shr (wordA c) (wordB c) (wordShamt c) (wordW c))
  | 0x17 => some (0xFF00F7FFFFFFFE00, .shl (wordA c) (wordB c) (wordShamt c) (wordW c))
  | 0x18 => some (0xFF0007FFFFFFFFFF, .mul (wordA c) (wordB c) (wordCr c) (wordW c))
  | 0x19 => some (0xFF0007FFFFFFFFFF, .mulb (wordA c) (wordB c) (wordCr c) (wordW c))
  | 0x1A => some (0xFF00F7FFFFFFFFFF, .mov (wordA c) (wordB c) (wordW c))
  | 0x1B => some (0xFF0FFFFF00000000, .li (wordA c) (wordImm32 c))
  | 0x20 => some (0xFF000FFFFFFFFFFF, .fcfg (wordB c) (wordCr c) (wordA c))
  | 0x21 => some (0xFF000FFFFFFFFFFF, .fadd (wordA c) (wordB c) (wordCr c))
  | 0x22 => some (0xFF000FFFFFFFFFFF, .fsub (wordA c) (wordB c) (wordCr c))
  | 0x23 => some (0xFF000FFFFFFFFFFF, .fmul (wordA c) (wordB c) (wordCr c))
  | 0x24 => some (0xFF00FFFFFFFFFFFF, .fsqr (wordA c) (wordB c))
  | 0x25 => some (0xFF00FFFFFFFFFFFF, .finv (wordA c) (wordB c))
  | 0x26 => some (0xFF000FFFFFFFFFFF, .fpow (wordA c) (wordB c) (wordCr c))
  | 0x27 => some (0xFF00FFFFFFFFFFFF, .ftom (wordA c) (wordB c))
  | 0x28 => some (0xFF00FFFFFFFFFFFF, .ffromm (wordA c) (wordB c))
  | 0x30 => some (0xFF0FFFFFFFFC0000, .ld (wordA c) (wordP c))
  | 0x31 => some (0xFF0FFFFFFFFC0000, .st (wordA c) (wordP c))
  | 0x40 => some (0xFFF0F60FFFFC0000, .twgen (wordOrd c) (wordB c) (wordK c) (wordP c))
  | 0x41 => some (0xFFFFFE0000000000, .bitrev (wordK c) (wordQ c) (wordP c))
  | 0x42 => some (0xFFFF800000000000, .bfly (wordMode c) (wordGL c) (wordK c) (wordQ c) (wordP c))
  | _ => none

/-- The decoder, with the two checks of R144 in their order. -/
def decode (c : Word64) : Decoded :=
  match opcodeRow (wordOpcode c).toNat c with
  | none => .illegal .reservedOpcode
  | some (mask, i) =>
    if c &&& mask = (wordOpcode c).setWidth 64 <<< 56 then .command i else .illegal .mustBeZero

/-- The instruction the decoder reads from a word of `nbits` bits, numbered as the opcode table numbers them. -/
def decodeTableWord (nbits w : Nat) : Option Instr :=
  match decode (BitVec.ofNat 64 (w % 2 ^ nbits)) with
  | .command i => some i
  | .illegal _ => none

/-! The encoder, from the format tables R132 to R140. -/

/-- The width bit (R131). -/
def Width.bit : Width → BitVec 1
  | .w256 => 0#1
  | .w128 => 1#1

/-- The ORD bit (R138). -/
def TwOrder.bit : TwOrder → BitVec 1
  | .nat => 0#1
  | .rev => 1#1

/-- The MODE bit (R140). -/
def Mode.bit : Mode → BitVec 1
  | .nr => 0#1
  | .rn => 1#1

/-- A register field (R131). -/
def regField (r : Reg) : BitVec 4 := BitVec.ofFin r

/-- Format N (R132). -/
def formatN (op : BitVec 8) (irq : Bool) : Word64 := op ++ 0#55 ++ BitVec.ofBool irq

/-- Format R (R133). -/
def formatR (op : BitVec 8) (a b cr : Reg) (w : Width) : Word64 :=
  op ++ regField a ++ regField b ++ regField cr ++ w.bit ++ 0#43

/-- Format S (R134). -/
def formatS (op : BitVec 8) (a b : Reg) (shamt : Nat) (w : Width) : Word64 :=
  op ++ regField a ++ regField b ++ 0#4 ++ w.bit ++ 0#34 ++ BitVec.ofNat 9 shamt

/-- Format L (R135). -/
def formatL (op : BitVec 8) (a : Reg) (imm32 : BitVec 32) : Word64 :=
  op ++ regField a ++ 0#20 ++ imm32

/-- Format F (R136). -/
def formatF (op : BitVec 8) (a b cr : Reg) : Word64 :=
  op ++ regField a ++ regField b ++ regField cr ++ 0#44

/-- Format M (R137). -/
def formatM (op : BitVec 8) (a : Reg) (p : Nat) : Word64 :=
  op ++ regField a ++ 0#34 ++ BitVec.ofNat 18 p

/-- Format T (R138). -/
def formatT (op : BitVec 8) (b : Reg) (ord : TwOrder) (k p : Nat) : Word64 :=
  op ++ 0#4 ++ regField b ++ 0#4 ++ ord.bit ++ 0#2 ++ BitVec.ofNat 5 k ++ 0#18 ++ BitVec.ofNat 18 p

/-- Format V (R139). -/
def formatV (op : BitVec 8) (k q p : Nat) : Word64 :=
  op ++ 0#15 ++ BitVec.ofNat 5 k ++ BitVec.ofNat 18 q ++ BitVec.ofNat 18 p

/-- Format B (R140). -/
def formatB (op : BitVec 8) (mode : Mode) (gl k q p : Nat) : Word64 :=
  op ++ 0#9 ++ mode.bit ++ BitVec.ofNat 5 gl ++ BitVec.ofNat 5 k ++ BitVec.ofNat 18 q ++ BitVec.ofNat 18 p

/-- The word of a well-formed command (R132 to R142). -/
def encode : Instr → Word64
  | .nop => formatN 0x01 false
  | .sync irq => formatN 0x02 irq
  | .add rd rs1 rs2 w => formatR 0x10 rd rs1 rs2 w
  | .adc rd rs1 rs2 w => formatR 0x11 rd rs1 rs2 w
  | .sub rd rs1 rs2 w => formatR 0x12 rd rs1 rs2 w
  | .sbb rd rs1 rs2 w => formatR 0x13 rd rs1 rs2 w
  | .cmp rs1 rs2 w => formatR 0x14 0 rs1 rs2 w
  | .and rd rs1 rs2 w => formatR 0x15 rd rs1 rs2 w
  | .shr rd rs1 shamt w => formatS 0x16 rd rs1 shamt w
  | .shl rd rs1 shamt w => formatS 0x17 rd rs1 shamt w
  | .mul rd rs1 rs2 w => formatR 0x18 rd rs1 rs2 w
  | .mulb rd rs1 rs2 w => formatR 0x19 rd rs1 rs2 w
  | .mov rd rs1 w => formatR 0x1A rd rs1 0 w
  | .li rd imm32 => formatL 0x1B rd imm32
  | .fcfg rn rr2 rni => formatF 0x20 rni rn rr2
  | .fadd rd rs1 rs2 => formatF 0x21 rd rs1 rs2
  | .fsub rd rs1 rs2 => formatF 0x22 rd rs1 rs2
  | .fmul rd rs1 rs2 => formatF 0x23 rd rs1 rs2
  | .fsqr rd rs1 => formatF 0x24 rd rs1 0
  | .finv rd rs1 => formatF 0x25 rd rs1 0
  | .fpow rd rs1 rs2 => formatF 0x26 rd rs1 rs2
  | .ftom rd rs1 => formatF 0x27 rd rs1 0
  | .ffromm rd rs1 => formatF 0x28 rd rs1 0
  | .ld rd p => formatM 0x30 rd p
  | .st rs p => formatM 0x31 rs p
  | .twgen ord rs1 ks dst => formatT 0x40 rs1 ord ks dst
  | .bitrev k dst src => formatV 0x41 k dst src
  | .bfly mode gl k tw buf => formatB 0x42 mode gl k tw buf

end Sys2Proof
end

