-- ==== Sys2Proof/Config.lean ====
section
/-! DEFINITION. The parameters of LEC-CORE (R6) and its one free value, the element contents after power-on (R360). -/

namespace Sys2Proof

/-- The parameters of an implementation (R6).
They are plain numbers, so that a claim about every state is a claim about every configuration.
DESIGN CHOICE (log 1): State carries them, and no step writes them. -/
structure Config where
  /-- EMEM_LOG, log2 of the element-memory size. -/
  ememLog  : Nat
  /-- QDEPTH, the command FIFO's capacity. -/
  qdepth   : Nat
  /-- MMIO_BASE, the host address of MMIO offset 0. -/
  mmioBase : Nat
  deriving DecidableEq, Repr

/-- EMEM_N, the element-memory size in elements (R6). -/
def Config.ememN (c : Config) : Nat := 2 ^ c.ememLog

/-- The ranges R6 gives the parameters. -/
abbrev Config.Valid (c : Config) : Prop :=
  1 ≤ c.ememLog ∧ c.ememLog ≤ 18 ∧ 1 ≤ c.qdepth ∧ c.qdepth ≤ 255

/-- The reference configuration of R6.
MMIO_BASE is OPEN in the spec: 0 is a DESIGN CHOICE (log 1). -/
def Config.reference : Config := { ememLog := 18, qdepth := 16, mmioBase := 0 }

/-- EMEM_INIT (R76, R360): what an element holds after a power-on reset until it is written.
A free value (log 2): nothing is known of it.
The first argument counts the power-on resets of a run, the second is the element address. -/
opaque Config.ememInit : Nat → Nat → Word

end Sys2Proof
end

