-- ==== Sys2Proof/Machine/State.lean ====
section
/-! DEFINITION. The architectural state of LEC-CORE (R30) as plain data, the ways a step can stop, and the state after reset (R76). -/

namespace Sys2Proof.Machine

open Sys2Proof

/-- The errors a command can raise (R321).
NONE, code 0, is never raised and is no constructor. -/
inductive ErrorName where
  | outOfRange
  | noInverse
  | invalidLength
  | backendMismatch
  | illegalCommand
  | badAddress
  | overlap
  | fieldNotReady
  | fieldConfig
  | fieldLocked
  deriving DecidableEq, Repr

/-- The tag of an element (R40): DATA, or TW(order, ks). -/
inductive Tag where
  | data
  | tw (order : TwOrder) (ks : Nat)
  deriving DecidableEq, Repr

/-- An element that has been written: its value as the four 64-bit words the host sees (R75, R86), `w0` the least significant, and its tag (log 3). -/
structure Element where
  w0  : Word64
  w1  : Word64
  w2  : Word64
  w3  : Word64
  tag : Tag
  deriving DecidableEq, Repr

/-- Element memory (R39): the elements written since power-on, by rising element address, each address once.
An address that is not listed holds EMEM_INIT with tag DATA (log 2). -/
abbrev Memory := List (Nat × Element)

/-- The canonical form of element memory: addresses strictly rising. -/
abbrev Memory.wf (m : Memory) : Prop := m.Pairwise (fun x y => x.1 < y.1)

/-- One host access to the platform's address space, of `width` bits at host address `addr` (R60, R85). -/
inductive HostAccess where
  | read (width addr : Nat)
  | write (width addr : Nat) (data : Word64)
  deriving DecidableEq, Repr

/-- Who moves next (R5, R93): the core with one command, the host with one access, or a power-on reset from outside (R360). -/
inductive Turn where
  | core
  | host (a : HostAccess)
  | powerOn
  deriving DecidableEq, Repr

/-- Why the machine stops: the core is given a step that R320 says it cannot take (log 5). -/
inductive Fault where
  /-- Raised by a core step while HALTED = 1 (R320, R323).
  Safe: the hardware does nothing either. -/
  | coreHalted
  /-- Raised by a core step while LEVEL = 0 (R320, R336).
  Safe: the hardware does nothing either. -/
  | fifoEmpty
  deriving DecidableEq, Repr

/-- Why a step has no meaning. -/
inductive Refusal where
  /-- Raised by an arm of exec for an instruction not modelled yet.
  Safe. -/
  | notModelled (mnemonic : String)
  /-- Raised by a host access of a width other than 64 bits or at an offset that is no multiple of 8, which a model refuses (R85, log 6).
  Safe. -/
  | unsupportedAccess
  /-- Raised by a host access outside the MMIO block, which is the platform's (R84, log 7).
  Safe. -/
  | outsideBlock
  deriving DecidableEq, Repr

/-- The architectural state, "exactly" the list of R30, and the model's own fields `cfg`, `epoch`, `turns` and `reads`. -/
structure State where
  /-- The parameters (R6, log 1): the model's own, no step writes it. -/
  cfg        : Config
  /-- w0..w15 (R31). -/
  regs       : Vector Word 16
  /-- C (R33). -/
  flagC      : Bool
  /-- Z (R33). -/
  flagZ      : Bool
  /-- N (R37). -/
  fieldN     : Word
  /-- R2 (R37). -/
  fieldR2    : Word
  /-- NINV (R37). -/
  fieldNinv  : Word
  /-- FIELD_READY (R38). -/
  fieldReady : Bool
  /-- Element memory and its tags (R39, R40). -/
  mem        : Memory
  /-- The command FIFO, head first (R36). -/
  fifo       : List Word64
  /-- HALTED (R41). -/
  halted     : Bool
  /-- ERR_CODE (R41, R321). -/
  errCode    : BitVec 8
  /-- ERR_CMD (R41). -/
  errCmd     : Word64
  /-- ERR_SEQ (R41). -/
  errSeq     : Word64
  /-- IRQ_EN (R42): bit 0 ERR, bit 1 SYNC, bit 2 IDLE. -/
  irqEn      : BitVec 3
  /-- IRQ_PEND (R42): bit 0 ERR, bit 1 SYNC, bit 2 IDLE. -/
  irqPend    : BitVec 3
  /-- RETIRED (R43). -/
  retired    : Word64
  /-- CMD_DROPPED (R44). -/
  cmdDropped : Bool
  /-- How many power-on resets came before in this run (log 2): the model's own. -/
  epoch      : Nat
  /-- Who moves next, in order (log 4): the model's own.
  When the list is empty the core moves. -/
  turns      : List Turn
  /-- The values the host's reads returned, newest first (log 8): the model's own. -/
  reads      : List Word64
  deriving DecidableEq, Repr

/-- The state after a power-on reset (R76, R360) of an implementation with parameters `cfg`. -/
def State.powerOn (cfg : Config) : State :=
  { cfg        := cfg
    regs       := Vector.replicate 16 0#256
    flagC      := false
    flagZ      := false
    fieldN     := 0#256
    fieldR2    := 0#256
    fieldNinv  := 0#256
    fieldReady := false
    mem        := []
    fifo       := []
    halted     := false
    errCode    := 0#8
    errCmd     := 0#64
    errSeq     := 0#64
    irqEn      := 0#3
    irqPend    := 0#3
    retired    := 0#64
    cmdDropped := false
    epoch      := 0
    turns      := []
    reads      := [] }

/-- The state after reset: power-on reset (R76) of the reference configuration (R6). -/
def State.reset : State := State.powerOn Config.reference

end Sys2Proof.Machine
end

