-- ==== Sys2Proof/Machine/Ops.lean ====
section
/-! DEFINITION. The named operations over registers, element memory, the FIFO and the error record: reading and writing, retiring, taking an error, returning from one, soft reset. -/

namespace Sys2Proof.Machine

open Sys2Proof

/-! ## Registers (R31) -/

/-- `x[r]`. -/
def State.reg (s : State) (r : Reg) : Word := s.regs[r.val]

/-- `x[r] <- v`.
No register is hardwired. -/
def State.setReg (s : State) (r : Reg) (v : Word) : State :=
  { s with regs := s.regs.set r.val v r.isLt }

/-! ## Elements -/

/-- The 256-bit value of an element: word q is bits 64q+63..64q (R86). -/
def Element.value (e : Element) : Word := e.w3 ++ e.w2 ++ e.w1 ++ e.w0

/-- The element that holds `v` with tag `tag`. -/
def Element.ofWord (v : Word) (tag : Tag) : Element :=
  { w0 := v.extractLsb' 0 64, w1 := v.extractLsb' 64 64, w2 := v.extractLsb' 128 64, w3 := v.extractLsb' 192 64, tag := tag }

/-- Word q of an element's value (R75, R86). -/
def Element.word (e : Element) (q : Fin 4) : Word64 :=
  match q with
  | 0 => e.w0
  | 1 => e.w1
  | 2 => e.w2
  | 3 => e.w3

/-- A host write of word q: only those 64 bits change, and the tag becomes DATA (R75, R87). -/
def Element.hostWrite (e : Element) (q : Fin 4) (v : Word64) : Element :=
  match q with
  | 0 => { e with w0 := v, tag := .data }
  | 1 => { e with w1 := v, tag := .data }
  | 2 => { e with w2 := v, tag := .data }
  | 3 => { e with w3 := v, tag := .data }

/-- What an element that is not listed holds: EMEM_INIT with tag DATA (R76, R360; log 2). -/
def Element.unwritten (epoch a : Nat) : Element := Element.ofWord (Config.ememInit epoch a) .data

/-! ## Element memory (R39, R40) -/

/-- The element at address `a`. -/
def Memory.read (epoch : Nat) : Memory → Nat → Element
  | [], a => Element.unwritten epoch a
  | (b, e) :: m, a => if a = b then e else Memory.read epoch m a

/-- Writes the element at address `a`, keeping addresses strictly rising. -/
def Memory.write : Memory → Nat → Element → Memory
  | [], a, e => [(a, e)]
  | (b, f) :: m, a, e =>
    if a < b then (a, e) :: (b, f) :: m
    else if a = b then (a, e) :: m
    else (b, f) :: Memory.write m a e

/-- Writes a list of elements, in order. -/
def Memory.writeAll (m : Memory) (l : List (Nat × Element)) : Memory :=
  l.foldl (fun m x => m.write x.1 x.2) m

/-- Sets every tag to DATA and keeps the contents (soft reset, R361). -/
def Memory.clearTags (m : Memory) : Memory := m.map (fun x => (x.1, { x.2 with tag := .data }))

/-- The element at address `a`: MemRead and TagRead of R8. -/
def State.elem (s : State) (a : Nat) : Element := s.mem.read s.epoch a

/-- MemRead(a) (R8), as the unsigned integer it is. -/
def State.memRead (s : State) (a : Nat) : Nat := (s.elem a).value.toNat

/-- TagRead(a) (R8). -/
def State.tagRead (s : State) (a : Nat) : Tag := (s.elem a).tag

/-- MemWrite(a, v): writes the element and sets its tag to DATA (R8). -/
def State.memWrite (s : State) (a : Nat) (v : Word) : State :=
  { s with mem := s.mem.write a (Element.ofWord v .data) }

/-- Writes a list of elements, all at once for the command that makes them. -/
def State.memWriteAll (s : State) (l : List (Nat × Element)) : State :=
  { s with mem := s.mem.writeAll l }

/-- The order of a twiddle tag, nothing for DATA (R292). -/
def Tag.order? : Tag → Option TwOrder
  | .data => none
  | .tw o _ => some o

/-- The size log2 of a twiddle tag, nothing for DATA (R292). -/
def Tag.ks? : Tag → Option Nat
  | .data => none
  | .tw _ ks => some ks

/-! ## Regions -/

/-- Element `a` exists (R81). -/
abbrev State.elemExists (s : State) (a : Nat) : Prop := a < s.cfg.ememN

/-- Region(base, len) is in bounds, on unbounded integers (R82). -/
abbrev State.regionFits (s : State) (base len : Nat) : Prop := base + len ≤ s.cfg.ememN

/-- Region(b1, l1) and Region(b2, l2) overlap (R83). -/
abbrev regionsOverlap (b1 l1 b2 l2 : Nat) : Prop := b1 < b2 + l2 ∧ b2 < b1 + l1

/-! ## Errors (R321) -/

/-- ERR_CODE of an error (R321). -/
def ErrorName.code : ErrorName → BitVec 8
  | .outOfRange => 0x01
  | .noInverse => 0x02
  | .invalidLength => 0x03
  | .backendMismatch => 0x04
  | .illegalCommand => 0x05
  | .badAddress => 0x06
  | .overlap => 0x07
  | .fieldNotReady => 0x08
  | .fieldConfig => 0x09
  | .fieldLocked => 0x0A

/-! ## Interrupts (R327, R328) -/

/-- The ERR source, bit 0. -/
def irqErr : BitVec 3 := 0b001#3

/-- The SYNC source, bit 1. -/
def irqSync : BitVec 3 := 0b010#3

/-- The IDLE source, bit 2. -/
def irqIdle : BitVec 3 := 0b100#3

/-- Sets pending bits. -/
def State.pend (s : State) (sources : BitVec 3) : State := { s with irqPend := s.irqPend ||| sources }

/-- The interrupt output, a level (R328). -/
def State.irq (s : State) : Bool := s.irqPend &&& s.irqEn != 0#3

/-! ## The end of a command -/

/-- LEVEL (R36). -/
def State.level (s : State) : Nat := s.fifo.length

/-- The command at the FIFO head, the one that executes (R35).
Commands execute only from a FIFO that is not empty: the 0 is never seen by a step (log 9). -/
def State.headWord (s : State) : Word64 := s.fifo.headD 0#64

/-- The command retires (R320): it leaves the FIFO, RETIRED grows by 1 modulo 2^64, and IDLE becomes pending if the FIFO is now empty. -/
def State.retire (s : State) : State :=
  { s with
    fifo    := s.fifo.tail
    retired := s.retired + 1#64
    irqPend := if s.fifo.tail.isEmpty then s.irqPend ||| irqIdle else s.irqPend }

/-- The command raises error `e` (R322): it stays at the FIFO head, writes nothing, and the core halts with the error record written. -/
def State.raise (s : State) (e : ErrorName) : State :=
  { s with
    halted  := true
    errCode := e.code
    errCmd  := s.headWord
    errSeq  := s.retired
    irqPend := s.irqPend ||| irqErr }

/-- The return from an error, CTRL.CLEAR_ERR (R64, R325): the error record and CMD_DROPPED become 0 and the FIFO is flushed. -/
def State.clearErr (s : State) : State :=
  { s with
    halted     := false
    errCode    := 0#8
    errCmd     := 0#64
    errSeq     := 0#64
    cmdDropped := false
    fifo       := [] }

/-- Soft reset (R76, R361): element contents are kept, tags become DATA, everything else is cleared. -/
def State.softReset (s : State) : State :=
  { s with
    regs       := Vector.replicate 16 0#256
    flagC      := false
    flagZ      := false
    fieldN     := 0#256
    fieldR2    := 0#256
    fieldNinv  := 0#256
    fieldReady := false
    mem        := s.mem.clearTags
    fifo       := []
    halted     := false
    errCode    := 0#8
    errCmd     := 0#64
    errSeq     := 0#64
    irqEn      := 0#3
    irqPend    := 0#3
    retired    := 0#64
    cmdDropped := false }

/-- A power-on reset in the course of a run (R360): the elements hold a new EMEM_INIT (log 2). -/
def State.powerCycle (s : State) : State :=
  { State.powerOn s.cfg with epoch := s.epoch + 1, turns := s.turns, reads := s.reads }

/-- What a step of the machine answers. -/
abbrev StepResult := Host.Outcome State Fault Refusal

/-- The family rule completed in `t`: the command retires (R320). -/
def complete (t : State) : StepResult := .next t.retire

/-- The family rule raised `e` on the state before the command (R322): error entry is a next state. -/
def fail (e : ErrorName) (s : State) : StepResult := .next (s.raise e)

end Sys2Proof.Machine
end

