-- ==== Sys2Proof/Machine/Operands.lean ====
section
/-! DEFINITION. The operand forms: the width view of a register (R32), a result written zero-extended (R170), and a field operand (R210). -/

namespace Sys2Proof.Machine

open Sys2Proof

/-- W in bits (R131). -/
def Width.bits : Width → Nat
  | .w256 => 256
  | .w128 => 128

/-- 2^W. -/
def Width.modulus (w : Width) : Nat := 2 ^ Width.bits w

/-- `trunc_W(x[r])` (R32, R170). -/
def State.operand (s : State) (w : Width) (r : Reg) : Nat := (s.reg r).toNat % Width.modulus w

/-- `x[rd] <- zext_256(n)` (R170). -/
def State.writeResult (s : State) (rd : Reg) (n : Nat) : State := s.setReg rd (BitVec.ofNat 256 n)

/-- A field operand, all 256 bits of the register (R210). -/
def State.fieldOperand (s : State) (r : Reg) : Nat := (s.reg r).toNat

/-- The modulus N as the integer it is (R10). -/
def State.modN (s : State) : Nat := s.fieldN.toNat

/-- Canonical means v < N (R10). -/
abbrev State.canonical (s : State) (v : Nat) : Prop := v < s.modN

end Sys2Proof.Machine
end

