-- ==== Sys2Proof/Machine/FieldOps.lean ====
section
/-! DEFINITION. Montgomery arithmetic (R11, R12, R211, R213, R214) on exact integers. -/

namespace Sys2Proof.Machine

open Sys2Proof

/-- R, the Montgomery radix (R6, R10). -/
abbrev radix : Nat := 2 ^ 256

/-- REDC(T) with the constants N and NINV (R11).
The sum is exact, no carry is dropped. -/
def redc (n ninv t : Nat) : Nat :=
  let m := (t % radix) * ninv % radix
  let q := (t + m * n) / radix
  let u := if q ≥ n then q - n else q
  u % radix

/-- MontMul(a, b) = REDC(a·b), of the exact double-width product (R11). -/
def montMul (n ninv a b : Nat) : Nat := redc n ninv (a * b)

/-- ONE = REDC(R2) (R12). -/
def montOne (n r2 ninv : Nat) : Nat := redc n ninv r2

/-- One turn of the loop of R211: square, and multiply when the exponent's bit is 1. -/
def montPowTurn (n ninv a : Nat) (bit : Bool) (acc : Nat) : Nat :=
  let sq := montMul n ninv acc acc
  if bit then montMul n ninv sq a else sq

/-- The loop of R211 over the exponent's bits `i−1` down to 0. -/
def montPowLoop (n ninv a e : Nat) : Nat → Nat → Nat
  | 0, acc => acc
  | i + 1, acc => montPowLoop n ninv a e i (montPowTurn n ninv a (e.testBit i) acc)

/-- MontPow(a, e) (R211), over all 256 bits of e.
DESIGN CHOICE (log 18): where R2 is not R² mod N, squaring ONE need not give ONE, so R211's pseudocode and its sentence "MontPow(a, 0) = ONE for every a" disagree, and the model follows the pseudocode. -/
def montPow (n r2 ninv a e : Nat) : Nat := montPowLoop n ninv a e 256 (montOne n r2 ninv)

/-- Field addition: "a single conditional normalization" of the exact sum (R213). -/
def fieldAdd (n a b : Nat) : Nat := if a + b ≥ n then a + b - n else a + b

/-- Field subtraction: the borrow case adds N once (R214). -/
def fieldSub (n a b : Nat) : Nat := if a ≥ b then a - b else a + n - b

/-- MontMul with the constants the state holds. -/
def State.montMul (s : State) (a b : Nat) : Nat := Machine.montMul s.modN s.fieldNinv.toNat a b

/-- REDC with the constants the state holds. -/
def State.redc (s : State) (t : Nat) : Nat := Machine.redc s.modN s.fieldNinv.toNat t

/-- MontPow with the constants the state holds. -/
def State.montPow (s : State) (a e : Nat) : Nat :=
  Machine.montPow s.modN s.fieldR2.toNat s.fieldNinv.toNat a e

end Sys2Proof.Machine
end

