-- ==== Sys2Proof/Machine/TransformOps.lean ====
section
/-! DEFINITION. What the transform commands share: bit reversal of an index (R9), the pairs of a butterfly stage (R290) and their twiddle offsets (R291). -/

namespace Sys2Proof.Machine

open Sys2Proof

/-- `bitrev_k(i)` (R9): bit j of the result is bit k−1−j of `i`. -/
def bitrev : Nat → Nat → Nat
  | 0, _ => 0
  | k + 1, i => (i % 2) * 2 ^ k + bitrev k (i / 2)

/-- The exponent of entry `i` of a table for size 2^ks (R260). -/
def twExponent (ord : TwOrder) (ks i : Nat) : Nat :=
  match ord with
  | .nat => i
  | .rev => bitrev (ks - 1) i

/-- The pairs (j, i) of a stage, 0 ≤ j < S/g and 0 ≤ i < g/2 (R290). -/
def stagePairs (k gl : Nat) : List (Nat × Nat) :=
  (List.range (2 ^ k / 2 ^ gl)).flatMap fun j => (List.range (2 ^ gl / 2)).map fun i => (j, i)

/-- The top element of pair (j, i) (R290). -/
def pairTop (buf gl j i : Nat) : Nat := buf + j * 2 ^ gl + i

/-- The bottom element of pair (j, i) (R290). -/
def pairBottom (buf gl j i : Nat) : Nat := pairTop buf gl j i + 2 ^ gl / 2

/-- TwIdx(j, i) (R291): per group in NR, per pair in RN. -/
def twIdx (mode : Mode) (k gl j i : Nat) : Nat :=
  match mode with
  | .nr => j
  | .rn => i * (2 ^ k / 2 ^ gl)

/-- U, the twiddle offsets a stage reads (R292). -/
def twOffsets (mode : Mode) (k gl : Nat) : List Nat :=
  (stagePairs k gl).map fun x => twIdx mode k gl x.1 x.2

/-- The table order a mode needs (R292). -/
def wantedOrder : Mode → TwOrder
  | .nr => .rev
  | .rn => .nat

end Sys2Proof.Machine
end

