-- ==== Sys2Proof/Machine/BitReversal.lean ====
section
/-! DEFINITION. The bit-reversal permutation (R280). -/

namespace Sys2Proof.Machine

open Sys2Proof

/-- The writes of BITREV, all of the old elements (R280): element dst + bitrev_k(i) becomes old[i], with tag DATA. -/
def bitrevWrites (s : State) (k dst src : Nat) : List (Nat × Element) :=
  (List.range (2 ^ k)).map fun i => (dst + bitrev k i, { s.elem (src + i) with tag := .data })

/-- BITREV (R280): in place, or to a disjoint region.
It needs no field and checks no range. -/
def execBitrev (k dst src : Nat) (s : State) : StepResult :=
  if ¬ (s.regionFits src (2 ^ k) ∧ s.regionFits dst (2 ^ k)) then fail .badAddress s
  else if regionsOverlap src (2 ^ k) dst (2 ^ k) ∧ src ≠ dst then fail .overlap s
  else complete (s.memWriteAll (bitrevWrites s k dst src))

end Sys2Proof.Machine
end

