-- ==== Sys2Proof/Machine/Butterfly.lean ====
section
/-! DEFINITION. The radix-2 DIT butterfly stage (R290 to R292). -/

namespace Sys2Proof.Machine

open Sys2Proof

/-- The two writes of pair (j, i), of values read from the state before the command (R292). -/
def butterflyPair (s : State) (mode : Mode) (gl k tw buf j i : Nat) : List (Nat × Element) :=
  let a := s.memRead (pairTop buf gl j i)
  let b := s.memRead (pairBottom buf gl j i)
  let w := s.memRead (tw + twIdx mode k gl j i)
  let t := s.montMul w b
  [(pairTop buf gl j i, Element.ofWord (BitVec.ofNat 256 (fieldAdd s.modN a t)) .data),
   (pairBottom buf gl j i, Element.ofWord (BitVec.ofNat 256 (fieldSub s.modN a t)) .data)]

/-- All the writes of a stage (R292). -/
def butterflyWrites (s : State) (mode : Mode) (gl k tw buf : Nat) : List (Nat × Element) :=
  (stagePairs k gl).flatMap fun x => butterflyPair s mode gl k tw buf x.1 x.2

/-- BFLY (R292), its checks in the order of the rule. -/
def execBfly (mode : Mode) (gl k tw buf : Nat) (s : State) : StepResult :=
  if ¬ s.fieldReady then fail .fieldNotReady s
  else if k = 0 ∨ gl = 0 ∨ gl > k then fail .invalidLength s
  else if ¬ (s.regionFits buf (2 ^ k) ∧ s.regionFits tw (2 ^ k / 2)) then fail .badAddress s
  else if regionsOverlap buf (2 ^ k) tw (2 ^ k / 2) then fail .overlap s
  else if ∃ t ∈ twOffsets mode k gl, (s.tagRead (tw + t)).order? ≠ some (wantedOrder mode) then
    fail .backendMismatch s
  else if ∃ t ∈ twOffsets mode k gl, (s.tagRead (tw + t)).ks? ≠ some k then fail .invalidLength s
  else if ∃ e ∈ List.range (2 ^ k), ¬ s.canonical (s.memRead (buf + e)) then fail .outOfRange s
  else if ∃ t ∈ twOffsets mode k gl, ¬ s.canonical (s.memRead (tw + t)) then fail .outOfRange s
  else complete (s.memWriteAll (butterflyWrites s mode gl k tw buf))

end Sys2Proof.Machine
end

