-- ==== Sys2Proof/Machine/Control.lean ====
section
/-! DEFINITION. The control commands (R310, R311). -/

namespace Sys2Proof.Machine

open Sys2Proof

/-- NOP (R310). -/
def execNop (s : State) : StepResult := complete s

/-- SYNC (R311): with IRQ = 1, IRQ_PEND.SYNC becomes 1 when it retires. -/
def execSync (irq : Bool) (s : State) : StepResult :=
  complete (if irq then s.pend irqSync else s)

end Sys2Proof.Machine
end

