-- ==== Sys2Proof/Machine/ElementLoadStore.lean ====
section
/-! DEFINITION. Element load and store (R250, R251). -/

namespace Sys2Proof.Machine

open Sys2Proof

/-- LD (R250): the element is copied whole, its tag is neither read nor changed. -/
def execLd (rd : Reg) (p : Nat) (s : State) : StepResult :=
  if ¬ s.elemExists p then fail .badAddress s
  else complete (s.setReg rd (s.elem p).value)

/-- ST (R251): the element's tag becomes DATA. -/
def execSt (rs : Reg) (p : Nat) (s : State) : StepResult :=
  if ¬ s.elemExists p then fail .badAddress s
  else complete (s.memWrite p (s.reg rs))

end Sys2Proof.Machine
end

