-- ==== Sys2Proof/Machine/MontgomeryField.lean ====
section
/-! DEFINITION. The Montgomery field family (R210 to R220), each with its checks in the order of R210 and R324. -/

namespace Sys2Proof.Machine

open Sys2Proof

/-- FCFG's check of the constants (R212). -/
abbrev fieldConstantsOk (n r2 ni : Nat) : Prop :=
  n % 2 = 1 ∧ n ≥ 3 ∧ r2 < n ∧ (n * ni + 1) % 2 ^ 256 = 0

/-- FCFG (R212): sets the field constants once per reset. -/
def execFcfg (rn rr2 rni : Reg) (s : State) : StepResult :=
  if s.fieldReady then fail .fieldLocked s
  else if ¬ fieldConstantsOk (s.reg rn).toNat (s.reg rr2).toNat (s.reg rni).toNat then fail .fieldConfig s
  else complete { s with
    fieldN := s.reg rn, fieldR2 := s.reg rr2, fieldNinv := s.reg rni, fieldReady := true }

/-- A field command of one operand: FIELD_READY, then the operand's range (R210), then its value. -/
def fieldUnary (rd rs1 : Reg) (f : Nat → Nat) (s : State) : StepResult :=
  let a := s.fieldOperand rs1
  if ¬ s.fieldReady then fail .fieldNotReady s
  else if ¬ s.canonical a then fail .outOfRange s
  else complete (s.writeResult rd (f a))

/-- A field command of two field operands: FIELD_READY, then the operands' range (R210), then its value. -/
def fieldBinary (rd rs1 rs2 : Reg) (f : Nat → Nat → Nat) (s : State) : StepResult :=
  let a := s.fieldOperand rs1
  let b := s.fieldOperand rs2
  if ¬ s.fieldReady then fail .fieldNotReady s
  else if ¬ (s.canonical a ∧ s.canonical b) then fail .outOfRange s
  else complete (s.writeResult rd (f a b))

/-- FADD (R213). -/
def execFadd (rd rs1 rs2 : Reg) (s : State) : StepResult :=
  fieldBinary rd rs1 rs2 (fieldAdd s.modN) s

/-- FSUB (R214). -/
def execFsub (rd rs1 rs2 : Reg) (s : State) : StepResult :=
  fieldBinary rd rs1 rs2 (fieldSub s.modN) s

/-- FMUL (R215). -/
def execFmul (rd rs1 rs2 : Reg) (s : State) : StepResult :=
  fieldBinary rd rs1 rs2 s.montMul s

/-- FSQR (R216). -/
def execFsqr (rd rs1 : Reg) (s : State) : StepResult :=
  fieldUnary rd rs1 (fun a => s.montMul a a) s

/-- FINV (R217): Fermat, and the zero element has no inverse.
The range check comes before the zero check (R324). -/
def execFinv (rd rs1 : Reg) (s : State) : StepResult :=
  let a := s.fieldOperand rs1
  if ¬ s.fieldReady then fail .fieldNotReady s
  else if ¬ s.canonical a then fail .outOfRange s
  else if a = 0 then fail .noInverse s
  else complete (s.writeResult rd (s.montPow a (s.modN - 2)))

/-- FPOW (R218): the exponent is a plain 256-bit integer and is not checked. -/
def execFpow (rd rs1 rs2 : Reg) (s : State) : StepResult :=
  fieldUnary rd rs1 (fun a => s.montPow a (s.reg rs2).toNat) s

/-- FTOM (R219): plain integer to Montgomery form. -/
def execFtom (rd rs1 : Reg) (s : State) : StepResult :=
  fieldUnary rd rs1 (fun x => s.montMul x s.fieldR2.toNat) s

/-- FFROMM (R220): Montgomery form to plain integer. -/
def execFfromm (rd rs1 : Reg) (s : State) : StepResult :=
  fieldUnary rd rs1 s.redc s

end Sys2Proof.Machine
end

