-- ==== Sys2Proof/Machine/TwiddleGeneration.lean ====
section
/-! DEFINITION. Twiddle-factor generation (R260). -/

namespace Sys2Proof.Machine

open Sys2Proof

/-- The table TWGEN writes at `dst`: entry i is MontPow(root, e), tagged TW(order, ks) (R260). -/
def twiddleTable (s : State) (ord : TwOrder) (root ks dst : Nat) : List (Nat × Element) :=
  (List.range (2 ^ (ks - 1))).map fun i =>
    (dst + i, Element.ofWord (BitVec.ofNat 256 (s.montPow root (twExponent ord ks i))) (.tw ord ks))

/-- TWGEN (R260), its checks in the order of R324. -/
def execTwgen (ord : TwOrder) (rs1 : Reg) (ks dst : Nat) (s : State) : StepResult :=
  let root := s.fieldOperand rs1
  if ¬ s.fieldReady then fail .fieldNotReady s
  else if ks = 0 then fail .invalidLength s
  else if ¬ s.regionFits dst (2 ^ (ks - 1)) then fail .badAddress s
  else if ¬ s.canonical root then fail .outOfRange s
  else complete (s.memWriteAll (twiddleTable s ord root ks dst))

end Sys2Proof.Machine
end

