-- ==== Sys2Proof/Machine/Flags.lean ====
section
/-! DEFINITION. The flag computations (R33): carry out, borrow out, zero. -/

namespace Sys2Proof.Machine

open Sys2Proof

/-- C as the integer that ADC adds and SBB subtracts (R172, R174). -/
def State.carryIn (s : State) : Nat := s.flagC.toNat

/-- The carry out of bit W−1 of an exact sum `t`: `t div 2^W` (R171, R172). -/
def carryOut (w : Width) (t : Nat) : Bool := t / Width.modulus w != 0

/-- The borrow out: 1 when the subtrahend, with borrow-in, exceeds the minuend (R33, R173, R174). -/
def borrowOut (a b borrowIn : Nat) : Bool := decide (a < b + borrowIn)

/-- The exact difference reduced modulo 2^W, for `a`, `b` below 2^W and a borrow-in of 0 or 1 (R173, R174). -/
def wrapSub (w : Width) (a b borrowIn : Nat) : Nat := (a + Width.modulus w - (b + borrowIn)) % Width.modulus w

/-- Writes C and Z (R33). -/
def State.setFlags (s : State) (c z : Bool) : State := { s with flagC := c, flagZ := z }

end Sys2Proof.Machine
end

