-- ==== Sys2Proof/Machine/WideInteger.lean ====
section
/-! DEFINITION. The wide-integer family (R170 to R182).
None of these commands can fail once decoded (R170). -/

namespace Sys2Proof.Machine

open Sys2Proof

/-- The exact sum `t` is the result of an addition (R171, R172). -/
def finishAdd (rd : Reg) (w : Width) (t : Nat) (s : State) : StepResult :=
  let r := t % Width.modulus w
  complete ((s.writeResult rd r).setFlags (carryOut w t) (r == 0))

/-- `a − b − borrowIn` is the result of a subtraction (R173, R174). -/
def finishSub (rd : Reg) (w : Width) (a b borrowIn : Nat) (s : State) : StepResult :=
  let r := wrapSub w a b borrowIn
  complete ((s.writeResult rd r).setFlags (borrowOut a b borrowIn) (r == 0))

/-- ADD (R171). -/
def execAdd (rd rs1 rs2 : Reg) (w : Width) (s : State) : StepResult :=
  finishAdd rd w (s.operand w rs1 + s.operand w rs2) s

/-- ADC (R172). -/
def execAdc (rd rs1 rs2 : Reg) (w : Width) (s : State) : StepResult :=
  finishAdd rd w (s.operand w rs1 + s.operand w rs2 + s.carryIn) s

/-- SUB (R173). -/
def execSub (rd rs1 rs2 : Reg) (w : Width) (s : State) : StepResult :=
  finishSub rd w (s.operand w rs1) (s.operand w rs2) 0 s

/-- SBB (R174). -/
def execSbb (rd rs1 rs2 : Reg) (w : Width) (s : State) : StepResult :=
  finishSub rd w (s.operand w rs1) (s.operand w rs2) s.carryIn s

/-- CMP (R175): no register is written. -/
def execCmp (rs1 rs2 : Reg) (w : Width) (s : State) : StepResult :=
  let a := s.operand w rs1
  let b := s.operand w rs2
  complete (s.setFlags (borrowOut a b 0) (a == b))

/-- AND (R176). -/
def execAnd (rd rs1 rs2 : Reg) (w : Width) (s : State) : StepResult :=
  complete (s.writeResult rd (s.operand w rs1 &&& s.operand w rs2))

/-- SHR (R177): a shift by W or more gives 0. -/
def execShr (rd rs1 : Reg) (shamt : Nat) (w : Width) (s : State) : StepResult :=
  complete (s.writeResult rd (if shamt < Width.bits w then s.operand w rs1 / 2 ^ shamt else 0))

/-- SHL (R178): a shift by W or more gives 0. -/
def execShl (rd rs1 : Reg) (shamt : Nat) (w : Width) (s : State) : StepResult :=
  complete (s.writeResult rd
    (if shamt < Width.bits w then s.operand w rs1 * 2 ^ shamt % Width.modulus w else 0))

/-- MUL (R179): the low W bits of the exact product. -/
def execMul (rd rs1 rs2 : Reg) (w : Width) (s : State) : StepResult :=
  complete (s.writeResult rd (s.operand w rs1 * s.operand w rs2 % Width.modulus w))

/-- MULB (R180): only bit 0 of rs2 is the boolean. -/
def execMulb (rd rs1 rs2 : Reg) (w : Width) (s : State) : StepResult :=
  complete (s.writeResult rd (if (s.reg rs2).getLsbD 0 then s.operand w rs1 else 0))

/-- MOV (R181). -/
def execMov (rd rs1 : Reg) (w : Width) (s : State) : StepResult :=
  complete (s.writeResult rd (s.operand w rs1))

/-- LI (R182): zero-extended. -/
def execLi (rd : Reg) (imm32 : BitVec 32) (s : State) : StepResult :=
  complete (s.writeResult rd imm32.toNat)

end Sys2Proof.Machine
end

