-- ==== Sys2Proof/Machine/Dispatch.lean ====
section
/-! DEFINITION. One arm per command, each a direct call of its meaning. -/

namespace Sys2Proof.Machine

open Sys2Proof

/-- The effect of command `i`, the head of the FIFO, on the state. -/
def exec (i : Instr) (s : State) : Host.Outcome State Fault Refusal :=
  match i with
  -- control (R310, R311)
  | .nop => Sys2Proof.Machine.execNop s
  | .sync irq => Sys2Proof.Machine.execSync irq s
  -- wide integer (R171 to R182)
  | .add rd rs1 rs2 w => Sys2Proof.Machine.execAdd rd rs1 rs2 w s
  | .adc rd rs1 rs2 w => Sys2Proof.Machine.execAdc rd rs1 rs2 w s
  | .sub rd rs1 rs2 w => Sys2Proof.Machine.execSub rd rs1 rs2 w s
  | .sbb rd rs1 rs2 w => Sys2Proof.Machine.execSbb rd rs1 rs2 w s
  | .cmp rs1 rs2 w => Sys2Proof.Machine.execCmp rs1 rs2 w s
  | .and rd rs1 rs2 w => Sys2Proof.Machine.execAnd rd rs1 rs2 w s
  | .shr rd rs1 shamt w => Sys2Proof.Machine.execShr rd rs1 shamt w s
  | .shl rd rs1 shamt w => Sys2Proof.Machine.execShl rd rs1 shamt w s
  | .mul rd rs1 rs2 w => Sys2Proof.Machine.execMul rd rs1 rs2 w s
  | .mulb rd rs1 rs2 w => Sys2Proof.Machine.execMulb rd rs1 rs2 w s
  | .mov rd rs1 w => Sys2Proof.Machine.execMov rd rs1 w s
  | .li rd imm32 => Sys2Proof.Machine.execLi rd imm32 s
  -- Montgomery field (R212 to R220)
  | .fcfg rn rr2 rni => Sys2Proof.Machine.execFcfg rn rr2 rni s
  | .fadd rd rs1 rs2 => Sys2Proof.Machine.execFadd rd rs1 rs2 s
  | .fsub rd rs1 rs2 => Sys2Proof.Machine.execFsub rd rs1 rs2 s
  | .fmul rd rs1 rs2 => Sys2Proof.Machine.execFmul rd rs1 rs2 s
  | .fsqr rd rs1 => Sys2Proof.Machine.execFsqr rd rs1 s
  | .finv rd rs1 => Sys2Proof.Machine.execFinv rd rs1 s
  | .fpow rd rs1 rs2 => Sys2Proof.Machine.execFpow rd rs1 rs2 s
  | .ftom rd rs1 => Sys2Proof.Machine.execFtom rd rs1 s
  | .ffromm rd rs1 => Sys2Proof.Machine.execFfromm rd rs1 s
  -- element load and store (R250, R251)
  | .ld rd p => Sys2Proof.Machine.execLd rd p s
  | .st rs p => Sys2Proof.Machine.execSt rs p s
  -- transforms (R260, R280, R292)
  | .twgen ord rs1 ks dst => Sys2Proof.Machine.execTwgen ord rs1 ks dst s
  | .bitrev k dst src => Sys2Proof.Machine.execBitrev k dst src s
  | .bfly mode gl k tw buf => Sys2Proof.Machine.execBfly mode gl k tw buf s

end Sys2Proof.Machine
end

