-- ==== Sys2Proof/Machine/CoreStep.lean ====
section
/-! DEFINITION. The core's step (R320): decode the FIFO head and execute it. -/

namespace Sys2Proof.Machine

open Sys2Proof

/-- The core executes command word `c`, the FIFO head: a word that is no command fails with ILLEGAL_COMMAND (R143, R144). -/
def executeWord (c : Word64) (s : State) : StepResult :=
  match decode c with
  | .command i => exec i s
  | .illegal _ => fail .illegalCommand s

/-- The core's step: possible exactly when HALTED = 0 and LEVEL > 0 (R320, R323). -/
def coreStep (s : State) : StepResult :=
  if s.halted then .fault .coreHalted
  else
    match s.fifo with
    | [] => .fault .fifoEmpty
    | c :: _ => executeWord c s

end Sys2Proof.Machine
end

