-- ==== Sys2Proof/Machine/HostAccess.lean ====
section
/-! DEFINITION. The MMIO block (R60 to R75, R84 to R90): what each offset is, what a read of it returns and what a write of it does. -/

namespace Sys2Proof.Machine

open Sys2Proof

/-- What an 8-byte-aligned offset of the MMIO space names (R60, R84). -/
inductive MmioReg where
  | id
  | params
  | ctrl
  | status
  | errCode
  | errCmd
  | errSeq
  | irqEn
  | irqPend
  | cmd
  | retired
  /-- Word q of N. -/
  | wordN (q : Fin 4)
  /-- Word q of R2. -/
  | wordR2 (q : Fin 4)
  /-- Word q of NINV. -/
  | wordNinv (q : Fin 4)
  /-- Word q of register r. -/
  | regWord (r : Reg) (q : Fin 4)
  /-- Word q of element j. -/
  | elemWord (j : Nat) (q : Fin 4)
  | unmapped
  deriving DecidableEq, Repr

/-- The word number of an offset inside a window (R86). -/
def windowWord (off : Nat) : Fin 4 := Fin.ofNat 4 (off / 8)

/-- The address map (R60, R84): window words at base + 8q (R73 to R75). -/
def mmioMap (cfg : Config) (off : Nat) : MmioReg :=
  if off < 0x58 then
    match off / 8 with
    | 0 => .id
    | 1 => .params
    | 2 => .ctrl
    | 3 => .status
    | 4 => .errCode
    | 5 => .errCmd
    | 6 => .errSeq
    | 7 => .irqEn
    | 8 => .irqPend
    | 9 => .cmd
    | _ => .retired
  else if off < 0x100 then .unmapped
  else if off < 0x120 then .wordN (windowWord (off - 0x100))
  else if off < 0x140 then .wordR2 (windowWord (off - 0x120))
  else if off < 0x160 then .wordNinv (windowWord (off - 0x140))
  else if off < 0x200 then .unmapped
  else if off < 0x400 then .regWord (Fin.ofNat 16 ((off - 0x200) / 32)) (windowWord (off - 0x200))
  else if off < 0x800000 then .unmapped
  else if (off - 0x800000) / 32 < cfg.ememN then
    .elemWord ((off - 0x800000) / 32) (windowWord (off - 0x800000))
  else .unmapped

/-- Word q of a 256-bit value: bits 64q+63..64q (R86). -/
def wordOf (v : Word) (q : Fin 4) : Word64 := v.extractLsb' (64 * q.val) 64

/-- A 256-bit value with word q replaced, the other three words kept (R87). -/
def replaceWord (v : Word) (q : Fin 4) (x : Word64) : Word :=
  ((Element.ofWord v .data).hostWrite q x).value

/-- ID (R62): the ASCII bytes "LEC-CORE". -/
def idWord : Word64 := 0x4C45432D434F5245#64

/-- PARAMS (R63): zero, VERSION = 1, NREG = 16, QDEPTH, zero, EMEM_LOG. -/
def paramsWord (cfg : Config) : Word64 :=
  0#32 ++ 1#8 ++ 16#8 ++ BitVec.ofNat 8 cfg.qdepth ++ 0#3 ++ BitVec.ofNat 5 cfg.ememLog

/-- BUSY (R65): the core has work it will do. -/
def State.busy (s : State) : Bool := decide (s.level > 0) && !s.halted

/-- STATUS (R65): zero, LEVEL, zero, IRQ, Z, C, CMD_DROPPED, FIELD_READY, HALTED, BUSY. -/
def State.statusWord (s : State) : Word64 :=
  0#40 ++ BitVec.ofNat 8 s.level ++ 0#9 ++ BitVec.ofBool s.irq ++ BitVec.ofBool s.flagZ ++
    BitVec.ofBool s.flagC ++ BitVec.ofBool s.cmdDropped ++ BitVec.ofBool s.fieldReady ++
    BitVec.ofBool s.halted ++ BitVec.ofBool s.busy

/-- The value a read returns (R62 to R75): CTRL and CMD are write-only and read 0, an unmapped offset reads 0 (R88). -/
def State.mmioValue (s : State) : MmioReg → Word64
  | .id => idWord
  | .params => paramsWord s.cfg
  | .ctrl => 0#64
  | .status => s.statusWord
  | .errCode => s.errCode.setWidth 64
  | .errCmd => s.errCmd
  | .errSeq => s.errSeq
  | .irqEn => s.irqEn.setWidth 64
  | .irqPend => s.irqPend.setWidth 64
  | .cmd => 0#64
  | .retired => s.retired
  | .wordN q => wordOf s.fieldN q
  | .wordR2 q => wordOf s.fieldR2 q
  | .wordNinv q => wordOf s.fieldNinv q
  | .regWord r q => wordOf (s.reg r) q
  | .elemWord j q => (s.elem j).word q
  | .unmapped => 0#64

/-- The byte that a host bus which numbers bytes sees at MMIO offset `off`, little-endian inside the 64-bit word (R86). -/
def State.mmioByte (s : State) (off : Nat) : BitVec 8 :=
  (s.mmioValue (mmioMap s.cfg (off / 8 * 8))).extractLsb' (8 * (off % 8)) 8

/-- A write of CMD (R71): dropped when HALTED = 1 or the FIFO is full, else appended at the tail.
The word is not decoded on entry. -/
def State.writeCmd (s : State) (c : Word64) : State :=
  if s.halted = true ∨ s.level = s.cfg.qdepth then { s with cmdDropped := true }
  else { s with fifo := s.fifo ++ [c] }

/-- A write of CTRL (R64): SOFT_RESET is bit 0, CLEAR_ERR is bit 1, and a soft reset has cleared what CLEAR_ERR clears. -/
def State.writeCtrl (s : State) (v : Word64) : State :=
  if v.getLsbD 0 then s.softReset
  else if v.getLsbD 1 then s.clearErr
  else s

/-- What a write does (R64, R69 to R75): a write to a read-only register or an unmapped offset is ignored (R61, R88). -/
def State.mmioWrite (s : State) (m : MmioReg) (v : Word64) : State :=
  match m with
  | .id => s
  | .params => s
  | .ctrl => s.writeCtrl v
  | .status => s
  | .errCode => s
  | .errCmd => s
  | .errSeq => s
  | .irqEn => { s with irqEn := v.setWidth 3 }
  | .irqPend => { s with irqPend := s.irqPend &&& ~~~(v.setWidth 3) }
  | .cmd => s.writeCmd v
  | .retired => s
  | .wordN _ => s
  | .wordR2 _ => s
  | .wordNinv _ => s
  | .regWord r q => s.setReg r (replaceWord (s.reg r) q v)
  | .elemWord j q => { s with mem := s.mem.write j ((s.elem j).hostWrite q v) }
  | .unmapped => s

/-- The size of the MMIO space in bytes (R80, R84). -/
def mmioSize : Nat := 0x1000000

/-- The offset an access has, or why it has no meaning: it lies outside the block (R84, log 7), or its width or alignment is not supported (R85, log 6). -/
def mmioOffset (cfg : Config) (width addr : Nat) : Except Refusal Nat :=
  if addr < cfg.mmioBase ∨ cfg.mmioBase + mmioSize ≤ addr then .error .outsideBlock
  else if width ≠ 64 ∨ (addr - cfg.mmioBase) % 8 ≠ 0 then .error .unsupportedAccess
  else .ok (addr - cfg.mmioBase)

/-- One host access, atomic between two commands (R61, R89, R93).
A read returns its value into `reads` and changes nothing else (R90). -/
def hostAccess (a : HostAccess) (s : State) : StepResult :=
  match a with
  | .read width addr =>
    match mmioOffset s.cfg width addr with
    | .error e => .refused e
    | .ok off => .next { s with reads := s.mmioValue (mmioMap s.cfg off) :: s.reads }
  | .write width addr data =>
    match mmioOffset s.cfg width addr with
    | .error e => .refused e
    | .ok off => .next (s.mmioWrite (mmioMap s.cfg off) data)

end Sys2Proof.Machine
end

