-- ==== Sys2Proof/Machine/Fetch.lean ====
section
/-! DEFINITION. Whose turn it is, and where the core takes its next command. -/

namespace Sys2Proof.Machine

open Sys2Proof

/-- Gives one turn to the agent `turns` names, and to the core when it names none (R93, log 4). -/
def takeTurn (s : State) : StepResult :=
  match s.turns with
  | [] => coreStep s
  | .core :: rest => coreStep { s with turns := rest }
  | .host a :: rest => hostAccess a { s with turns := rest }
  | .powerOn :: rest => .next { s with turns := rest }.powerCycle

/-- The turns that let the core move next. -/
def coreNext : List Turn → List Turn
  | [] => []
  | .core :: rest => .core :: rest
  | .host a :: rest => .core :: .host a :: rest
  | .powerOn :: rest => .core :: .powerOn :: rest

/-- The word `w` of `nbits` bits stands at the FIFO head, and the very next step is the core's (log 15). -/
def placeAtHead (s : State) (nbits w : Nat) : State :=
  { s with
    fifo    := BitVec.ofNat 64 (w % 2 ^ nbits) :: s.fifo.tail
    turns   := coreNext s.turns
    halted  := false
    errCode := if s.halted then 0#8 else s.errCode
    errCmd  := if s.halted then 0#64 else s.errCmd
    errSeq  := if s.halted then 0#64 else s.errSeq }

end Sys2Proof.Machine
end

