-- ==== Sys2Proof/Machine/Step.lean ====
section
/-! DEFINITION. The step of the machine, and a state whose next step runs a given word. -/

namespace Sys2Proof.Machine

open Sys2Proof

/-- One step: a command of the core, an access of the host, or a power-on reset (R93). -/
def step (s : State) : Host.Outcome State Fault Refusal := takeTurn s

/-- The state with the word `w` at the FIFO head, where the core takes its next command (R35). -/
def State.withFetchWord (s : State) (nbits w : Nat) : State := placeAtHead s nbits w

end Sys2Proof.Machine
end

