-- ==== Sys2Proof/Machine/Schedule.lean ====
section
/-! DEFINITION. Endless runs of host and core (R93) and the weak fairness of the core (R371). -/

namespace Sys2Proof.Machine

open Sys2Proof

/-- Whose turn it is at each moment of an endless run (R93).
It is no part of State: `State.turns` lists finitely many turns, after which only the core moves (log 4, log 12). -/
abbrev Schedule := Nat → Turn

/-- The core can take a step (R320). -/
def State.coreCanStep (s : State) : Bool := !s.halted && decide (s.level > 0)

/-- One moment of a run: the machine's step with the turn `t`, or the core waits because it cannot step (R320, R336). -/
def moment (t : Turn) (s s' : State) : Prop :=
  step { s with turns := [t] } = .next s' ∨ (t = .core ∧ s.coreCanStep = false ∧ s' = s)

/-- The states `run` are an endless run under `sched`, from a state with no turns of its own. -/
def IsRun (sched : Schedule) (run : Nat → State) : Prop :=
  (run 0).turns = [] ∧ ∀ n, moment (sched n) (run n) (run (n + 1))

/-- "Weak fairness of the core's step" (R371): a core that from some moment on can always step gets a turn.
R371 assumes no other fairness. -/
def WeaklyFair (sched : Schedule) (run : Nat → State) : Prop :=
  ∀ n, (∀ m, n ≤ m → (run m).coreCanStep = true) → ∃ m, n ≤ m ∧ sched m = .core

end Sys2Proof.Machine
end

