-- ==== Sys2Proof/Safety.lean ====
section
/-! DEFINITION. The terms claims are made in: what a command leaves unchanged, how a command ends, and the invariant of the machine. -/

namespace Sys2Proof.Machine

open Sys2Proof

/-! ## What stays the same -/

/-- Every register is unchanged. -/
abbrev SameRegs (s t : State) : Prop := ∀ r, t.reg r = s.reg r

/-- Every register but `rd` is unchanged. -/
abbrev SameRegsBut (rd : Reg) (s t : State) : Prop := ∀ r, r ≠ rd → t.reg r = s.reg r

/-- C and Z are unchanged. -/
abbrev SameFlags (s t : State) : Prop := t.flagC = s.flagC ∧ t.flagZ = s.flagZ

/-- N, R2, NINV and FIELD_READY are unchanged. -/
abbrev SameField (s t : State) : Prop :=
  t.fieldN = s.fieldN ∧ t.fieldR2 = s.fieldR2 ∧ t.fieldNinv = s.fieldNinv ∧ t.fieldReady = s.fieldReady

/-- Every element reads as before, value and tag. -/
abbrev SameElems (s t : State) : Prop := ∀ a, t.elem a = s.elem a

/-- Every element outside Region(base, len) reads as before, value and tag. -/
abbrev SameElemsOutside (base len : Nat) (s t : State) : Prop :=
  ∀ a, ¬ (base ≤ a ∧ a < base + len) → t.elem a = s.elem a

/-- Everything no command of the core writes is unchanged: the parameters, IRQ_EN, CMD_DROPPED and the model's own fields. -/
structure SameSurroundings (s t : State) : Prop where
  cfg        : t.cfg = s.cfg
  irqEn      : t.irqEn = s.irqEn
  cmdDropped : t.cmdDropped = s.cmdDropped
  epoch      : t.epoch = s.epoch
  turns      : t.turns = s.turns
  reads      : t.reads = s.reads

/-! ## How a command ends -/

/-- The bookkeeping of a command that retires (R320), `sources` being what the command itself makes pending.
The head leaves the FIFO, RETIRED grows by 1, IDLE (bit 2) becomes pending if the FIFO is then empty, and the error record stays. -/
structure Retires (sources : BitVec 3) (s t : State) : Prop where
  fifo    : t.fifo = s.fifo.tail
  retired : t.retired = s.retired + 1#64
  irqPend : t.irqPend = s.irqPend ||| sources ||| (if s.fifo.tail = [] then 0b100#3 else 0b000#3)
  halted  : t.halted = s.halted
  errCode : t.errCode = s.errCode
  errCmd  : t.errCmd = s.errCmd
  errSeq  : t.errSeq = s.errSeq
  around  : SameSurroundings s t

/-- The state after a command fails with ERR_CODE `code` (R322): the error record is written, IRQ_PEND.ERR (bit 0) becomes 1, the core halts, and nothing else changes.
ERR_CMD is the command at the FIFO head. -/
structure Fails (code : BitVec 8) (s t : State) : Prop where
  regs    : SameRegs s t
  flags   : SameFlags s t
  field   : SameField s t
  elems   : SameElems s t
  fifo    : t.fifo = s.fifo
  retired : t.retired = s.retired
  halted  : t.halted = true
  errCode : t.errCode = code
  errCmd  : ∀ c, s.fifo.head? = some c → t.errCmd = c
  errSeq  : t.errSeq = s.retired
  irqPend : t.irqPend = s.irqPend ||| 0b001#3
  around  : SameSurroundings s t

/-- A command retires and its only effect is `x[rd] <- v`. -/
structure WritesOnlyReg (rd : Reg) (v : Word) (s t : State) : Prop where
  result  : t.reg rd = v
  regs    : SameRegsBut rd s t
  flags   : SameFlags s t
  field   : SameField s t
  elems   : SameElems s t
  retires : Retires 0b000#3 s t

/-- A command retires and its only effects are `x[rd] <- v`, `C <- c` and `Z <- z`. -/
structure WritesRegAndFlags (rd : Reg) (v : Word) (c z : Bool) (s t : State) : Prop where
  result  : t.reg rd = v
  regs    : SameRegsBut rd s t
  carry   : t.flagC = c
  zero    : t.flagZ = z
  field   : SameField s t
  elems   : SameElems s t
  retires : Retires 0b000#3 s t

/-- A command retires and writes no register, flag or field constant: only elements may differ. -/
structure WritesOnlyElems (s t : State) : Prop where
  regs    : SameRegs s t
  flags   : SameFlags s t
  field   : SameField s t
  retires : Retires 0b000#3 s t

/-- Nothing of the FIFO, the error record, the interrupt registers, the counter or the parameters changes: what a window write of the host leaves alone. -/
structure SameControl (s t : State) : Prop where
  fifo       : t.fifo = s.fifo
  halted     : t.halted = s.halted
  errCode    : t.errCode = s.errCode
  errCmd     : t.errCmd = s.errCmd
  errSeq     : t.errSeq = s.errSeq
  irqEn      : t.irqEn = s.irqEn
  irqPend    : t.irqPend = s.irqPend
  retired    : t.retired = s.retired
  cmdDropped : t.cmdDropped = s.cmdDropped
  cfg        : t.cfg = s.cfg
  epoch      : t.epoch = s.epoch
  reads      : t.reads = s.reads

/-- The result is a next state, and `P` holds of it. -/
abbrev Answers (r : StepResult) (P : State → Prop) : Prop := ∃ t, r = .next t ∧ P t

/-! ## Words the statements use -/

/-- `w` selects width `W` (R131). -/
abbrev IsWidth (w : Width) (W : Nat) : Prop := (w = .w256 ∧ W = 256) ∨ (w = .w128 ∧ W = 128)

/-- `trunc_W(x[r])` (R170). -/
abbrev truncReg (s : State) (W : Nat) (r : Reg) : Nat := (s.reg r).toNat % 2 ^ W

/-- The field constants passed FCFG's checks (R212). -/
structure State.FieldConfigured (s : State) : Prop where
  ready     : s.fieldReady = true
  odd       : s.fieldN.toNat % 2 = 1
  atLeast3  : 3 ≤ s.fieldN.toNat
  canonical : s.fieldR2.toNat < s.fieldN.toNat
  inverse   : (s.fieldN.toNat * s.fieldNinv.toNat + 1) % 2 ^ 256 = 0

/-- The field constants are valid: configured, and R2 = R² mod N, which FCFG does not check (R221). -/
structure State.FieldValid (s : State) : Prop where
  configured : s.FieldConfigured
  square     : s.fieldR2.toNat = 2 ^ 512 % s.fieldN.toNat

/-- mont(x) = x·R mod N (R10). -/
abbrev State.mont (s : State) (x : Nat) : Nat := x * 2 ^ 256 % s.fieldN.toNat

/-- The next turn is the core's, and the core can take a step with command word `c` (R320). -/
structure State.Runs (s : State) (c : Word64) : Prop where
  turn    : s.turns = []
  running : s.halted = false
  head    : s.fifo.head? = some c

/-- The next turn is the host's access `a`, and `rest` comes after it (R93). -/
abbrev State.HostMoves (s : State) (a : HostAccess) (rest : List Turn) : Prop := s.turns = .host a :: rest

/-- A BFLY stage passes every check of R292: NR needs a REV table, RN a NAT table. -/
structure StageReady (mode : Mode) (gl k tw buf : Nat) (s : State) : Prop where
  ready     : s.fieldReady = true
  sizes     : 1 ≤ gl ∧ gl ≤ k
  bufFits   : buf + 2 ^ k ≤ 2 ^ s.cfg.ememLog
  twFits    : tw + 2 ^ k / 2 ≤ 2 ^ s.cfg.ememLog
  disjoint  : buf + 2 ^ k ≤ tw ∨ tw + 2 ^ k / 2 ≤ buf
  tags      : ∀ j < 2 ^ k / 2 ^ gl, ∀ i < 2 ^ gl / 2,
    (s.elem (tw + twIdx mode k gl j i)).tag = .tw (if mode = .nr then .rev else .nat) k
  bufValues : ∀ e < 2 ^ k, (s.elem (buf + e)).value.toNat < s.fieldN.toNat
  twValues  : ∀ j < 2 ^ k / 2 ^ gl, ∀ i < 2 ^ gl / 2,
    (s.elem (tw + twIdx mode k gl j i)).value.toNat < s.fieldN.toNat

/-! ## The invariant -/

/-- What every step keeps.
Element memory keeps its canonical form and stays inside EMEM_N, tags carry a size in 1..31 (R40), the FIFO never exceeds QDEPTH (R36), the error record is all zero while HALTED = 0 and describes the FIFO head while HALTED = 1 (R41, R322), and the field constants are zero or passed FCFG's checks (R37, R212). -/
structure State.Inv (s : State) : Prop where
  config    : s.cfg.Valid
  memSorted : s.mem.wf
  memBounds : ∀ x ∈ s.mem, x.1 < 2 ^ s.cfg.ememLog
  tagSizes  : ∀ x ∈ s.mem, ∀ o ks, x.2.tag = .tw o ks → 1 ≤ ks ∧ ks ≤ 31
  fifoFits  : s.fifo.length ≤ s.cfg.qdepth
  running   : s.halted = false → s.errCode = 0#8 ∧ s.errCmd = 0#64 ∧ s.errSeq = 0#64
  stopped   : s.halted = true →
    s.fifo.head? = some s.errCmd ∧ s.errSeq = s.retired ∧ 0x01#8 ≤ s.errCode ∧ s.errCode ≤ 0x0A#8
  unlocked  : s.fieldReady = false → s.fieldN = 0#256 ∧ s.fieldR2 = 0#256 ∧ s.fieldNinv = 0#256
  locked    : s.fieldReady = true → s.FieldConfigured

end Sys2Proof.Machine
end

