-- ==== Sys2Proof/Certificates/Slice0/Obligations.lean ====
section
/-! DEFINITION. The statements for the provers, one definition each. -/

namespace Sys2Proof.Machine

open Sys2Proof

/-- The opcode map as R142 prints it: opcode and must-be-zero mask. -/
def opcodeMap : List (Word64 × Word64) :=
  [(0x01, 0xFFFFFFFFFFFFFFFF), (0x02, 0xFFFFFFFFFFFFFFFE),
   (0x10, 0xFF0007FFFFFFFFFF), (0x11, 0xFF0007FFFFFFFFFF), (0x12, 0xFF0007FFFFFFFFFF), (0x13, 0xFF0007FFFFFFFFFF),
   (0x14, 0xFFF007FFFFFFFFFF), (0x15, 0xFF0007FFFFFFFFFF), (0x16, 0xFF00F7FFFFFFFE00), (0x17, 0xFF00F7FFFFFFFE00),
   (0x18, 0xFF0007FFFFFFFFFF), (0x19, 0xFF0007FFFFFFFFFF), (0x1A, 0xFF00F7FFFFFFFFFF), (0x1B, 0xFF0FFFFF00000000)] ++
  [(0x20, 0xFF000FFFFFFFFFFF), (0x21, 0xFF000FFFFFFFFFFF), (0x22, 0xFF000FFFFFFFFFFF), (0x23, 0xFF000FFFFFFFFFFF),
   (0x24, 0xFF00FFFFFFFFFFFF), (0x25, 0xFF00FFFFFFFFFFFF), (0x26, 0xFF000FFFFFFFFFFF), (0x27, 0xFF00FFFFFFFFFFFF),
   (0x28, 0xFF00FFFFFFFFFFFF), (0x30, 0xFF0FFFFFFFFC0000), (0x31, 0xFF0FFFFFFFFC0000),
   (0x40, 0xFFF0F60FFFFC0000), (0x41, 0xFFFFFE0000000000), (0x42, 0xFFFF800000000000)]

/-- The word selects a row of the opcode map and is well-formed for it (R142). -/
abbrev InOpcodeMap (c : Word64) : Prop := ∃ row ∈ opcodeMap, c >>> 56 = row.1 ∧ c &&& row.2 = row.1 <<< 56

/-- What the command at the FIFO head makes pending when it retires: SYNC (bit 1) for a SYNC with IRQ = 1 (R320). -/
def headSources (s : State) : BitVec 3 :=
  match s.fifo with
  | [] => 0b000#3
  | c :: _ => if decode c = .command (.sync true) then 0b010#3 else 0b000#3

/-- The five commands that write C and Z (R33). -/
def writesFlags : Instr → Bool
  | .add _ _ _ _ => true
  | .adc _ _ _ _ => true
  | .sub _ _ _ _ => true
  | .sbb _ _ _ _ => true
  | .cmp _ _ _ => true
  | _ => false

/-- A field command with register result `rd` (R213 to R220). -/
def fieldResult : Instr → Option Reg
  | .fadd rd _ _ => some rd
  | .fsub rd _ _ => some rd
  | .fmul rd _ _ => some rd
  | .fsqr rd _ => some rd
  | .finv rd _ => some rd
  | .fpow rd _ _ => some rd
  | .ftom rd _ => some rd
  | .ffromm rd _ => some rd
  | _ => none

/-- Everything that either reset clears has its reset value (R76): all state but the element contents. -/
structure ClearedByReset (t : State) : Prop where
  regs       : ∀ r, t.reg r = 0#256
  flags      : t.flagC = false ∧ t.flagZ = false
  field      : t.fieldN = 0#256 ∧ t.fieldR2 = 0#256 ∧ t.fieldNinv = 0#256 ∧ t.fieldReady = false
  tags       : ∀ a, (t.elem a).tag = .data
  fifo       : t.fifo = []
  halted     : t.halted = false
  errCode    : t.errCode = 0#8
  errCmd     : t.errCmd = 0#64
  errSeq     : t.errSeq = 0#64
  irqEn      : t.irqEn = 0#3
  irqPend    : t.irqPend = 0#3
  retired    : t.retired = 0#64
  cmdDropped : t.cmdDropped = false
  id         : t.mmioValue .id = 0x4C45432D434F5245#64
  params     : t.mmioValue .params = paramsWord t.cfg

/-- Executes commands one after another, each on the state the one before it left (R92). -/
def execAll : List Instr → State → StepResult
  | [], s => .next s
  | i :: is, s =>
    match exec i s with
    | .next t => execAll is t
    | .fault f => .fault f
    | .refused r => .refused r

/-- The stages of a forward NR transform, group size S first (R293, R147). -/
def nrStages (k tw buf : Nat) : List Instr :=
  (List.range k).map fun m => .bfly .nr (k - m) k tw buf

end Sys2Proof.Machine

open Sys2Proof Sys2Proof.Machine

/-! ## Encoding -/

/-- One word of each format decodes to its command, and malformed words do not (vectors of 95_test_vectors.md). -/
def Obligations.PrintedWordsDecode : Prop :=
  decode 0x0100000000000000 = .command .nop ∧
  decode 0x0200000000000001 = .command (.sync true) ∧
  decode 0x1012380000000000 = .command (.add 1 2 3 .w128) ∧
  decode 0x16120000000001FF = .command (.shr 1 2 511 .w256) ∧
  decode 0x1B100000DEADBEEF = .command (.li 1 0xDEADBEEF) ∧
  decode 0x2031200000000000 = .command (.fcfg 1 2 3) ∧
  decode 0x317000000000000F = .command (.st 7 15) ∧
  decode 0x4004083000000064 = .command (.twgen .rev 4 3 100) ∧
  decode 0x4100003000800020 = .command (.bitrev 3 32 32) ∧
  decode 0x4200443001000020 = .command (.bfly .rn 2 3 64 32) ∧
  decode 0x0000000000000000 = .illegal .reservedOpcode ∧
  decode 0x2112380000000000 = .illegal .mustBeZero

/-- Decoding an encoded well-formed command gives it back (R142, R144). -/
def Obligations.DecodeAfterEncode : Prop :=
  ∀ i : Instr, i.wellFormed = true → decode (encode i) = .command i

/-- A word that decodes is the encoding of the command it decodes to, which is well-formed: no bit is dropped (R142, R144). -/
def Obligations.EncodeAfterDecode : Prop :=
  ∀ (c : Word64) (i : Instr), decode c = .command i → i.wellFormed = true ∧ encode i = c

/-- The decoder accepts exactly the words of the opcode map (R142, R144). -/
def Obligations.DecodeAcceptsTheOpcodeMap : Prop :=
  ∀ c : Word64, (∃ i, decode c = .command i) ↔ InOpcodeMap c

/-- R143: a word outside the opcode map fails with ILLEGAL_COMMAND, code 5, and has no other effect. -/
def Obligations.WordsOutsideTheOpcodeMapFail : Prop :=
  ∀ (s : State) (c : Word64), s.Runs c → ¬ InOpcodeMap c → Answers (step s) (Fails 0x05#8 s)

/-! ## The step -/

/-- When the FIFO head decodes to a command, the core's step is exec of it (R320).
That a state with no turn given is the core's to move, and that a turn given is used up, is the model's choice (DESIGN CHOICE, log 4). -/
def Obligations.StepRunsTheDecodedCommand : Prop :=
  ∀ (s : State) (c : Word64) (i : Instr), decode c = .command i →
    (s.Runs c → step s = exec i s) ∧
    (∀ rest, s.turns = .core :: rest → s.halted = false → s.fifo.head? = some c →
      step s = exec i { s with turns := rest })

/-- R320, R322, R371: the core can take a step exactly when it is not halted and a command is queued, the step either retires that command or fails it precisely, and in every weakly fair endless run the core does take it, unless a power-on reset or a CTRL write empties the FIFO first. -/
def Obligations.CoreStepRetiresOrFails : Prop :=
  (∀ s : State, s.turns = [] →
    ((∃ t, step s = .next t) ↔ s.halted = false ∧ 0 < s.fifo.length) ∧
    ∀ t, step s = .next t → Retires (headSources s) s t ∨ ∃ e : ErrorName, Fails e.code s t) ∧
  (∀ (sched : Schedule) (run : Nat → State), IsRun sched run → WeaklyFair sched run →
    ∀ n, (run n).halted = false → 0 < (run n).fifo.length → ∃ m, n ≤ m ∧
      ((sched m = .core ∧ (run m).halted = false ∧ (run m).fifo.head? = (run n).fifo.head? ∧
          (Retires (headSources (run m)) (run m) (run (m + 1)) ∨
            ∃ e : ErrorName, Fails e.code (run m) (run (m + 1)))) ∨
        ((sched m = .powerOn ∨ ∃ v, sched m = .host (.write 64 ((run m).cfg.mmioBase + 0x10) v)) ∧
          (run (m + 1)).fifo = [])))

/-- The invariant holds after every step, of the core, of the host and of a power-on reset. -/
def Obligations.StepKeepsTheInvariant : Prop :=
  ∀ s t : State, s.Inv → step s = .next t → t.Inv

/-- The invariant holds after reset, and after a power-on reset of every configuration in range. -/
def Obligations.ResetMeetsTheInvariant : Prop :=
  State.reset.Inv ∧ ∀ cfg : Config, cfg.Valid → (State.powerOn cfg).Inv

/-- R76: what reset leaves, after power-on (the state, and a step that powers on again) and after a soft reset.
The model's choices in it: State.reset is the reference configuration (log 1), element contents are read as EMEM_INIT of the epoch (log 2), and a power-on in a run is a turn that keeps the turns after it (log 10). -/
def Obligations.ResetValues : Prop :=
  State.reset = State.powerOn Config.reference ∧
  (∀ cfg : Config, (State.powerOn cfg).cfg = cfg ∧ ClearedByReset (State.powerOn cfg) ∧
    ∀ a, ((State.powerOn cfg).elem a).value = Config.ememInit (State.powerOn cfg).epoch a) ∧
  (∀ (s : State) (rest : List Turn), s.turns = .powerOn :: rest → Answers (step s) fun t =>
    t.cfg = s.cfg ∧ t.turns = rest ∧ ClearedByReset t ∧ ∀ a, (t.elem a).value = Config.ememInit t.epoch a) ∧
  (∀ (s : State) (v : Word64) (rest : List Turn), s.HostMoves (.write 64 (s.cfg.mmioBase + 0x10) v) rest →
    v.getLsbD 0 = true → Answers (step s) fun t =>
      t.cfg = s.cfg ∧ t.turns = rest ∧ ClearedByReset t ∧ ∀ a, (t.elem a).value = (s.elem a).value)

/-! ## Control -/

/-- R310: NOP retires and changes nothing else, and a 1 in any of bits 55:0 makes the word illegal. -/
def Obligations.NopOnlyRetires : Prop :=
  decode 0x0100000000000000 = .command .nop ∧
  (∀ c : Word64, c >>> 56 = 0x01#64 → c ≠ 0x0100000000000000#64 → decode c = .illegal .mustBeZero) ∧
  ∀ s : State, Answers (exec .nop s) fun t =>
    SameRegs s t ∧ SameFlags s t ∧ SameField s t ∧ SameElems s t ∧ Retires 0b000#3 s t

/-- R311: SYNC retires, makes SYNC (bit 1) pending exactly when IRQ = 1, and changes nothing else, and a 1 in any of bits 55:1 makes the word illegal. -/
def Obligations.SyncRetiresAndPends : Prop :=
  decode 0x0200000000000000 = .command (.sync false) ∧ decode 0x0200000000000001 = .command (.sync true) ∧
  (∀ c : Word64, c >>> 56 = 0x02#64 → c ≠ 0x0200000000000000#64 → c ≠ 0x0200000000000001#64 →
    decode c = .illegal .mustBeZero) ∧
  ∀ (irq : Bool) (s : State), Answers (exec (.sync irq) s) fun t =>
    SameRegs s t ∧ SameFlags s t ∧ SameField s t ∧ SameElems s t ∧
    Retires (if irq = true then 0b010#3 else 0b000#3) s t

/-! ## Wide integer -/

/-- R171: ADD. -/
def Obligations.AddWritesSumAndCarry : Prop :=
  ∀ (rd rs1 rs2 : Reg) (w : Width) (W : Nat) (s : State), IsWidth w W →
    decode (formatR 0x10 rd rs1 rs2 w) = .command (.add rd rs1 rs2 w) ∧
    Answers (exec (.add rd rs1 rs2 w) s) (WritesRegAndFlags rd
      (BitVec.ofNat 256 ((truncReg s W rs1 + truncReg s W rs2) % 2 ^ W))
      (decide (truncReg s W rs1 + truncReg s W rs2 ≥ 2 ^ W))
      (decide ((truncReg s W rs1 + truncReg s W rs2) % 2 ^ W = 0)) s)

/-- R172: ADC. -/
def Obligations.AdcAddsTheCarryIn : Prop :=
  ∀ (rd rs1 rs2 : Reg) (w : Width) (W : Nat) (s : State), IsWidth w W →
    decode (formatR 0x11 rd rs1 rs2 w) = .command (.adc rd rs1 rs2 w) ∧
    Answers (exec (.adc rd rs1 rs2 w) s) (WritesRegAndFlags rd
      (BitVec.ofNat 256 ((truncReg s W rs1 + truncReg s W rs2 + s.flagC.toNat) % 2 ^ W))
      (decide (truncReg s W rs1 + truncReg s W rs2 + s.flagC.toNat ≥ 2 ^ W))
      (decide ((truncReg s W rs1 + truncReg s W rs2 + s.flagC.toNat) % 2 ^ W = 0)) s)

/-- R173: SUB.
The difference modulo 2^W is the integer remainder. -/
def Obligations.SubWritesDifferenceAndBorrow : Prop :=
  ∀ (rd rs1 rs2 : Reg) (w : Width) (W : Nat) (s : State), IsWidth w W →
    decode (formatR 0x12 rd rs1 rs2 w) = .command (.sub rd rs1 rs2 w) ∧
    Answers (exec (.sub rd rs1 rs2 w) s) (WritesRegAndFlags rd
      (BitVec.ofInt 256 (((truncReg s W rs1 : Int) - (truncReg s W rs2 : Int)) % (2 : Int) ^ W))
      (decide (truncReg s W rs1 < truncReg s W rs2))
      (decide (truncReg s W rs1 = truncReg s W rs2)) s)

/-- R174: SBB. -/
def Obligations.SbbSubtractsTheBorrowIn : Prop :=
  ∀ (rd rs1 rs2 : Reg) (w : Width) (W : Nat) (s : State), IsWidth w W →
    decode (formatR 0x13 rd rs1 rs2 w) = .command (.sbb rd rs1 rs2 w) ∧
    Answers (exec (.sbb rd rs1 rs2 w) s) (WritesRegAndFlags rd
      (BitVec.ofInt 256
        (((truncReg s W rs1 : Int) - (truncReg s W rs2 : Int) - (s.flagC.toNat : Int)) % (2 : Int) ^ W))
      (decide (truncReg s W rs1 < truncReg s W rs2 + s.flagC.toNat))
      (decide (((truncReg s W rs1 : Int) - (truncReg s W rs2 : Int) - (s.flagC.toNat : Int)) % (2 : Int) ^ W = 0)) s)

/-- R175: CMP writes the flags and no register. -/
def Obligations.CmpWritesOnlyFlags : Prop :=
  ∀ (rs1 rs2 : Reg) (w : Width) (W : Nat) (s : State), IsWidth w W →
    decode (formatR 0x14 0 rs1 rs2 w) = .command (.cmp rs1 rs2 w) ∧
    (∀ a : Reg, a ≠ 0 → decode (formatR 0x14 a rs1 rs2 w) = .illegal .mustBeZero) ∧
    Answers (exec (.cmp rs1 rs2 w) s) fun t =>
      t.flagC = decide (truncReg s W rs1 < truncReg s W rs2) ∧
      t.flagZ = decide (truncReg s W rs1 = truncReg s W rs2) ∧
      SameRegs s t ∧ SameField s t ∧ SameElems s t ∧ Retires 0b000#3 s t

/-- R176: AND, bit by bit. -/
def Obligations.AndWritesTheConjunction : Prop :=
  ∀ (rd rs1 rs2 : Reg) (w : Width) (W : Nat) (s : State), IsWidth w W →
    decode (formatR 0x15 rd rs1 rs2 w) = .command (.and rd rs1 rs2 w) ∧
    Answers (exec (.and rd rs1 rs2 w) s) fun t =>
      (∀ i : Nat, (t.reg rd).getLsbD i =
        (decide (i < W) && ((s.reg rs1).getLsbD i && (s.reg rs2).getLsbD i))) ∧
      WritesOnlyReg rd (t.reg rd) s t

/-- R177: SHR, with 0 for every shift by W or more. -/
def Obligations.ShrShiftsRight : Prop :=
  ∀ (rd rs1 : Reg) (shamt : Nat) (w : Width) (W : Nat) (s : State), IsWidth w W →
    (shamt < 512 → decode (formatS 0x16 rd rs1 shamt w) = .command (.shr rd rs1 shamt w)) ∧
    Answers (exec (.shr rd rs1 shamt w) s) (WritesOnlyReg rd
      (BitVec.ofNat 256 (if shamt < W then truncReg s W rs1 / 2 ^ shamt else 0)) s)

/-- R178: SHL, with 0 for every shift by W or more. -/
def Obligations.ShlShiftsLeft : Prop :=
  ∀ (rd rs1 : Reg) (shamt : Nat) (w : Width) (W : Nat) (s : State), IsWidth w W →
    (shamt < 512 → decode (formatS 0x17 rd rs1 shamt w) = .command (.shl rd rs1 shamt w)) ∧
    Answers (exec (.shl rd rs1 shamt w) s) (WritesOnlyReg rd
      (BitVec.ofNat 256 (if shamt < W then truncReg s W rs1 * 2 ^ shamt % 2 ^ W else 0)) s)

/-- R179: MUL, the low W bits of the exact product. -/
def Obligations.MulWritesTheLowProduct : Prop :=
  ∀ (rd rs1 rs2 : Reg) (w : Width) (W : Nat) (s : State), IsWidth w W →
    decode (formatR 0x18 rd rs1 rs2 w) = .command (.mul rd rs1 rs2 w) ∧
    Answers (exec (.mul rd rs1 rs2 w) s) (WritesOnlyReg rd
      (BitVec.ofNat 256 (truncReg s W rs1 * truncReg s W rs2 % 2 ^ W)) s)

/-- R180: MULB, by bit 0 of rs2. -/
def Obligations.MulbSelectsByBitZero : Prop :=
  ∀ (rd rs1 rs2 : Reg) (w : Width) (W : Nat) (s : State), IsWidth w W →
    decode (formatR 0x19 rd rs1 rs2 w) = .command (.mulb rd rs1 rs2 w) ∧
    Answers (exec (.mulb rd rs1 rs2 w) s) (WritesOnlyReg rd
      (BitVec.ofNat 256 (if (s.reg rs2).toNat % 2 = 1 then truncReg s W rs1 else 0)) s)

/-- R181: MOV. -/
def Obligations.MovCopiesAtItsWidth : Prop :=
  ∀ (rd rs1 : Reg) (w : Width) (W : Nat) (s : State), IsWidth w W →
    decode (formatR 0x1A rd rs1 0 w) = .command (.mov rd rs1 w) ∧
    (∀ c : Reg, c ≠ 0 → decode (formatR 0x1A rd rs1 c w) = .illegal .mustBeZero) ∧
    Answers (exec (.mov rd rs1 w) s) (WritesOnlyReg rd (BitVec.ofNat 256 (truncReg s W rs1)) s)

/-- R182: LI, zero-extended. -/
def Obligations.LiLoadsZeroExtended : Prop :=
  ∀ (rd : Reg) (imm32 : BitVec 32) (s : State),
    decode (formatL 0x1B rd imm32) = .command (.li rd imm32) ∧
    Answers (exec (.li rd imm32) s) (WritesOnlyReg rd (BitVec.ofNat 256 imm32.toNat) s)

/-- R183 (1), (2), (4): ADD then SUB of one register gives back the first operand, SHR then SHL by one amount clears the low bits, and MUL commutes. -/
def Obligations.WideIntegerLaws : Prop :=
  (∀ (rd re rs1 rs2 : Reg) (w : Width) (W : Nat) (s : State), IsWidth w W → rd ≠ rs2 →
    Answers (exec (.add rd rs1 rs2 w) s) fun t => Answers (exec (.sub re rd rs2 w) t) fun u =>
      (u.reg re).toNat = truncReg s W rs1) ∧
  (∀ (rd re rs1 : Reg) (shamt : Nat) (w : Width) (W : Nat) (s : State), IsWidth w W →
    Answers (exec (.shr rd rs1 shamt w) s) fun t => Answers (exec (.shl re rd shamt w) t) fun u =>
      ∀ i : Nat, (u.reg re).getLsbD i =
        (decide (shamt < W) && decide (shamt ≤ i) && decide (i < W) && (s.reg rs1).getLsbD i)) ∧
  (∀ (rd rs1 rs2 : Reg) (w : Width) (s : State), exec (.mul rd rs1 rs2 w) s = exec (.mul rd rs2 rs1 w) s)

/-- R33: no command but ADD, ADC, SUB, SBB and CMP writes C or Z. -/
def Obligations.OnlyArithmeticWritesFlags : Prop :=
  ∀ (i : Instr) (s t : State), writesFlags i = false → exec i s = .next t → SameFlags s t

/-! ## Montgomery field -/

/-- R11: REDC follows the formula for every value.
With N·NINV ≡ −1 the division is exact and REDC(T) ≡ T·R⁻¹ modulo N for every T < 2^512, and with T < N·R the result is canonical. -/
def Obligations.RedcDividesByTheRadix : Prop :=
  ∀ n ninv t : Nat,
    redc n ninv t =
      (let q := (t + (t % 2 ^ 256 * ninv % 2 ^ 256) * n) / 2 ^ 256
       (if q ≥ n then q - n else q) % 2 ^ 256) ∧
    (n < 2 ^ 256 → (n * ninv + 1) % 2 ^ 256 = 0 → t < 2 ^ 512 →
      (t + (t % 2 ^ 256 * ninv % 2 ^ 256) * n) % 2 ^ 256 = 0 ∧
      redc n ninv t * 2 ^ 256 % n = t % n ∧
      (t < n * 2 ^ 256 → redc n ninv t < n))

/-- R211: MontPow squares and multiplies over the exponent's 256 bits, most significant first, and with valid constants it is the power.
The first clause is R211's pseudocode for every value of the constants, which the model follows where R211's prose says otherwise (DESIGN CHOICE, log 18). -/
def Obligations.MontPowIsThePower : Prop :=
  ∀ n r2 ninv a e : Nat,
    montPow n r2 ninv a e =
      (List.range 256).foldl (fun acc i =>
        if e.testBit (255 - i) then redc n ninv (redc n ninv (acc * acc) * a) else redc n ninv (acc * acc))
        (redc n ninv r2) ∧
    (3 ≤ n → n < 2 ^ 256 → (n * ninv + 1) % 2 ^ 256 = 0 → r2 = 2 ^ 512 % n →
      montPow n r2 ninv a 0 = 2 ^ 256 % n ∧
      ∀ x : Nat, a = x * 2 ^ 256 % n → e < 2 ^ 256 → montPow n r2 ninv a e = x ^ e * 2 ^ 256 % n)

/-- R212: FCFG. -/
def Obligations.FcfgChecksAndLocks : Prop :=
  ∀ (rn rr2 rni : Reg) (s : State),
    decode (formatF 0x20 rni rn rr2) = .command (.fcfg rn rr2 rni) ∧
    (s.fieldReady = true → Answers (exec (.fcfg rn rr2 rni) s) (Fails 0x0A#8 s)) ∧
    (s.fieldReady = false →
      ¬ ((s.reg rn).toNat % 2 = 1 ∧ 3 ≤ (s.reg rn).toNat ∧ (s.reg rr2).toNat < (s.reg rn).toNat ∧
        ((s.reg rn).toNat * (s.reg rni).toNat + 1) % 2 ^ 256 = 0) →
      Answers (exec (.fcfg rn rr2 rni) s) (Fails 0x09#8 s)) ∧
    (s.fieldReady = false →
      (s.reg rn).toNat % 2 = 1 → 3 ≤ (s.reg rn).toNat → (s.reg rr2).toNat < (s.reg rn).toNat →
      ((s.reg rn).toNat * (s.reg rni).toNat + 1) % 2 ^ 256 = 0 →
      Answers (exec (.fcfg rn rr2 rni) s) fun t =>
        t.fieldN = s.reg rn ∧ t.fieldR2 = s.reg rr2 ∧ t.fieldNinv = s.reg rni ∧ t.fieldReady = true ∧
        SameRegs s t ∧ SameFlags s t ∧ SameElems s t ∧ Retires 0b000#3 s t)

/-- R213: FADD. -/
def Obligations.FaddAddsModuloN : Prop :=
  ∀ (rd rs1 rs2 : Reg) (s : State),
    decode (formatF 0x21 rd rs1 rs2) = .command (.fadd rd rs1 rs2) ∧
    (s.fieldReady = false → Answers (exec (.fadd rd rs1 rs2) s) (Fails 0x08#8 s)) ∧
    (s.fieldReady = true →
      ((s.reg rs1).toNat ≥ s.fieldN.toNat ∨ (s.reg rs2).toNat ≥ s.fieldN.toNat) →
      Answers (exec (.fadd rd rs1 rs2) s) (Fails 0x01#8 s)) ∧
    (s.fieldReady = true → (s.reg rs1).toNat < s.fieldN.toNat → (s.reg rs2).toNat < s.fieldN.toNat →
      Answers (exec (.fadd rd rs1 rs2) s) (WritesOnlyReg rd
        (BitVec.ofNat 256 (((s.reg rs1).toNat + (s.reg rs2).toNat) % s.fieldN.toNat)) s))

/-- R214: FSUB. -/
def Obligations.FsubSubtractsModuloN : Prop :=
  ∀ (rd rs1 rs2 : Reg) (s : State),
    decode (formatF 0x22 rd rs1 rs2) = .command (.fsub rd rs1 rs2) ∧
    (s.fieldReady = false → Answers (exec (.fsub rd rs1 rs2) s) (Fails 0x08#8 s)) ∧
    (s.fieldReady = true →
      ((s.reg rs1).toNat ≥ s.fieldN.toNat ∨ (s.reg rs2).toNat ≥ s.fieldN.toNat) →
      Answers (exec (.fsub rd rs1 rs2) s) (Fails 0x01#8 s)) ∧
    (s.fieldReady = true → (s.reg rs1).toNat < s.fieldN.toNat → (s.reg rs2).toNat < s.fieldN.toNat →
      Answers (exec (.fsub rd rs1 rs2) s) (WritesOnlyReg rd
        (BitVec.ofInt 256 (((s.reg rs1).toNat : Int) - ((s.reg rs2).toNat : Int) +
          (if (s.reg rs1).toNat ≥ (s.reg rs2).toNat then 0 else (s.fieldN.toNat : Int)))) s))

/-- R215: FMUL, REDC of the exact product. -/
def Obligations.FmulIsMontgomeryProduct : Prop :=
  ∀ (rd rs1 rs2 : Reg) (s : State),
    decode (formatF 0x23 rd rs1 rs2) = .command (.fmul rd rs1 rs2) ∧
    (s.fieldReady = false → Answers (exec (.fmul rd rs1 rs2) s) (Fails 0x08#8 s)) ∧
    (s.fieldReady = true →
      ((s.reg rs1).toNat ≥ s.fieldN.toNat ∨ (s.reg rs2).toNat ≥ s.fieldN.toNat) →
      Answers (exec (.fmul rd rs1 rs2) s) (Fails 0x01#8 s)) ∧
    (s.fieldReady = true → (s.reg rs1).toNat < s.fieldN.toNat → (s.reg rs2).toNat < s.fieldN.toNat →
      Answers (exec (.fmul rd rs1 rs2) s) (WritesOnlyReg rd
        (BitVec.ofNat 256 (redc s.fieldN.toNat s.fieldNinv.toNat ((s.reg rs1).toNat * (s.reg rs2).toNat))) s))

/-- R216: FSQR. -/
def Obligations.FsqrIsMontgomerySquare : Prop :=
  ∀ (rd rs1 : Reg) (s : State),
    decode (formatF 0x24 rd rs1 0) = .command (.fsqr rd rs1) ∧
    (∀ c : Reg, c ≠ 0 → decode (formatF 0x24 rd rs1 c) = .illegal .mustBeZero) ∧
    (s.fieldReady = false → Answers (exec (.fsqr rd rs1) s) (Fails 0x08#8 s)) ∧
    (s.fieldReady = true → (s.reg rs1).toNat ≥ s.fieldN.toNat →
      Answers (exec (.fsqr rd rs1) s) (Fails 0x01#8 s)) ∧
    (s.fieldReady = true → (s.reg rs1).toNat < s.fieldN.toNat →
      Answers (exec (.fsqr rd rs1) s) (WritesOnlyReg rd
        (BitVec.ofNat 256 (redc s.fieldN.toNat s.fieldNinv.toNat ((s.reg rs1).toNat * (s.reg rs1).toNat))) s))

/-- R217: FINV, and the zero element has no inverse.
MontPow is R211's pseudocode for every value of the constants (DESIGN CHOICE, log 18). -/
def Obligations.FinvIsTheFermatPower : Prop :=
  ∀ (rd rs1 : Reg) (s : State),
    decode (formatF 0x25 rd rs1 0) = .command (.finv rd rs1) ∧
    (∀ c : Reg, c ≠ 0 → decode (formatF 0x25 rd rs1 c) = .illegal .mustBeZero) ∧
    (s.fieldReady = false → Answers (exec (.finv rd rs1) s) (Fails 0x08#8 s)) ∧
    (s.fieldReady = true → (s.reg rs1).toNat ≥ s.fieldN.toNat →
      Answers (exec (.finv rd rs1) s) (Fails 0x01#8 s)) ∧
    (s.fieldReady = true → (s.reg rs1).toNat < s.fieldN.toNat → (s.reg rs1).toNat = 0 →
      Answers (exec (.finv rd rs1) s) (Fails 0x02#8 s)) ∧
    (s.fieldReady = true → (s.reg rs1).toNat < s.fieldN.toNat → (s.reg rs1).toNat ≠ 0 →
      Answers (exec (.finv rd rs1) s) (WritesOnlyReg rd
        (BitVec.ofNat 256 (montPow s.fieldN.toNat s.fieldR2.toNat s.fieldNinv.toNat
          (s.reg rs1).toNat (s.fieldN.toNat - 2))) s))

/-- R218: FPOW, the exponent a plain integer that is not checked.
MontPow is R211's pseudocode for every value of the constants (DESIGN CHOICE, log 18). -/
def Obligations.FpowIsThePower : Prop :=
  ∀ (rd rs1 rs2 : Reg) (s : State),
    decode (formatF 0x26 rd rs1 rs2) = .command (.fpow rd rs1 rs2) ∧
    (s.fieldReady = false → Answers (exec (.fpow rd rs1 rs2) s) (Fails 0x08#8 s)) ∧
    (s.fieldReady = true → (s.reg rs1).toNat ≥ s.fieldN.toNat →
      Answers (exec (.fpow rd rs1 rs2) s) (Fails 0x01#8 s)) ∧
    (s.fieldReady = true → (s.reg rs1).toNat < s.fieldN.toNat →
      Answers (exec (.fpow rd rs1 rs2) s) (WritesOnlyReg rd
        (BitVec.ofNat 256 (montPow s.fieldN.toNat s.fieldR2.toNat s.fieldNinv.toNat
          (s.reg rs1).toNat (s.reg rs2).toNat)) s))

/-- R219: FTOM. -/
def Obligations.FtomEntersMontgomeryForm : Prop :=
  ∀ (rd rs1 : Reg) (s : State),
    decode (formatF 0x27 rd rs1 0) = .command (.ftom rd rs1) ∧
    (∀ c : Reg, c ≠ 0 → decode (formatF 0x27 rd rs1 c) = .illegal .mustBeZero) ∧
    (s.fieldReady = false → Answers (exec (.ftom rd rs1) s) (Fails 0x08#8 s)) ∧
    (s.fieldReady = true → (s.reg rs1).toNat ≥ s.fieldN.toNat →
      Answers (exec (.ftom rd rs1) s) (Fails 0x01#8 s)) ∧
    (s.fieldReady = true → (s.reg rs1).toNat < s.fieldN.toNat →
      Answers (exec (.ftom rd rs1) s) (WritesOnlyReg rd
        (BitVec.ofNat 256 (redc s.fieldN.toNat s.fieldNinv.toNat ((s.reg rs1).toNat * s.fieldR2.toNat))) s))

/-- R220: FFROMM. -/
def Obligations.FfrommLeavesMontgomeryForm : Prop :=
  ∀ (rd rs1 : Reg) (s : State),
    decode (formatF 0x28 rd rs1 0) = .command (.ffromm rd rs1) ∧
    (∀ c : Reg, c ≠ 0 → decode (formatF 0x28 rd rs1 c) = .illegal .mustBeZero) ∧
    (s.fieldReady = false → Answers (exec (.ffromm rd rs1) s) (Fails 0x08#8 s)) ∧
    (s.fieldReady = true → (s.reg rs1).toNat ≥ s.fieldN.toNat →
      Answers (exec (.ffromm rd rs1) s) (Fails 0x01#8 s)) ∧
    (s.fieldReady = true → (s.reg rs1).toNat < s.fieldN.toNat →
      Answers (exec (.ffromm rd rs1) s) (WritesOnlyReg rd
        (BitVec.ofNat 256 (redc s.fieldN.toNat s.fieldNinv.toNat (s.reg rs1).toNat)) s))

/-- R221: every result of a field command that retires is canonical, once FCFG has checked the constants. -/
def Obligations.FieldResultsAreCanonical : Prop :=
  ∀ (i : Instr) (rd : Reg) (s t : State), fieldResult i = some rd → s.FieldConfigured → s.halted = false →
    exec i s = .next t → t.halted = false → (t.reg rd).toNat < t.fieldN.toNat

/-- R221, the Montgomery homomorphism: into Montgomery form, one operation, and back out, is the operation on plain integers modulo N.
The first FTOM must leave the second operand and its own result in place: ry ≠ ra and rb ≠ ra. -/
def Obligations.MontgomeryHomomorphism : Prop :=
  ∀ (ra rb rp rq rx ry : Reg) (s : State), s.FieldValid → rb ≠ ra → ry ≠ ra →
    (s.reg rx).toNat < s.fieldN.toNat → (s.reg ry).toNat < s.fieldN.toNat →
    Answers (exec (.ftom ra rx) s) fun s1 => Answers (exec (.ftom rb ry) s1) fun s2 =>
      (Answers (exec (.fmul rp ra rb) s2) fun s3 => Answers (exec (.ffromm rq rp) s3) fun s4 =>
        (s4.reg rq).toNat = (s.reg rx).toNat * (s.reg ry).toNat % s.fieldN.toNat) ∧
      (Answers (exec (.fadd rp ra rb) s2) fun s3 => Answers (exec (.ffromm rq rp) s3) fun s4 =>
        (s4.reg rq).toNat = ((s.reg rx).toNat + (s.reg ry).toNat) % s.fieldN.toNat) ∧
      (Answers (exec (.fsub rp ra rb) s2) fun s3 => Answers (exec (.ffromm rq rp) s3) fun s4 =>
        ((s4.reg rq).toNat : Int) = (((s.reg rx).toNat : Int) - ((s.reg ry).toNat : Int)) % (s.fieldN.toNat : Int))

/-- R221: for a prime N, a nonzero element times its FINV is ONE, the Montgomery form of 1.
FINV must leave its operand in place for the product: rd ≠ rs1. -/
def Obligations.InverseTimesElementIsOne : Prop :=
  ∀ (rd rp rs1 : Reg) (s : State), s.FieldValid → Nat.Prime s.fieldN.toNat → rd ≠ rs1 →
    (s.reg rs1).toNat < s.fieldN.toNat → (s.reg rs1).toNat ≠ 0 →
    Answers (exec (.finv rd rs1) s) fun t => Answers (exec (.fmul rp rd rs1) t) fun u =>
      (u.reg rp).toNat = 2 ^ 256 % s.fieldN.toNat

/-- R37, R38: N, R2, NINV and FIELD_READY change only by a power-on reset, a soft reset, or an FCFG at the FIFO head that sets FIELD_READY. -/
def Obligations.FieldConstantsChangeOnlyByReset : Prop :=
  ∀ s t : State, step s = .next t →
    (s.fieldReady = true ∨ t.fieldReady = false →
      SameField s t ∨
      (t.fieldReady = false ∧
        (s.turns.head? = some .powerOn ∨
         ∃ v : Word64, s.turns.head? = some (.host (.write 64 (s.cfg.mmioBase + 0x10) v)) ∧ v.getLsbD 0 = true))) ∧
    (s.fieldReady = false → t.fieldReady = true →
      ∃ (c : Word64) (rn rr2 rni : Reg), s.fifo.head? = some c ∧ decode c = .command (.fcfg rn rr2 rni))

/-! ## Elements -/

/-- R250: LD. -/
def Obligations.LdCopiesTheElement : Prop :=
  ∀ (rd : Reg) (p : Nat) (s : State),
    (p < 2 ^ 18 → decode (formatM 0x30 rd p) = .command (.ld rd p)) ∧
    (p ≥ 2 ^ s.cfg.ememLog → Answers (exec (.ld rd p) s) (Fails 0x06#8 s)) ∧
    (p < 2 ^ s.cfg.ememLog → Answers (exec (.ld rd p) s) (WritesOnlyReg rd (s.elem p).value s))

/-- R251: ST. -/
def Obligations.StStoresTheRegister : Prop :=
  ∀ (rs : Reg) (p : Nat) (s : State),
    (p < 2 ^ 18 → decode (formatM 0x31 rs p) = .command (.st rs p)) ∧
    (p ≥ 2 ^ s.cfg.ememLog → Answers (exec (.st rs p) s) (Fails 0x06#8 s)) ∧
    (p < 2 ^ s.cfg.ememLog → Answers (exec (.st rs p) s) fun t =>
      (t.elem p).value = s.reg rs ∧ (t.elem p).tag = .data ∧
      (∀ a, a ≠ p → t.elem a = s.elem a) ∧ WritesOnlyElems s t)

/-! ## Transforms -/

/-- R9: bit j of bitrev_k(i) is bit k−1−j of i, and nothing lies above. -/
def Obligations.BitrevReversesTheBits : Prop :=
  ∀ k i j : Nat, (bitrev k i).testBit j = (decide (j < k) && i.testBit (k - 1 - j))

/-- R260: TWGEN.
MontPow is R211's pseudocode for every value of the constants (DESIGN CHOICE, log 18). -/
def Obligations.TwgenWritesTheTable : Prop :=
  ∀ (ord : TwOrder) (rs1 : Reg) (ks dst : Nat) (s : State),
    (ks < 32 → dst < 2 ^ 18 → decode (formatT 0x40 rs1 ord ks dst) = .command (.twgen ord rs1 ks dst)) ∧
    (s.fieldReady = false → Answers (exec (.twgen ord rs1 ks dst) s) (Fails 0x08#8 s)) ∧
    (s.fieldReady = true → ks = 0 → Answers (exec (.twgen ord rs1 ks dst) s) (Fails 0x03#8 s)) ∧
    (s.fieldReady = true → ks ≠ 0 → dst + 2 ^ (ks - 1) > 2 ^ s.cfg.ememLog →
      Answers (exec (.twgen ord rs1 ks dst) s) (Fails 0x06#8 s)) ∧
    (s.fieldReady = true → ks ≠ 0 → dst + 2 ^ (ks - 1) ≤ 2 ^ s.cfg.ememLog →
      (s.reg rs1).toNat ≥ s.fieldN.toNat → Answers (exec (.twgen ord rs1 ks dst) s) (Fails 0x01#8 s)) ∧
    (s.fieldReady = true → ks ≠ 0 → dst + 2 ^ (ks - 1) ≤ 2 ^ s.cfg.ememLog →
      (s.reg rs1).toNat < s.fieldN.toNat → Answers (exec (.twgen ord rs1 ks dst) s) fun t =>
        (∀ i < 2 ^ (ks - 1),
          (t.elem (dst + i)).value = BitVec.ofNat 256 (montPow s.fieldN.toNat s.fieldR2.toNat s.fieldNinv.toNat
            (s.reg rs1).toNat (if ord = .nat then i else bitrev (ks - 1) i)) ∧
          (t.elem (dst + i)).tag = .tw ord ks) ∧
        SameElemsOutside dst (2 ^ (ks - 1)) s t ∧ WritesOnlyElems s t)

/-- R280: BITREV. -/
def Obligations.BitrevPermutesTheRegion : Prop :=
  ∀ (k dst src : Nat) (s : State),
    (k < 32 → dst < 2 ^ 18 → src < 2 ^ 18 → decode (formatV 0x41 k dst src) = .command (.bitrev k dst src)) ∧
    (src + 2 ^ k > 2 ^ s.cfg.ememLog ∨ dst + 2 ^ k > 2 ^ s.cfg.ememLog →
      Answers (exec (.bitrev k dst src) s) (Fails 0x06#8 s)) ∧
    (src + 2 ^ k ≤ 2 ^ s.cfg.ememLog → dst + 2 ^ k ≤ 2 ^ s.cfg.ememLog →
      src < dst + 2 ^ k → dst < src + 2 ^ k → src ≠ dst →
      Answers (exec (.bitrev k dst src) s) (Fails 0x07#8 s)) ∧
    (src + 2 ^ k ≤ 2 ^ s.cfg.ememLog → dst + 2 ^ k ≤ 2 ^ s.cfg.ememLog →
      (src = dst ∨ dst + 2 ^ k ≤ src ∨ src + 2 ^ k ≤ dst) →
      Answers (exec (.bitrev k dst src) s) fun t =>
        (∀ i < 2 ^ k, (t.elem (dst + bitrev k i)).value = (s.elem (src + i)).value) ∧
        (∀ i < 2 ^ k, (t.elem (dst + i)).tag = .data) ∧
        SameElemsOutside dst (2 ^ k) s t ∧ WritesOnlyElems s t)

/-- R281: an index reversed twice is itself, and two bit reversals restore every value, in place, and from one region to another and back. -/
def Obligations.BitrevTwiceRestores : Prop :=
  (∀ k i : Nat, i < 2 ^ k → bitrev k (bitrev k i) = i) ∧
  ∀ (k a b : Nat) (s : State),
    a + 2 ^ k ≤ 2 ^ s.cfg.ememLog → b + 2 ^ k ≤ 2 ^ s.cfg.ememLog → (a = b ∨ a + 2 ^ k ≤ b ∨ b + 2 ^ k ≤ a) →
    Answers (exec (.bitrev k b a) s) fun t => Answers (exec (.bitrev k a b) t) fun u =>
      ∀ i < 2 ^ k, (u.elem (a + i)).value = (s.elem (a + i)).value ∧ (u.elem (a + i)).tag = .data

/-- R290, R291: the pairs of a stage cover the buffer, every element in exactly one pair, and every twiddle offset lies in the table. -/
def Obligations.StagePairsPartitionTheBuffer : Prop :=
  ∀ k gl buf : Nat, 1 ≤ gl → gl ≤ k →
    (∀ x : Nat × Nat, x ∈ stagePairs k gl ↔ x.1 < 2 ^ k / 2 ^ gl ∧ x.2 < 2 ^ gl / 2) ∧
    (∀ e < 2 ^ k, ∃ x : Nat × Nat,
      (x ∈ stagePairs k gl ∧ (buf + e = pairTop buf gl x.1 x.2 ∨ buf + e = pairBottom buf gl x.1 x.2)) ∧
      ∀ y : Nat × Nat, y ∈ stagePairs k gl →
        (buf + e = pairTop buf gl y.1 y.2 ∨ buf + e = pairBottom buf gl y.1 y.2) → y = x) ∧
    (∀ x : Nat × Nat, x ∈ stagePairs k gl →
      pairTop buf gl x.1 x.2 = buf + x.1 * 2 ^ gl + x.2 ∧
      pairBottom buf gl x.1 x.2 = pairTop buf gl x.1 x.2 + 2 ^ gl / 2 ∧
      pairBottom buf gl x.1 x.2 < buf + 2 ^ k ∧
      twIdx .nr k gl x.1 x.2 = x.1 ∧ twIdx .rn k gl x.1 x.2 = x.2 * (2 ^ k / 2 ^ gl) ∧
      twIdx .nr k gl x.1 x.2 < 2 ^ k / 2 ∧ twIdx .rn k gl x.1 x.2 < 2 ^ k / 2)

/-- R292: a BFLY stage that passes its checks writes both elements of every pair, of values read before the command, and nothing else. -/
def Obligations.BflyRunsTheStage : Prop :=
  ∀ (mode : Mode) (gl k tw buf : Nat) (s : State),
    (gl < 32 → k < 32 → tw < 2 ^ 18 → buf < 2 ^ 18 →
      decode (formatB 0x42 mode gl k tw buf) = .command (.bfly mode gl k tw buf)) ∧
    (StageReady mode gl k tw buf s → Answers (exec (.bfly mode gl k tw buf) s) fun t =>
      (∀ j < 2 ^ k / 2 ^ gl, ∀ i < 2 ^ gl / 2, ∀ a b w r : Nat,
        a = (s.elem (pairTop buf gl j i)).value.toNat → b = (s.elem (pairBottom buf gl j i)).value.toNat →
        w = (s.elem (tw + twIdx mode k gl j i)).value.toNat →
        r = redc s.fieldN.toNat s.fieldNinv.toNat (w * b) →
        (t.elem (pairTop buf gl j i)).value =
          BitVec.ofNat 256 (if a + r ≥ s.fieldN.toNat then a + r - s.fieldN.toNat else a + r) ∧
        (t.elem (pairBottom buf gl j i)).value =
          BitVec.ofNat 256 (if a ≥ r then a - r else a + s.fieldN.toNat - r)) ∧
      (∀ e < 2 ^ k, (t.elem (buf + e)).tag = .data) ∧
      SameElemsOutside buf (2 ^ k) s t ∧ WritesOnlyElems s t)

/-- R292, R324: the errors of BFLY, the first in order; `want` is the order of table the mode needs, REV for NR and NAT for RN. -/
def Obligations.BflyReportsTheFirstError : Prop :=
  ∀ (mode : Mode) (want : TwOrder) (gl k tw buf : Nat) (s : State),
    ((mode = .nr ∧ want = .rev) ∨ (mode = .rn ∧ want = .nat)) →
    (s.fieldReady = false → Answers (exec (.bfly mode gl k tw buf) s) (Fails 0x08#8 s)) ∧
    (s.fieldReady = true →
      ((k = 0 ∨ gl = 0 ∨ gl > k) → Answers (exec (.bfly mode gl k tw buf) s) (Fails 0x03#8 s)) ∧
      (1 ≤ gl → gl ≤ k →
        ((buf + 2 ^ k > 2 ^ s.cfg.ememLog ∨ tw + 2 ^ k / 2 > 2 ^ s.cfg.ememLog) →
          Answers (exec (.bfly mode gl k tw buf) s) (Fails 0x06#8 s)) ∧
        (buf + 2 ^ k ≤ 2 ^ s.cfg.ememLog → tw + 2 ^ k / 2 ≤ 2 ^ s.cfg.ememLog →
          (buf < tw + 2 ^ k / 2 ∧ tw < buf + 2 ^ k → Answers (exec (.bfly mode gl k tw buf) s) (Fails 0x07#8 s)) ∧
          (buf + 2 ^ k ≤ tw ∨ tw + 2 ^ k / 2 ≤ buf →
            ((∃ j < 2 ^ k / 2 ^ gl, ∃ i < 2 ^ gl / 2, ∀ ks, (s.elem (tw + twIdx mode k gl j i)).tag ≠ .tw want ks) →
              Answers (exec (.bfly mode gl k tw buf) s) (Fails 0x04#8 s)) ∧
            ((∀ j < 2 ^ k / 2 ^ gl, ∀ i < 2 ^ gl / 2, ∃ ks, (s.elem (tw + twIdx mode k gl j i)).tag = .tw want ks) →
              ((∃ j < 2 ^ k / 2 ^ gl, ∃ i < 2 ^ gl / 2, (s.elem (tw + twIdx mode k gl j i)).tag ≠ .tw want k) →
                Answers (exec (.bfly mode gl k tw buf) s) (Fails 0x03#8 s)) ∧
              ((∀ j < 2 ^ k / 2 ^ gl, ∀ i < 2 ^ gl / 2, (s.elem (tw + twIdx mode k gl j i)).tag = .tw want k) →
                ((∃ e < 2 ^ k, (s.elem (buf + e)).value.toNat ≥ s.fieldN.toNat) ∨
                 ∃ j < 2 ^ k / 2 ^ gl, ∃ i < 2 ^ gl / 2, (s.elem (tw + twIdx mode k gl j i)).value.toNat ≥ s.fieldN.toNat) →
                Answers (exec (.bfly mode gl k tw buf) s) (Fails 0x01#8 s)))))))

/-- R292 in the field: with valid constants a pair holding mont(x), mont(y) and twiddle mont(u) becomes mont(x + u·y), mont(x − u·y). -/
def Obligations.BflyIsTheFieldButterfly : Prop :=
  ∀ (mode : Mode) (gl k tw buf : Nat) (s : State), s.FieldValid → StageReady mode gl k tw buf s →
    Answers (exec (.bfly mode gl k tw buf) s) fun t =>
      ∀ j < 2 ^ k / 2 ^ gl, ∀ i < 2 ^ gl / 2, ∀ x y u : Nat,
        (s.elem (pairTop buf gl j i)).value.toNat = s.mont x →
        (s.elem (pairBottom buf gl j i)).value.toNat = s.mont y →
        (s.elem (tw + twIdx mode k gl j i)).value.toNat = s.mont u →
        (t.elem (pairTop buf gl j i)).value.toNat = s.mont (x + u * y) ∧
        ((t.elem (pairBottom buf gl j i)).value.toNat : Int) =
          ((x : Int) - (u : Int) * (y : Int)) * (2 : Int) ^ 256 % (s.fieldN.toNat : Int)

/-- R293: a bit-reversed table and k NR stages, group size S first, transform mont(x) into its evaluations in bit-reversed order.
r has order S = 2^k modulo N: r^(S/2) is −1, which for a prime N says the same. -/
def Obligations.ForwardNrTransform : Prop :=
  ∀ (k tw buf r : Nat) (wr : Reg) (x : Nat → Nat) (s : State), s.FieldValid → 1 ≤ k →
    buf + 2 ^ k ≤ 2 ^ s.cfg.ememLog → tw + 2 ^ k / 2 ≤ 2 ^ s.cfg.ememLog →
    (buf + 2 ^ k ≤ tw ∨ tw + 2 ^ k / 2 ≤ buf) →
    (s.reg wr).toNat = s.mont r → r ^ (2 ^ k / 2) % s.fieldN.toNat = s.fieldN.toNat - 1 →
    (∀ j < 2 ^ k, (s.elem (buf + j)).value.toNat = s.mont (x j)) →
    Answers (execAll (.twgen .rev wr k tw :: nrStages k tw buf) s) fun t =>
      (∀ m < 2 ^ k, (t.elem (buf + bitrev k m)).value.toNat =
        s.mont ((List.range (2 ^ k)).map fun j => x j * r ^ (j * m)).sum) ∧
      t.halted = s.halted ∧ SameRegs s t ∧ SameFlags s t ∧ SameField s t

/-! ## The host -/

/-- R71: a CMD write is queued at the tail, undecoded, or dropped when the core is halted or the FIFO is full, and CMD reads 0. -/
def Obligations.CmdWriteQueuesOrDrops : Prop :=
  (∀ (s : State) (c : Word64) (rest : List Turn), s.HostMoves (.write 64 (s.cfg.mmioBase + 0x48) c) rest →
    ((s.halted = true ∨ s.fifo.length = s.cfg.qdepth) → step s = .next { s with turns := rest, cmdDropped := true }) ∧
    (s.halted = false → s.fifo.length ≠ s.cfg.qdepth → step s = .next { s with turns := rest, fifo := s.fifo ++ [c] })) ∧
  ∀ (s : State) (rest : List Turn), s.HostMoves (.read 64 (s.cfg.mmioBase + 0x48)) rest →
    step s = .next { s with turns := rest, reads := 0#64 :: s.reads }

/-- R64: a CTRL write with bit 0 is a soft reset, else with bit 1 it clears the error record and flushes the FIFO, else it does nothing, and CTRL reads 0. -/
def Obligations.CtrlWriteResetsOrClears : Prop :=
  (∀ (s : State) (v : Word64) (rest : List Turn), s.HostMoves (.write 64 (s.cfg.mmioBase + 0x10) v) rest →
    (v.getLsbD 0 = true → step s = .next { s.softReset with turns := rest }) ∧
    (v.getLsbD 0 = false → v.getLsbD 1 = true →
      step s = .next { s with
        turns := rest, halted := false, errCode := 0#8, errCmd := 0#64, errSeq := 0#64, cmdDropped := false, fifo := [] }) ∧
    (v.getLsbD 0 = false → v.getLsbD 1 = false → step s = .next { s with turns := rest })) ∧
  ∀ (s : State) (rest : List Turn), s.HostMoves (.read 64 (s.cfg.mmioBase + 0x10)) rest →
    step s = .next { s with turns := rest, reads := 0#64 :: s.reads }

/-- R69, R70, R328: IRQ_EN stores its three bits, a write of IRQ_PEND clears the bits written as 1, no host access sets a pending bit, and IRQ, which STATUS bit 6 shows, is the OR of pending and enabled.
The output is a computed level that reaches no processor in the model (DEDUCED, log 11). -/
def Obligations.InterruptRegisters : Prop :=
  (∀ (s : State) (v : Word64) (rest : List Turn), s.HostMoves (.write 64 (s.cfg.mmioBase + 0x38) v) rest →
    step s = .next { s with turns := rest, irqEn := v.extractLsb' 0 3 }) ∧
  (∀ (s : State) (v : Word64) (rest : List Turn), s.HostMoves (.write 64 (s.cfg.mmioBase + 0x40) v) rest →
    Answers (step s) fun t =>
      t = { s with turns := rest, irqPend := t.irqPend } ∧
      ∀ b < 3, t.irqPend.getLsbD b = (s.irqPend.getLsbD b && !v.getLsbD b)) ∧
  (∀ (s : State) (rest : List Turn), s.HostMoves (.read 64 (s.cfg.mmioBase + 0x38)) rest →
    step s = .next { s with turns := rest, reads := BitVec.ofNat 64 s.irqEn.toNat :: s.reads }) ∧
  (∀ (s : State) (rest : List Turn), s.HostMoves (.read 64 (s.cfg.mmioBase + 0x40)) rest →
    step s = .next { s with turns := rest, reads := BitVec.ofNat 64 s.irqPend.toNat :: s.reads }) ∧
  (∀ (s t : State) (a : HostAccess) (rest : List Turn), s.HostMoves a rest → step s = .next t →
    ∀ b < 3, t.irqPend.getLsbD b = true → s.irqPend.getLsbD b = true) ∧
  (∀ (s : State) (rest : List Turn), s.HostMoves (.read 64 (s.cfg.mmioBase + 0x18)) rest →
    ∃ w : Word64, step s = .next { s with turns := rest, reads := w :: s.reads } ∧ w.getLsbD 6 = s.irq) ∧
  (∀ s : State, s.irq = true ↔ ∃ b < 3, s.irqPend.getLsbD b = true ∧ s.irqEn.getLsbD b = true)

/-- R90: a read of any MMIO offset has no side effect, and CTRL, CMD and unmapped offsets read 0 (R60, R64, R71, R88).
The list the read's value is put in is the model's own (DESIGN CHOICE, log 8). -/
def Obligations.ReadsHaveNoSideEffects : Prop :=
  ∀ (s : State) (off : Nat) (rest : List Turn), off < 0x1000000 → off % 8 = 0 →
    s.HostMoves (.read 64 (s.cfg.mmioBase + off)) rest →
    (∃ v, step s = .next { s with turns := rest, reads := v :: s.reads }) ∧
    ((off = 0x10 ∨ off = 0x48 ∨ (0x58 ≤ off ∧ off < 0x100) ∨ (0x160 ≤ off ∧ off < 0x200) ∨
        (0x400 ≤ off ∧ off < 0x800000) ∨ 0x800000 + 32 * 2 ^ s.cfg.ememLog ≤ off) →
      step s = .next { s with turns := rest, reads := 0#64 :: s.reads })

/-- R61, R88: writes to read-only registers, to the field-constant window and to unmapped offsets are ignored. -/
def Obligations.ReadOnlyWritesAreIgnored : Prop :=
  ∀ (s : State) (off : Nat) (v : Word64) (rest : List Turn), off < 0x1000000 → off % 8 = 0 →
    (off = 0x00 ∨ off = 0x08 ∨ off = 0x18 ∨ off = 0x20 ∨ off = 0x28 ∨ off = 0x30 ∨
      (0x50 ≤ off ∧ off < 0x200) ∨ (0x400 ≤ off ∧ off < 0x800000) ∨ 0x800000 + 32 * 2 ^ s.cfg.ememLog ≤ off) →
    s.HostMoves (.write 64 (s.cfg.mmioBase + off) v) rest → step s = .next { s with turns := rest }

/-- R85: an access inside the block that is not 64 bits wide or not aligned to 8 is refused. -/
def Obligations.UnsupportedAccessesAreRefused : Prop :=
  ∀ (s : State) (width off : Nat) (v : Word64) (rest : List Turn), off < 0x1000000 → (width ≠ 64 ∨ off % 8 ≠ 0) →
    (s.HostMoves (.read width (s.cfg.mmioBase + off)) rest → step s = .refused .unsupportedAccess) ∧
    (s.HostMoves (.write width (s.cfg.mmioBase + off) v) rest → step s = .refused .unsupportedAccess)

/-- R73, R74, R75, R87: the windows show and change one 64-bit word of a field constant, register or element, least significant word first.
Writes of the field-constant window are ignored, and offsets past the last element read 0 and ignore writes. -/
def Obligations.WindowsTransferOneWord : Prop :=
  (∀ (s : State) (q : Fin 4) (rest : List Turn),
    (s.HostMoves (.read 64 (s.cfg.mmioBase + 0x100 + 8 * q.val)) rest →
      step s = .next { s with turns := rest, reads := s.fieldN.extractLsb' (64 * q.val) 64 :: s.reads }) ∧
    (s.HostMoves (.read 64 (s.cfg.mmioBase + 0x120 + 8 * q.val)) rest →
      step s = .next { s with turns := rest, reads := s.fieldR2.extractLsb' (64 * q.val) 64 :: s.reads }) ∧
    (s.HostMoves (.read 64 (s.cfg.mmioBase + 0x140 + 8 * q.val)) rest →
      step s = .next { s with turns := rest, reads := s.fieldNinv.extractLsb' (64 * q.val) 64 :: s.reads })) ∧
  (∀ (s : State) (off : Nat) (v : Word64) (rest : List Turn), 0x100 ≤ off → off < 0x160 → off % 8 = 0 →
    s.HostMoves (.write 64 (s.cfg.mmioBase + off) v) rest → step s = .next { s with turns := rest }) ∧
  (∀ (s : State) (off : Nat) (rest : List Turn), 0x800000 + 32 * 2 ^ s.cfg.ememLog ≤ off → off < 0x1000000 → off % 8 = 0 →
    (s.HostMoves (.read 64 (s.cfg.mmioBase + off)) rest →
      step s = .next { s with turns := rest, reads := 0#64 :: s.reads }) ∧
    ∀ v : Word64, s.HostMoves (.write 64 (s.cfg.mmioBase + off) v) rest → step s = .next { s with turns := rest }) ∧
  (∀ (s : State) (r : Reg) (q : Fin 4) (rest : List Turn),
    (s.HostMoves (.read 64 (s.cfg.mmioBase + 0x200 + 32 * r.val + 8 * q.val)) rest →
      step s = .next { s with turns := rest, reads := (s.reg r).extractLsb' (64 * q.val) 64 :: s.reads }) ∧
    ∀ v : Word64, s.HostMoves (.write 64 (s.cfg.mmioBase + 0x200 + 32 * r.val + 8 * q.val) v) rest →
      Answers (step s) fun t =>
        (∀ p : Fin 4, (t.reg r).extractLsb' (64 * p.val) 64 = if p = q then v else (s.reg r).extractLsb' (64 * p.val) 64) ∧
        SameRegsBut r s t ∧ SameFlags s t ∧ SameField s t ∧ SameElems s t ∧ SameControl s t ∧ t.turns = rest) ∧
  (∀ (s : State) (j : Nat) (q : Fin 4) (rest : List Turn), j < 2 ^ s.cfg.ememLog → s.cfg.ememLog ≤ 18 →
    (s.HostMoves (.read 64 (s.cfg.mmioBase + 0x800000 + 32 * j + 8 * q.val)) rest →
      step s = .next { s with turns := rest, reads := (s.elem j).value.extractLsb' (64 * q.val) 64 :: s.reads }) ∧
    ∀ v : Word64, s.HostMoves (.write 64 (s.cfg.mmioBase + 0x800000 + 32 * j + 8 * q.val) v) rest →
      Answers (step s) fun t =>
        (∀ p : Fin 4, (t.elem j).value.extractLsb' (64 * p.val) 64 =
          if p = q then v else (s.elem j).value.extractLsb' (64 * p.val) 64) ∧
        (t.elem j).tag = .data ∧ (∀ a, a ≠ j → t.elem a = s.elem a) ∧
        SameRegs s t ∧ SameFlags s t ∧ SameField s t ∧ SameControl s t ∧ t.turns = rest)

/-- R62, R63, R65 to R68, R72: the read-only registers as the host reads them, and every bit of STATUS. -/
def Obligations.ReadOnlyRegistersShowTheState : Prop :=
  ∀ (s : State) (rest : List Turn), s.cfg.Valid →
    (s.HostMoves (.read 64 (s.cfg.mmioBase + 0x00)) rest →
      step s = .next { s with turns := rest, reads := 0x4C45432D434F5245#64 :: s.reads }) ∧
    (s.HostMoves (.read 64 (s.cfg.mmioBase + 0x08)) rest →
      step s = .next { s with
        turns := rest
        reads := BitVec.ofNat 64 (1 * 2 ^ 24 + 16 * 2 ^ 16 + s.cfg.qdepth * 2 ^ 8 + s.cfg.ememLog) :: s.reads }) ∧
    (s.fifo.length < 256 → s.HostMoves (.read 64 (s.cfg.mmioBase + 0x18)) rest →
      ∃ w : Word64, step s = .next { s with turns := rest, reads := w :: s.reads } ∧
        w.getLsbD 0 = (decide (s.fifo.length > 0) && !s.halted) ∧ w.getLsbD 1 = s.halted ∧
        w.getLsbD 2 = s.fieldReady ∧ w.getLsbD 3 = s.cmdDropped ∧ w.getLsbD 4 = s.flagC ∧ w.getLsbD 5 = s.flagZ ∧
        w.getLsbD 6 = s.irq ∧ w.extractLsb' 7 9 = 0#9 ∧ (w.extractLsb' 16 8).toNat = s.fifo.length ∧
        w.extractLsb' 24 40 = 0#40) ∧
    (s.HostMoves (.read 64 (s.cfg.mmioBase + 0x20)) rest →
      step s = .next { s with turns := rest, reads := BitVec.ofNat 64 s.errCode.toNat :: s.reads }) ∧
    (s.HostMoves (.read 64 (s.cfg.mmioBase + 0x28)) rest → step s = .next { s with turns := rest, reads := s.errCmd :: s.reads }) ∧
    (s.HostMoves (.read 64 (s.cfg.mmioBase + 0x30)) rest → step s = .next { s with turns := rest, reads := s.errSeq :: s.reads }) ∧
    (s.HostMoves (.read 64 (s.cfg.mmioBase + 0x50)) rest → step s = .next { s with turns := rest, reads := s.retired :: s.reads })
end

