-- ==== Sys2Proof/Laws/Arithmetic.lean ====
section
/-! SUPPORT. What the shared computations of flags, differences, field sums and bit reversal give. -/

namespace Sys2Proof.Machine

open Sys2Proof

theorem modulus_pos (w : Width) : 0 < Width.modulus w := by cases w <;> decide

/-- A W-bit operand is below 2^W (R170). -/
theorem operand_lt (s : State) (w : Width) (r : Reg) : s.operand w r < Width.modulus w :=
  Nat.mod_lt _ (modulus_pos w)

/-- The carry out says that the exact sum does not fit (R171). -/
theorem carryOut_eq (w : Width) (t : Nat) : carryOut w t = decide (t ≥ Width.modulus w) := by
  have h := modulus_pos w
  rw [carryOut, Bool.eq_iff_iff]
  simp [Nat.div_eq_zero_iff, h.ne']

/-- The wrapped difference, as the remainder of the exact difference of integers (R173, R174). -/
theorem wrapSub_eq (w : Width) {a b c : Nat} (hb : b < Width.modulus w) (hc : c ≤ 1) :
    (wrapSub w a b c : Int) = ((a : Int) - b - c) % (Width.modulus w : Int) := by
  rw [wrapSub, Int.natCast_mod, Nat.cast_sub (by omega)]
  push_cast
  rw [show (a : Int) + Width.modulus w - (b + c) = (a - b - c) + Width.modulus w by ring, Int.add_emod_right]

/-- Field addition of canonical operands is the sum modulo N (R213). -/
theorem fieldAdd_eq_mod {n a b : Nat} (ha : a < n) (hb : b < n) : fieldAdd n a b = (a + b) % n := by
  unfold fieldAdd
  split
  · rw [Nat.mod_eq_sub_mod (by assumption), Nat.mod_eq_of_lt (by omega)]
  · rw [Nat.mod_eq_of_lt (by omega)]

/-- Field subtraction of canonical operands is canonical (R214). -/
theorem fieldSub_lt {n a b : Nat} (ha : a < n) (hb : b < n) : fieldSub n a b < n := by
  unfold fieldSub
  split <;> omega

/-- A reversed index stays below 2^k (R9). -/
theorem bitrev_lt (k i : Nat) : bitrev k i < 2 ^ k := by
  induction k generalizing i with
  | zero => simp [bitrev]
  | succ k ih =>
    have h := ih (i / 2)
    have h2 : i % 2 ≤ 1 := by omega
    have h3 : (i % 2) * 2 ^ k ≤ 1 * 2 ^ k := Nat.mul_le_mul_right _ h2
    rw [bitrev, Nat.pow_succ]
    omega

/-- NR needs a REV table, RN a NAT table (R292). -/
theorem wantedOrder_eq (mode : Mode) : wantedOrder mode = if mode = .nr then .rev else .nat := by
  cases mode <;> rfl

/-- The pairs of a stage (R290). -/
theorem mem_stagePairs {k gl : Nat} {x : Nat × Nat} :
    x ∈ stagePairs k gl ↔ x.1 < 2 ^ k / 2 ^ gl ∧ x.2 < 2 ^ gl / 2 := by
  obtain ⟨j, i⟩ := x
  simp [stagePairs]

end Sys2Proof.Machine
end

