-- ==== Sys2Proof/Laws/Dispatch.lean ====
section
/-! SUPPORT. Each arm of exec, true by definition, so that a proof rewrites one command's meaning and unfolds nothing else. -/

namespace Sys2Proof.Machine

open Sys2Proof

theorem exec_nop (s : State) :
    exec (.nop) s = execNop s := rfl

theorem exec_sync (irq : Bool) (s : State) :
    exec (.sync irq) s = execSync irq s := rfl

theorem exec_add (rd rs1 rs2 : Reg) (w : Width) (s : State) :
    exec (.add rd rs1 rs2 w) s = execAdd rd rs1 rs2 w s := rfl

theorem exec_adc (rd rs1 rs2 : Reg) (w : Width) (s : State) :
    exec (.adc rd rs1 rs2 w) s = execAdc rd rs1 rs2 w s := rfl

theorem exec_sub (rd rs1 rs2 : Reg) (w : Width) (s : State) :
    exec (.sub rd rs1 rs2 w) s = execSub rd rs1 rs2 w s := rfl

theorem exec_sbb (rd rs1 rs2 : Reg) (w : Width) (s : State) :
    exec (.sbb rd rs1 rs2 w) s = execSbb rd rs1 rs2 w s := rfl

theorem exec_cmp (rs1 rs2 : Reg) (w : Width) (s : State) :
    exec (.cmp rs1 rs2 w) s = execCmp rs1 rs2 w s := rfl

theorem exec_and (rd rs1 rs2 : Reg) (w : Width) (s : State) :
    exec (.and rd rs1 rs2 w) s = execAnd rd rs1 rs2 w s := rfl

theorem exec_shr (rd rs1 : Reg) (shamt : Nat) (w : Width) (s : State) :
    exec (.shr rd rs1 shamt w) s = execShr rd rs1 shamt w s := rfl

theorem exec_shl (rd rs1 : Reg) (shamt : Nat) (w : Width) (s : State) :
    exec (.shl rd rs1 shamt w) s = execShl rd rs1 shamt w s := rfl

theorem exec_mul (rd rs1 rs2 : Reg) (w : Width) (s : State) :
    exec (.mul rd rs1 rs2 w) s = execMul rd rs1 rs2 w s := rfl

theorem exec_mulb (rd rs1 rs2 : Reg) (w : Width) (s : State) :
    exec (.mulb rd rs1 rs2 w) s = execMulb rd rs1 rs2 w s := rfl

theorem exec_mov (rd rs1 : Reg) (w : Width) (s : State) :
    exec (.mov rd rs1 w) s = execMov rd rs1 w s := rfl

theorem exec_li (rd : Reg) (imm32 : BitVec 32) (s : State) :
    exec (.li rd imm32) s = execLi rd imm32 s := rfl

theorem exec_fcfg (rn rr2 rni : Reg) (s : State) :
    exec (.fcfg rn rr2 rni) s = execFcfg rn rr2 rni s := rfl

theorem exec_fadd (rd rs1 rs2 : Reg) (s : State) :
    exec (.fadd rd rs1 rs2) s = execFadd rd rs1 rs2 s := rfl

theorem exec_fsub (rd rs1 rs2 : Reg) (s : State) :
    exec (.fsub rd rs1 rs2) s = execFsub rd rs1 rs2 s := rfl

theorem exec_fmul (rd rs1 rs2 : Reg) (s : State) :
    exec (.fmul rd rs1 rs2) s = execFmul rd rs1 rs2 s := rfl

theorem exec_fsqr (rd rs1 : Reg) (s : State) :
    exec (.fsqr rd rs1) s = execFsqr rd rs1 s := rfl

theorem exec_finv (rd rs1 : Reg) (s : State) :
    exec (.finv rd rs1) s = execFinv rd rs1 s := rfl

theorem exec_fpow (rd rs1 rs2 : Reg) (s : State) :
    exec (.fpow rd rs1 rs2) s = execFpow rd rs1 rs2 s := rfl

theorem exec_ftom (rd rs1 : Reg) (s : State) :
    exec (.ftom rd rs1) s = execFtom rd rs1 s := rfl

theorem exec_ffromm (rd rs1 : Reg) (s : State) :
    exec (.ffromm rd rs1) s = execFfromm rd rs1 s := rfl

theorem exec_ld (rd : Reg) (p : Nat) (s : State) :
    exec (.ld rd p) s = execLd rd p s := rfl

theorem exec_st (rs : Reg) (p : Nat) (s : State) :
    exec (.st rs p) s = execSt rs p s := rfl

theorem exec_twgen (ord : TwOrder) (rs1 : Reg) (ks dst : Nat) (s : State) :
    exec (.twgen ord rs1 ks dst) s = execTwgen ord rs1 ks dst s := rfl

theorem exec_bitrev (k dst src : Nat) (s : State) :
    exec (.bitrev k dst src) s = execBitrev k dst src s := rfl

theorem exec_bfly (mode : Mode) (gl k tw buf : Nat) (s : State) :
    exec (.bfly mode gl k tw buf) s = execBfly mode gl k tw buf s := rfl

end Sys2Proof.Machine
end

