-- ==== Sys2Proof/Laws/State.lean ====
section
/-! SUPPORT. One lemma per field per named update of State, each true by definition, so that no proof unfolds a record update. -/

namespace Sys2Proof.Machine

open Sys2Proof

/-! ## State.setReg -/

@[simp] theorem State.setReg_cfg (s : State) (r : Reg) (v : Word) : (s.setReg r v).cfg = s.cfg := rfl
@[simp] theorem State.setReg_regs (s : State) (r : Reg) (v : Word) : (s.setReg r v).regs = s.regs.set r.val v r.isLt := rfl
@[simp] theorem State.setReg_flagC (s : State) (r : Reg) (v : Word) : (s.setReg r v).flagC = s.flagC := rfl
@[simp] theorem State.setReg_flagZ (s : State) (r : Reg) (v : Word) : (s.setReg r v).flagZ = s.flagZ := rfl
@[simp] theorem State.setReg_fieldN (s : State) (r : Reg) (v : Word) : (s.setReg r v).fieldN = s.fieldN := rfl
@[simp] theorem State.setReg_fieldR2 (s : State) (r : Reg) (v : Word) : (s.setReg r v).fieldR2 = s.fieldR2 := rfl
@[simp] theorem State.setReg_fieldNinv (s : State) (r : Reg) (v : Word) : (s.setReg r v).fieldNinv = s.fieldNinv := rfl
@[simp] theorem State.setReg_fieldReady (s : State) (r : Reg) (v : Word) : (s.setReg r v).fieldReady = s.fieldReady := rfl
@[simp] theorem State.setReg_mem (s : State) (r : Reg) (v : Word) : (s.setReg r v).mem = s.mem := rfl
@[simp] theorem State.setReg_fifo (s : State) (r : Reg) (v : Word) : (s.setReg r v).fifo = s.fifo := rfl
@[simp] theorem State.setReg_halted (s : State) (r : Reg) (v : Word) : (s.setReg r v).halted = s.halted := rfl
@[simp] theorem State.setReg_errCode (s : State) (r : Reg) (v : Word) : (s.setReg r v).errCode = s.errCode := rfl
@[simp] theorem State.setReg_errCmd (s : State) (r : Reg) (v : Word) : (s.setReg r v).errCmd = s.errCmd := rfl
@[simp] theorem State.setReg_errSeq (s : State) (r : Reg) (v : Word) : (s.setReg r v).errSeq = s.errSeq := rfl
@[simp] theorem State.setReg_irqEn (s : State) (r : Reg) (v : Word) : (s.setReg r v).irqEn = s.irqEn := rfl
@[simp] theorem State.setReg_irqPend (s : State) (r : Reg) (v : Word) : (s.setReg r v).irqPend = s.irqPend := rfl
@[simp] theorem State.setReg_retired (s : State) (r : Reg) (v : Word) : (s.setReg r v).retired = s.retired := rfl
@[simp] theorem State.setReg_cmdDropped (s : State) (r : Reg) (v : Word) : (s.setReg r v).cmdDropped = s.cmdDropped := rfl
@[simp] theorem State.setReg_epoch (s : State) (r : Reg) (v : Word) : (s.setReg r v).epoch = s.epoch := rfl
@[simp] theorem State.setReg_turns (s : State) (r : Reg) (v : Word) : (s.setReg r v).turns = s.turns := rfl
@[simp] theorem State.setReg_reads (s : State) (r : Reg) (v : Word) : (s.setReg r v).reads = s.reads := rfl
@[simp] theorem State.setReg_elem (s : State) (r : Reg) (v : Word) (i : Nat) : (s.setReg r v).elem i = s.elem i := rfl

/-! ## State.writeResult -/

@[simp] theorem State.writeResult_cfg (s : State) (r : Reg) (n : Nat) : (s.writeResult r n).cfg = s.cfg := rfl
@[simp] theorem State.writeResult_regs (s : State) (r : Reg) (n : Nat) : (s.writeResult r n).regs = s.regs.set r.val (BitVec.ofNat 256 n) r.isLt := rfl
@[simp] theorem State.writeResult_flagC (s : State) (r : Reg) (n : Nat) : (s.writeResult r n).flagC = s.flagC := rfl
@[simp] theorem State.writeResult_flagZ (s : State) (r : Reg) (n : Nat) : (s.writeResult r n).flagZ = s.flagZ := rfl
@[simp] theorem State.writeResult_fieldN (s : State) (r : Reg) (n : Nat) : (s.writeResult r n).fieldN = s.fieldN := rfl
@[simp] theorem State.writeResult_fieldR2 (s : State) (r : Reg) (n : Nat) : (s.writeResult r n).fieldR2 = s.fieldR2 := rfl
@[simp] theorem State.writeResult_fieldNinv (s : State) (r : Reg) (n : Nat) : (s.writeResult r n).fieldNinv = s.fieldNinv := rfl
@[simp] theorem State.writeResult_fieldReady (s : State) (r : Reg) (n : Nat) : (s.writeResult r n).fieldReady = s.fieldReady := rfl
@[simp] theorem State.writeResult_mem (s : State) (r : Reg) (n : Nat) : (s.writeResult r n).mem = s.mem := rfl
@[simp] theorem State.writeResult_fifo (s : State) (r : Reg) (n : Nat) : (s.writeResult r n).fifo = s.fifo := rfl
@[simp] theorem State.writeResult_halted (s : State) (r : Reg) (n : Nat) : (s.writeResult r n).halted = s.halted := rfl
@[simp] theorem State.writeResult_errCode (s : State) (r : Reg) (n : Nat) : (s.writeResult r n).errCode = s.errCode := rfl
@[simp] theorem State.writeResult_errCmd (s : State) (r : Reg) (n : Nat) : (s.writeResult r n).errCmd = s.errCmd := rfl
@[simp] theorem State.writeResult_errSeq (s : State) (r : Reg) (n : Nat) : (s.writeResult r n).errSeq = s.errSeq := rfl
@[simp] theorem State.writeResult_irqEn (s : State) (r : Reg) (n : Nat) : (s.writeResult r n).irqEn = s.irqEn := rfl
@[simp] theorem State.writeResult_irqPend (s : State) (r : Reg) (n : Nat) : (s.writeResult r n).irqPend = s.irqPend := rfl
@[simp] theorem State.writeResult_retired (s : State) (r : Reg) (n : Nat) : (s.writeResult r n).retired = s.retired := rfl
@[simp] theorem State.writeResult_cmdDropped (s : State) (r : Reg) (n : Nat) : (s.writeResult r n).cmdDropped = s.cmdDropped := rfl
@[simp] theorem State.writeResult_epoch (s : State) (r : Reg) (n : Nat) : (s.writeResult r n).epoch = s.epoch := rfl
@[simp] theorem State.writeResult_turns (s : State) (r : Reg) (n : Nat) : (s.writeResult r n).turns = s.turns := rfl
@[simp] theorem State.writeResult_reads (s : State) (r : Reg) (n : Nat) : (s.writeResult r n).reads = s.reads := rfl
@[simp] theorem State.writeResult_elem (s : State) (r : Reg) (n : Nat) (i : Nat) : (s.writeResult r n).elem i = s.elem i := rfl

/-! ## State.setFlags -/

@[simp] theorem State.setFlags_cfg (s : State) (c z : Bool) : (s.setFlags c z).cfg = s.cfg := rfl
@[simp] theorem State.setFlags_regs (s : State) (c z : Bool) : (s.setFlags c z).regs = s.regs := rfl
@[simp] theorem State.setFlags_flagC (s : State) (c z : Bool) : (s.setFlags c z).flagC = c := rfl
@[simp] theorem State.setFlags_flagZ (s : State) (c z : Bool) : (s.setFlags c z).flagZ = z := rfl
@[simp] theorem State.setFlags_fieldN (s : State) (c z : Bool) : (s.setFlags c z).fieldN = s.fieldN := rfl
@[simp] theorem State.setFlags_fieldR2 (s : State) (c z : Bool) : (s.setFlags c z).fieldR2 = s.fieldR2 := rfl
@[simp] theorem State.setFlags_fieldNinv (s : State) (c z : Bool) : (s.setFlags c z).fieldNinv = s.fieldNinv := rfl
@[simp] theorem State.setFlags_fieldReady (s : State) (c z : Bool) : (s.setFlags c z).fieldReady = s.fieldReady := rfl
@[simp] theorem State.setFlags_mem (s : State) (c z : Bool) : (s.setFlags c z).mem = s.mem := rfl
@[simp] theorem State.setFlags_fifo (s : State) (c z : Bool) : (s.setFlags c z).fifo = s.fifo := rfl
@[simp] theorem State.setFlags_halted (s : State) (c z : Bool) : (s.setFlags c z).halted = s.halted := rfl
@[simp] theorem State.setFlags_errCode (s : State) (c z : Bool) : (s.setFlags c z).errCode = s.errCode := rfl
@[simp] theorem State.setFlags_errCmd (s : State) (c z : Bool) : (s.setFlags c z).errCmd = s.errCmd := rfl
@[simp] theorem State.setFlags_errSeq (s : State) (c z : Bool) : (s.setFlags c z).errSeq = s.errSeq := rfl
@[simp] theorem State.setFlags_irqEn (s : State) (c z : Bool) : (s.setFlags c z).irqEn = s.irqEn := rfl
@[simp] theorem State.setFlags_irqPend (s : State) (c z : Bool) : (s.setFlags c z).irqPend = s.irqPend := rfl
@[simp] theorem State.setFlags_retired (s : State) (c z : Bool) : (s.setFlags c z).retired = s.retired := rfl
@[simp] theorem State.setFlags_cmdDropped (s : State) (c z : Bool) : (s.setFlags c z).cmdDropped = s.cmdDropped := rfl
@[simp] theorem State.setFlags_epoch (s : State) (c z : Bool) : (s.setFlags c z).epoch = s.epoch := rfl
@[simp] theorem State.setFlags_turns (s : State) (c z : Bool) : (s.setFlags c z).turns = s.turns := rfl
@[simp] theorem State.setFlags_reads (s : State) (c z : Bool) : (s.setFlags c z).reads = s.reads := rfl
@[simp] theorem State.setFlags_reg (s : State) (c z : Bool) (q : Reg) : (s.setFlags c z).reg q = s.reg q := rfl
@[simp] theorem State.setFlags_elem (s : State) (c z : Bool) (i : Nat) : (s.setFlags c z).elem i = s.elem i := rfl

/-! ## State.memWrite -/

@[simp] theorem State.memWrite_cfg (s : State) (a : Nat) (v : Word) : (s.memWrite a v).cfg = s.cfg := rfl
@[simp] theorem State.memWrite_regs (s : State) (a : Nat) (v : Word) : (s.memWrite a v).regs = s.regs := rfl
@[simp] theorem State.memWrite_flagC (s : State) (a : Nat) (v : Word) : (s.memWrite a v).flagC = s.flagC := rfl
@[simp] theorem State.memWrite_flagZ (s : State) (a : Nat) (v : Word) : (s.memWrite a v).flagZ = s.flagZ := rfl
@[simp] theorem State.memWrite_fieldN (s : State) (a : Nat) (v : Word) : (s.memWrite a v).fieldN = s.fieldN := rfl
@[simp] theorem State.memWrite_fieldR2 (s : State) (a : Nat) (v : Word) : (s.memWrite a v).fieldR2 = s.fieldR2 := rfl
@[simp] theorem State.memWrite_fieldNinv (s : State) (a : Nat) (v : Word) : (s.memWrite a v).fieldNinv = s.fieldNinv := rfl
@[simp] theorem State.memWrite_fieldReady (s : State) (a : Nat) (v : Word) : (s.memWrite a v).fieldReady = s.fieldReady := rfl
@[simp] theorem State.memWrite_mem (s : State) (a : Nat) (v : Word) : (s.memWrite a v).mem = s.mem.write a (Element.ofWord v .data) := rfl
@[simp] theorem State.memWrite_fifo (s : State) (a : Nat) (v : Word) : (s.memWrite a v).fifo = s.fifo := rfl
@[simp] theorem State.memWrite_halted (s : State) (a : Nat) (v : Word) : (s.memWrite a v).halted = s.halted := rfl
@[simp] theorem State.memWrite_errCode (s : State) (a : Nat) (v : Word) : (s.memWrite a v).errCode = s.errCode := rfl
@[simp] theorem State.memWrite_errCmd (s : State) (a : Nat) (v : Word) : (s.memWrite a v).errCmd = s.errCmd := rfl
@[simp] theorem State.memWrite_errSeq (s : State) (a : Nat) (v : Word) : (s.memWrite a v).errSeq = s.errSeq := rfl
@[simp] theorem State.memWrite_irqEn (s : State) (a : Nat) (v : Word) : (s.memWrite a v).irqEn = s.irqEn := rfl
@[simp] theorem State.memWrite_irqPend (s : State) (a : Nat) (v : Word) : (s.memWrite a v).irqPend = s.irqPend := rfl
@[simp] theorem State.memWrite_retired (s : State) (a : Nat) (v : Word) : (s.memWrite a v).retired = s.retired := rfl
@[simp] theorem State.memWrite_cmdDropped (s : State) (a : Nat) (v : Word) : (s.memWrite a v).cmdDropped = s.cmdDropped := rfl
@[simp] theorem State.memWrite_epoch (s : State) (a : Nat) (v : Word) : (s.memWrite a v).epoch = s.epoch := rfl
@[simp] theorem State.memWrite_turns (s : State) (a : Nat) (v : Word) : (s.memWrite a v).turns = s.turns := rfl
@[simp] theorem State.memWrite_reads (s : State) (a : Nat) (v : Word) : (s.memWrite a v).reads = s.reads := rfl
@[simp] theorem State.memWrite_reg (s : State) (a : Nat) (v : Word) (q : Reg) : (s.memWrite a v).reg q = s.reg q := rfl

/-! ## State.memWriteAll -/

@[simp] theorem State.memWriteAll_cfg (s : State) (l : List (Nat × Element)) : (s.memWriteAll l).cfg = s.cfg := rfl
@[simp] theorem State.memWriteAll_regs (s : State) (l : List (Nat × Element)) : (s.memWriteAll l).regs = s.regs := rfl
@[simp] theorem State.memWriteAll_flagC (s : State) (l : List (Nat × Element)) : (s.memWriteAll l).flagC = s.flagC := rfl
@[simp] theorem State.memWriteAll_flagZ (s : State) (l : List (Nat × Element)) : (s.memWriteAll l).flagZ = s.flagZ := rfl
@[simp] theorem State.memWriteAll_fieldN (s : State) (l : List (Nat × Element)) : (s.memWriteAll l).fieldN = s.fieldN := rfl
@[simp] theorem State.memWriteAll_fieldR2 (s : State) (l : List (Nat × Element)) : (s.memWriteAll l).fieldR2 = s.fieldR2 := rfl
@[simp] theorem State.memWriteAll_fieldNinv (s : State) (l : List (Nat × Element)) : (s.memWriteAll l).fieldNinv = s.fieldNinv := rfl
@[simp] theorem State.memWriteAll_fieldReady (s : State) (l : List (Nat × Element)) : (s.memWriteAll l).fieldReady = s.fieldReady := rfl
@[simp] theorem State.memWriteAll_mem (s : State) (l : List (Nat × Element)) : (s.memWriteAll l).mem = s.mem.writeAll l := rfl
@[simp] theorem State.memWriteAll_fifo (s : State) (l : List (Nat × Element)) : (s.memWriteAll l).fifo = s.fifo := rfl
@[simp] theorem State.memWriteAll_halted (s : State) (l : List (Nat × Element)) : (s.memWriteAll l).halted = s.halted := rfl
@[simp] theorem State.memWriteAll_errCode (s : State) (l : List (Nat × Element)) : (s.memWriteAll l).errCode = s.errCode := rfl
@[simp] theorem State.memWriteAll_errCmd (s : State) (l : List (Nat × Element)) : (s.memWriteAll l).errCmd = s.errCmd := rfl
@[simp] theorem State.memWriteAll_errSeq (s : State) (l : List (Nat × Element)) : (s.memWriteAll l).errSeq = s.errSeq := rfl
@[simp] theorem State.memWriteAll_irqEn (s : State) (l : List (Nat × Element)) : (s.memWriteAll l).irqEn = s.irqEn := rfl
@[simp] theorem State.memWriteAll_irqPend (s : State) (l : List (Nat × Element)) : (s.memWriteAll l).irqPend = s.irqPend := rfl
@[simp] theorem State.memWriteAll_retired (s : State) (l : List (Nat × Element)) : (s.memWriteAll l).retired = s.retired := rfl
@[simp] theorem State.memWriteAll_cmdDropped (s : State) (l : List (Nat × Element)) : (s.memWriteAll l).cmdDropped = s.cmdDropped := rfl
@[simp] theorem State.memWriteAll_epoch (s : State) (l : List (Nat × Element)) : (s.memWriteAll l).epoch = s.epoch := rfl
@[simp] theorem State.memWriteAll_turns (s : State) (l : List (Nat × Element)) : (s.memWriteAll l).turns = s.turns := rfl
@[simp] theorem State.memWriteAll_reads (s : State) (l : List (Nat × Element)) : (s.memWriteAll l).reads = s.reads := rfl
@[simp] theorem State.memWriteAll_reg (s : State) (l : List (Nat × Element)) (q : Reg) : (s.memWriteAll l).reg q = s.reg q := rfl

/-! ## State.pend -/

@[simp] theorem State.pend_cfg (s : State) (x : BitVec 3) : (s.pend x).cfg = s.cfg := rfl
@[simp] theorem State.pend_regs (s : State) (x : BitVec 3) : (s.pend x).regs = s.regs := rfl
@[simp] theorem State.pend_flagC (s : State) (x : BitVec 3) : (s.pend x).flagC = s.flagC := rfl
@[simp] theorem State.pend_flagZ (s : State) (x : BitVec 3) : (s.pend x).flagZ = s.flagZ := rfl
@[simp] theorem State.pend_fieldN (s : State) (x : BitVec 3) : (s.pend x).fieldN = s.fieldN := rfl
@[simp] theorem State.pend_fieldR2 (s : State) (x : BitVec 3) : (s.pend x).fieldR2 = s.fieldR2 := rfl
@[simp] theorem State.pend_fieldNinv (s : State) (x : BitVec 3) : (s.pend x).fieldNinv = s.fieldNinv := rfl
@[simp] theorem State.pend_fieldReady (s : State) (x : BitVec 3) : (s.pend x).fieldReady = s.fieldReady := rfl
@[simp] theorem State.pend_mem (s : State) (x : BitVec 3) : (s.pend x).mem = s.mem := rfl
@[simp] theorem State.pend_fifo (s : State) (x : BitVec 3) : (s.pend x).fifo = s.fifo := rfl
@[simp] theorem State.pend_halted (s : State) (x : BitVec 3) : (s.pend x).halted = s.halted := rfl
@[simp] theorem State.pend_errCode (s : State) (x : BitVec 3) : (s.pend x).errCode = s.errCode := rfl
@[simp] theorem State.pend_errCmd (s : State) (x : BitVec 3) : (s.pend x).errCmd = s.errCmd := rfl
@[simp] theorem State.pend_errSeq (s : State) (x : BitVec 3) : (s.pend x).errSeq = s.errSeq := rfl
@[simp] theorem State.pend_irqEn (s : State) (x : BitVec 3) : (s.pend x).irqEn = s.irqEn := rfl
@[simp] theorem State.pend_irqPend (s : State) (x : BitVec 3) : (s.pend x).irqPend = s.irqPend ||| x := rfl
@[simp] theorem State.pend_retired (s : State) (x : BitVec 3) : (s.pend x).retired = s.retired := rfl
@[simp] theorem State.pend_cmdDropped (s : State) (x : BitVec 3) : (s.pend x).cmdDropped = s.cmdDropped := rfl
@[simp] theorem State.pend_epoch (s : State) (x : BitVec 3) : (s.pend x).epoch = s.epoch := rfl
@[simp] theorem State.pend_turns (s : State) (x : BitVec 3) : (s.pend x).turns = s.turns := rfl
@[simp] theorem State.pend_reads (s : State) (x : BitVec 3) : (s.pend x).reads = s.reads := rfl
@[simp] theorem State.pend_reg (s : State) (x : BitVec 3) (q : Reg) : (s.pend x).reg q = s.reg q := rfl
@[simp] theorem State.pend_elem (s : State) (x : BitVec 3) (i : Nat) : (s.pend x).elem i = s.elem i := rfl

/-! ## State.retire -/

@[simp] theorem State.retire_cfg (s : State) : s.retire.cfg = s.cfg := rfl
@[simp] theorem State.retire_regs (s : State) : s.retire.regs = s.regs := rfl
@[simp] theorem State.retire_flagC (s : State) : s.retire.flagC = s.flagC := rfl
@[simp] theorem State.retire_flagZ (s : State) : s.retire.flagZ = s.flagZ := rfl
@[simp] theorem State.retire_fieldN (s : State) : s.retire.fieldN = s.fieldN := rfl
@[simp] theorem State.retire_fieldR2 (s : State) : s.retire.fieldR2 = s.fieldR2 := rfl
@[simp] theorem State.retire_fieldNinv (s : State) : s.retire.fieldNinv = s.fieldNinv := rfl
@[simp] theorem State.retire_fieldReady (s : State) : s.retire.fieldReady = s.fieldReady := rfl
@[simp] theorem State.retire_mem (s : State) : s.retire.mem = s.mem := rfl
@[simp] theorem State.retire_fifo (s : State) : s.retire.fifo = s.fifo.tail := rfl
@[simp] theorem State.retire_halted (s : State) : s.retire.halted = s.halted := rfl
@[simp] theorem State.retire_errCode (s : State) : s.retire.errCode = s.errCode := rfl
@[simp] theorem State.retire_errCmd (s : State) : s.retire.errCmd = s.errCmd := rfl
@[simp] theorem State.retire_errSeq (s : State) : s.retire.errSeq = s.errSeq := rfl
@[simp] theorem State.retire_irqEn (s : State) : s.retire.irqEn = s.irqEn := rfl
@[simp] theorem State.retire_irqPend (s : State) : s.retire.irqPend = if s.fifo.tail.isEmpty then s.irqPend ||| irqIdle else s.irqPend := rfl
@[simp] theorem State.retire_retired (s : State) : s.retire.retired = s.retired + 1#64 := rfl
@[simp] theorem State.retire_cmdDropped (s : State) : s.retire.cmdDropped = s.cmdDropped := rfl
@[simp] theorem State.retire_epoch (s : State) : s.retire.epoch = s.epoch := rfl
@[simp] theorem State.retire_turns (s : State) : s.retire.turns = s.turns := rfl
@[simp] theorem State.retire_reads (s : State) : s.retire.reads = s.reads := rfl
@[simp] theorem State.retire_reg (s : State) (q : Reg) : s.retire.reg q = s.reg q := rfl
@[simp] theorem State.retire_elem (s : State) (i : Nat) : s.retire.elem i = s.elem i := rfl

/-! ## State.raise -/

@[simp] theorem State.raise_cfg (s : State) (e : ErrorName) : (s.raise e).cfg = s.cfg := rfl
@[simp] theorem State.raise_regs (s : State) (e : ErrorName) : (s.raise e).regs = s.regs := rfl
@[simp] theorem State.raise_flagC (s : State) (e : ErrorName) : (s.raise e).flagC = s.flagC := rfl
@[simp] theorem State.raise_flagZ (s : State) (e : ErrorName) : (s.raise e).flagZ = s.flagZ := rfl
@[simp] theorem State.raise_fieldN (s : State) (e : ErrorName) : (s.raise e).fieldN = s.fieldN := rfl
@[simp] theorem State.raise_fieldR2 (s : State) (e : ErrorName) : (s.raise e).fieldR2 = s.fieldR2 := rfl
@[simp] theorem State.raise_fieldNinv (s : State) (e : ErrorName) : (s.raise e).fieldNinv = s.fieldNinv := rfl
@[simp] theorem State.raise_fieldReady (s : State) (e : ErrorName) : (s.raise e).fieldReady = s.fieldReady := rfl
@[simp] theorem State.raise_mem (s : State) (e : ErrorName) : (s.raise e).mem = s.mem := rfl
@[simp] theorem State.raise_fifo (s : State) (e : ErrorName) : (s.raise e).fifo = s.fifo := rfl
@[simp] theorem State.raise_halted (s : State) (e : ErrorName) : (s.raise e).halted = true := rfl
@[simp] theorem State.raise_errCode (s : State) (e : ErrorName) : (s.raise e).errCode = e.code := rfl
@[simp] theorem State.raise_errCmd (s : State) (e : ErrorName) : (s.raise e).errCmd = s.headWord := rfl
@[simp] theorem State.raise_errSeq (s : State) (e : ErrorName) : (s.raise e).errSeq = s.retired := rfl
@[simp] theorem State.raise_irqEn (s : State) (e : ErrorName) : (s.raise e).irqEn = s.irqEn := rfl
@[simp] theorem State.raise_irqPend (s : State) (e : ErrorName) : (s.raise e).irqPend = s.irqPend ||| irqErr := rfl
@[simp] theorem State.raise_retired (s : State) (e : ErrorName) : (s.raise e).retired = s.retired := rfl
@[simp] theorem State.raise_cmdDropped (s : State) (e : ErrorName) : (s.raise e).cmdDropped = s.cmdDropped := rfl
@[simp] theorem State.raise_epoch (s : State) (e : ErrorName) : (s.raise e).epoch = s.epoch := rfl
@[simp] theorem State.raise_turns (s : State) (e : ErrorName) : (s.raise e).turns = s.turns := rfl
@[simp] theorem State.raise_reads (s : State) (e : ErrorName) : (s.raise e).reads = s.reads := rfl
@[simp] theorem State.raise_reg (s : State) (e : ErrorName) (q : Reg) : (s.raise e).reg q = s.reg q := rfl
@[simp] theorem State.raise_elem (s : State) (e : ErrorName) (i : Nat) : (s.raise e).elem i = s.elem i := rfl

/-! ## State.clearErr -/

@[simp] theorem State.clearErr_cfg (s : State) : s.clearErr.cfg = s.cfg := rfl
@[simp] theorem State.clearErr_regs (s : State) : s.clearErr.regs = s.regs := rfl
@[simp] theorem State.clearErr_flagC (s : State) : s.clearErr.flagC = s.flagC := rfl
@[simp] theorem State.clearErr_flagZ (s : State) : s.clearErr.flagZ = s.flagZ := rfl
@[simp] theorem State.clearErr_fieldN (s : State) : s.clearErr.fieldN = s.fieldN := rfl
@[simp] theorem State.clearErr_fieldR2 (s : State) : s.clearErr.fieldR2 = s.fieldR2 := rfl
@[simp] theorem State.clearErr_fieldNinv (s : State) : s.clearErr.fieldNinv = s.fieldNinv := rfl
@[simp] theorem State.clearErr_fieldReady (s : State) : s.clearErr.fieldReady = s.fieldReady := rfl
@[simp] theorem State.clearErr_mem (s : State) : s.clearErr.mem = s.mem := rfl
@[simp] theorem State.clearErr_fifo (s : State) : s.clearErr.fifo = [] := rfl
@[simp] theorem State.clearErr_halted (s : State) : s.clearErr.halted = false := rfl
@[simp] theorem State.clearErr_errCode (s : State) : s.clearErr.errCode = 0#8 := rfl
@[simp] theorem State.clearErr_errCmd (s : State) : s.clearErr.errCmd = 0#64 := rfl
@[simp] theorem State.clearErr_errSeq (s : State) : s.clearErr.errSeq = 0#64 := rfl
@[simp] theorem State.clearErr_irqEn (s : State) : s.clearErr.irqEn = s.irqEn := rfl
@[simp] theorem State.clearErr_irqPend (s : State) : s.clearErr.irqPend = s.irqPend := rfl
@[simp] theorem State.clearErr_retired (s : State) : s.clearErr.retired = s.retired := rfl
@[simp] theorem State.clearErr_cmdDropped (s : State) : s.clearErr.cmdDropped = false := rfl
@[simp] theorem State.clearErr_epoch (s : State) : s.clearErr.epoch = s.epoch := rfl
@[simp] theorem State.clearErr_turns (s : State) : s.clearErr.turns = s.turns := rfl
@[simp] theorem State.clearErr_reads (s : State) : s.clearErr.reads = s.reads := rfl
@[simp] theorem State.clearErr_reg (s : State) (q : Reg) : s.clearErr.reg q = s.reg q := rfl
@[simp] theorem State.clearErr_elem (s : State) (i : Nat) : s.clearErr.elem i = s.elem i := rfl

/-! ## State.softReset -/

@[simp] theorem State.softReset_cfg (s : State) : s.softReset.cfg = s.cfg := rfl
@[simp] theorem State.softReset_regs (s : State) : s.softReset.regs = Vector.replicate 16 0#256 := rfl
@[simp] theorem State.softReset_flagC (s : State) : s.softReset.flagC = false := rfl
@[simp] theorem State.softReset_flagZ (s : State) : s.softReset.flagZ = false := rfl
@[simp] theorem State.softReset_fieldN (s : State) : s.softReset.fieldN = 0#256 := rfl
@[simp] theorem State.softReset_fieldR2 (s : State) : s.softReset.fieldR2 = 0#256 := rfl
@[simp] theorem State.softReset_fieldNinv (s : State) : s.softReset.fieldNinv = 0#256 := rfl
@[simp] theorem State.softReset_fieldReady (s : State) : s.softReset.fieldReady = false := rfl
@[simp] theorem State.softReset_mem (s : State) : s.softReset.mem = s.mem.clearTags := rfl
@[simp] theorem State.softReset_fifo (s : State) : s.softReset.fifo = [] := rfl
@[simp] theorem State.softReset_halted (s : State) : s.softReset.halted = false := rfl
@[simp] theorem State.softReset_errCode (s : State) : s.softReset.errCode = 0#8 := rfl
@[simp] theorem State.softReset_errCmd (s : State) : s.softReset.errCmd = 0#64 := rfl
@[simp] theorem State.softReset_errSeq (s : State) : s.softReset.errSeq = 0#64 := rfl
@[simp] theorem State.softReset_irqEn (s : State) : s.softReset.irqEn = 0#3 := rfl
@[simp] theorem State.softReset_irqPend (s : State) : s.softReset.irqPend = 0#3 := rfl
@[simp] theorem State.softReset_retired (s : State) : s.softReset.retired = 0#64 := rfl
@[simp] theorem State.softReset_cmdDropped (s : State) : s.softReset.cmdDropped = false := rfl
@[simp] theorem State.softReset_epoch (s : State) : s.softReset.epoch = s.epoch := rfl
@[simp] theorem State.softReset_turns (s : State) : s.softReset.turns = s.turns := rfl
@[simp] theorem State.softReset_reads (s : State) : s.softReset.reads = s.reads := rfl

/-! ## State.powerCycle -/

@[simp] theorem State.powerCycle_cfg (s : State) : s.powerCycle.cfg = s.cfg := rfl
@[simp] theorem State.powerCycle_regs (s : State) : s.powerCycle.regs = Vector.replicate 16 0#256 := rfl
@[simp] theorem State.powerCycle_flagC (s : State) : s.powerCycle.flagC = false := rfl
@[simp] theorem State.powerCycle_flagZ (s : State) : s.powerCycle.flagZ = false := rfl
@[simp] theorem State.powerCycle_fieldN (s : State) : s.powerCycle.fieldN = 0#256 := rfl
@[simp] theorem State.powerCycle_fieldR2 (s : State) : s.powerCycle.fieldR2 = 0#256 := rfl
@[simp] theorem State.powerCycle_fieldNinv (s : State) : s.powerCycle.fieldNinv = 0#256 := rfl
@[simp] theorem State.powerCycle_fieldReady (s : State) : s.powerCycle.fieldReady = false := rfl
@[simp] theorem State.powerCycle_mem (s : State) : s.powerCycle.mem = [] := rfl
@[simp] theorem State.powerCycle_fifo (s : State) : s.powerCycle.fifo = [] := rfl
@[simp] theorem State.powerCycle_halted (s : State) : s.powerCycle.halted = false := rfl
@[simp] theorem State.powerCycle_errCode (s : State) : s.powerCycle.errCode = 0#8 := rfl
@[simp] theorem State.powerCycle_errCmd (s : State) : s.powerCycle.errCmd = 0#64 := rfl
@[simp] theorem State.powerCycle_errSeq (s : State) : s.powerCycle.errSeq = 0#64 := rfl
@[simp] theorem State.powerCycle_irqEn (s : State) : s.powerCycle.irqEn = 0#3 := rfl
@[simp] theorem State.powerCycle_irqPend (s : State) : s.powerCycle.irqPend = 0#3 := rfl
@[simp] theorem State.powerCycle_retired (s : State) : s.powerCycle.retired = 0#64 := rfl
@[simp] theorem State.powerCycle_cmdDropped (s : State) : s.powerCycle.cmdDropped = false := rfl
@[simp] theorem State.powerCycle_epoch (s : State) : s.powerCycle.epoch = s.epoch + 1 := rfl
@[simp] theorem State.powerCycle_turns (s : State) : s.powerCycle.turns = s.turns := rfl
@[simp] theorem State.powerCycle_reads (s : State) : s.powerCycle.reads = s.reads := rfl

end Sys2Proof.Machine
end

