-- ==== Sys2Proof/Laws/Words.lean ====
section
/-! SUPPORT. A 256-bit value and its four 64-bit words (R86, R87). -/

namespace Sys2Proof.Machine
open Sys2Proof

/-- A value is its four words joined. -/
theorem join_words (v : Word) :
    v.extractLsb' 192 64 ++ v.extractLsb' 128 64 ++ v.extractLsb' 64 64 ++ v.extractLsb' 0 64 = v := by
  apply BitVec.eq_of_getLsbD_eq
  intro i hi
  simp only [BitVec.getLsbD_append, BitVec.getLsbD_extractLsb']
  by_cases h1 : i < 64
  · simp [h1]
  by_cases h2 : i - 64 < 64
  · have e : 64 + (i - 64) = i := by omega
    simp [h1, h2, e]
  by_cases h3 : i - 64 - 64 < 64
  · have e : 128 + (i - 64 - 64) = i := by omega
    simp [h1, h2, h3, e]
  · have h4 : i - 64 - 64 - 64 < 64 := by omega
    have e : 192 + (i - 64 - 64 - 64) = i := by omega
    simp [h1, h2, h3, h4, e]

/-- The words of four joined words, one lemma a word. -/
theorem word0 (a b c d : Word64) : (d ++ c ++ b ++ a).extractLsb' 0 64 = a := by
  apply BitVec.eq_of_getLsbD_eq
  intro i hi
  simp only [BitVec.getLsbD_append, BitVec.getLsbD_extractLsb']
  simp [hi]

theorem word1 (a b c d : Word64) : (d ++ c ++ b ++ a).extractLsb' 64 64 = b := by
  apply BitVec.eq_of_getLsbD_eq
  intro i hi
  simp only [BitVec.getLsbD_append, BitVec.getLsbD_extractLsb']
  have h1 : ¬ 64 + i < 64 := by omega
  have h2 : 64 + i - 64 = i := by omega
  simp [hi]

theorem word2 (a b c d : Word64) : (d ++ c ++ b ++ a).extractLsb' 128 64 = c := by
  apply BitVec.eq_of_getLsbD_eq
  intro i hi
  simp only [BitVec.getLsbD_append, BitVec.getLsbD_extractLsb']
  have h1 : ¬ 128 + i < 64 := by omega
  have h2 : ¬ 128 + i - 64 < 64 := by omega
  have h3 : 128 + i - 64 - 64 = i := by omega
  simp [hi, h1, h2, h3]

theorem word3 (a b c d : Word64) : (d ++ c ++ b ++ a).extractLsb' 192 64 = d := by
  apply BitVec.eq_of_getLsbD_eq
  intro i hi
  simp only [BitVec.getLsbD_append, BitVec.getLsbD_extractLsb']
  have h1 : ¬ 192 + i < 64 := by omega
  have h2 : ¬ 192 + i - 64 < 64 := by omega
  have h4 : ¬ 192 + i - 64 -64 < 64 := by omega
  have h3 : 192 + i - 64 - 64 -64= i := by omega
  simp [hi, h1, h2, h3, h4]

/-- A word of an element is that word of its value. -/
theorem Element.word_eq_wordOf_value (e : Element) (q : Fin 4) : e.word q = wordOf e.value q := by
  match q with
  | 0 => exact (word0 e.w0 e.w1 e.w2 e.w3).symm
  | 1 => exact (word1 e.w0 e.w1 e.w2 e.w3).symm
  | 2 => exact (word2 e.w0 e.w1 e.w2 e.w3).symm
  | 3 => exact (word3 e.w0 e.w1 e.w2 e.w3).symm

/-- A word of the element made of `v`. -/
@[simp] theorem Element.word_ofWord (v : Word) (t : Tag) (q : Fin 4) : (Element.ofWord v t).word q = wordOf v q := by
  match q with
  | 0 => rfl
  | 1 => rfl
  | 2 => rfl
  | 3 => rfl

/-- An element made again of its value keeps its words. -/
theorem ofWord_value (e : Element) (t : Tag) : Element.ofWord e.value t = { e with tag := t } := by
  obtain ⟨a,b,c,d,u⟩ := e
  simp [Element.ofWord, Element.value, word0, word1, word2, word3]

/-- A host write of word q changes that word only (R87). -/
theorem Element.word_hostWrite (e : Element) (q p : Fin 4) (x : Word64) :
    (e.hostWrite q x).word p = if p = q then x else e.word p := by
  match q, p with
  | 0, 0 => rfl
  | 0, 1 => rfl
  | 0, 2 => rfl
  | 0, 3 => rfl
  | 1, 0 => rfl
  | 1, 1 => rfl
  | 1, 2 => rfl
  | 1, 3 => rfl
  | 2, 0 => rfl
  | 2, 1 => rfl
  | 2, 2 => rfl
  | 2, 3 => rfl
  | 3, 0 => rfl
  | 3, 1 => rfl
  | 3, 2 => rfl
  | 3, 3 => rfl

/-- A host write makes the tag DATA (R75). -/
@[simp] theorem Element.tag_hostWrite (e : Element) (q : Fin 4) (x : Word64) : (e.hostWrite q x).tag = .data := by
  match q with
  | 0 => rfl
  | 1 => rfl
  | 2 => rfl
  | 3 => rfl

/-- Replacing word q of a value changes that word only (R87). -/
theorem replaceWord_words (v : Word) (q p : Fin 4) (x : Word64) :
    wordOf (replaceWord v q x) p = if p = q then x else wordOf v p := by
  rw [replaceWord, ← Element.word_eq_wordOf_value, Element.word_hostWrite, Element.word_ofWord]

/-- An element holds the value it was made of. -/
@[simp] theorem Element.value_ofWord (v : Word) (t : Tag) : (Element.ofWord v t).value = v := join_words v

@[simp] theorem Element.tag_ofWord (v : Word) (t : Tag) : (Element.ofWord v t).tag = t := rfl

/-- The value of an element does not depend on its tag. -/
@[simp] theorem Element.value_withTag (e : Element) (t : Tag) : ({ e with tag := t } : Element).value = e.value := rfl

end Sys2Proof.Machine
end

