-- ==== Sys2Proof/Laws/Memory.lean ====
section
/-! SUPPORT. Element memory: read after write, and every operation keeps the canonical form. -/

namespace Sys2Proof.Machine

open Sys2Proof

/-- A read after a write: the element written, and every other address as before. -/
theorem Memory.read_write (ep : Nat) (m : Memory) (a b : Nat) (e : Element) :
    Memory.read ep (m.write a e) b = if b = a then e else Memory.read ep m b := by
  induction m with
  | nil => by_cases h : b = a <;> simp [Memory.write, Memory.read, h]
  | cons x m ih =>
    obtain ⟨c, f⟩ := x
    simp only [Memory.write]
    split
    · by_cases h : b = a <;> simp [Memory.read, h]
    · split
      · subst_vars
        by_cases h : b = c <;> simp [Memory.read, h]
      · rename_i h1 h2
        by_cases h : b = c
        · have : b ≠ a := fun h' => h2 (h' ▸ h)
          simp [Memory.read, h]
          intro h'; exact absurd h'.symm h2
        · simp [Memory.read, h, ih]

/-- Reading an address that a list of writes does not name. -/
theorem Memory.read_writeAll_of_forall_ne (ep : Nat) (l : List (Nat × Element)) (m : Memory) (b : Nat)
    (h : ∀ x ∈ l, x.1 ≠ b) : Memory.read ep (m.writeAll l) b = Memory.read ep m b := by
  induction l generalizing m with
  | nil => rfl
  | cons x l ih =>
    have hx : b ≠ x.1 := (h x (by simp)).symm
    have hl : ∀ y ∈ l, y.1 ≠ b := fun y hy => h y (by simp [hy])
    show Memory.read ep (Memory.writeAll (m.write x.1 x.2) l) b = _
    rw [ih _ hl, Memory.read_write, if_neg hx]

/-- Reading an address that a list of writes, each to an address of its own, names. -/
theorem Memory.read_writeAll_of_mem (ep : Nat) (l : List (Nat × Element)) (m : Memory) (b : Nat) (e : Element)
    (hd : l.Pairwise (fun x y => x.1 ≠ y.1)) (h : (b, e) ∈ l) : Memory.read ep (m.writeAll l) b = e := by
  induction l generalizing m with
  | nil => simp at h
  | cons x l ih =>
    rw [List.pairwise_cons] at hd
    show Memory.read ep (Memory.writeAll (m.write x.1 x.2) l) b = _
    rcases List.mem_cons.1 h with h | h
    · subst h
      rw [Memory.read_writeAll_of_forall_ne ep l _ b (fun y hy => (hd.1 y hy).symm), Memory.read_write, if_pos rfl]
    · exact ih _ hd.2 h

/-- What a write can leave in the list. -/
theorem Memory.mem_write {m : Memory} {a : Nat} {e : Element} {x : Nat × Element} (h : x ∈ m.write a e) :
    x = (a, e) ∨ x ∈ m := by
  induction m with
  | nil => simpa [Memory.write] using h
  | cons y m ih =>
    obtain ⟨c, f⟩ := y
    simp only [Memory.write] at h
    split at h
    · simpa using h
    · split at h
      · rcases List.mem_cons.1 h with h | h
        · exact .inl h
        · exact .inr (by simp [h])
      · rcases List.mem_cons.1 h with h | h
        · exact .inr (by simp [h])
        · rcases ih h with h | h
          · exact .inl h
          · exact .inr (by simp [h])

/-- A write keeps the canonical form. -/
theorem Memory.wf_write {m : Memory} (h : m.wf) (a : Nat) (e : Element) : (m.write a e).wf := by
  induction m with
  | nil => simp [Memory.write, Memory.wf]
  | cons y m ih =>
    obtain ⟨c, f⟩ := y
    rw [Memory.wf, List.pairwise_cons] at h
    simp only [Memory.write]
    split
    · rename_i hac
      refine List.pairwise_cons.2 ⟨fun z hz => ?_, List.pairwise_cons.2 h⟩
      rcases List.mem_cons.1 hz with hz | hz
      · subst hz; exact hac
      · exact Nat.lt_trans hac (h.1 z hz)
    · split
      · rename_i hac; subst hac
        exact List.pairwise_cons.2 ⟨fun z hz => h.1 z hz, h.2⟩
      · rename_i h1 h2
        refine List.pairwise_cons.2 ⟨fun z hz => ?_, ih h.2⟩
        rcases Memory.mem_write hz with hz | hz
        · subst hz; show c < a; omega
        · exact h.1 z hz

/-- What a list of writes can leave in the list. -/
theorem Memory.mem_writeAll {l : List (Nat × Element)} {m : Memory} {x : Nat × Element}
    (h : x ∈ m.writeAll l) : x ∈ l ∨ x ∈ m := by
  induction l generalizing m with
  | nil => exact .inr h
  | cons y l ih =>
    rcases ih (m := m.write y.1 y.2) h with h | h
    · exact .inl (by simp [h])
    · rcases Memory.mem_write h with h | h
      · exact .inl (by simp [h])
      · exact .inr h

/-- A list of writes keeps the canonical form. -/
theorem Memory.wf_writeAll {m : Memory} (h : m.wf) (l : List (Nat × Element)) : (m.writeAll l).wf := by
  induction l generalizing m with
  | nil => exact h
  | cons y l ih => exact ih (Memory.wf_write h y.1 y.2)

/-- Clearing the tags keeps every value and makes every tag DATA (R361). -/
theorem Memory.read_clearTags (ep : Nat) (m : Memory) (a : Nat) :
    Memory.read ep m.clearTags a = { Memory.read ep m a with tag := .data } := by
  induction m with
  | nil => rfl
  | cons y m ih =>
    by_cases h : a = y.1
    · simp [Memory.clearTags, Memory.read, h]
    · simpa [Memory.clearTags, Memory.read, h] using ih

/-- Clearing the tags keeps the canonical form. -/
theorem Memory.wf_clearTags {m : Memory} (h : m.wf) : m.clearTags.wf := by
  simpa [Memory.wf, Memory.clearTags, List.pairwise_map] using h

/-- Memory after reset is in canonical form. -/
theorem reset_mem_wf : State.reset.mem.wf := List.Pairwise.nil

/-! The same, as reads of a state. -/

/-- Reading an element after one element write. -/
theorem State.elem_memWrite (s : State) (a b : Nat) (v : Word) :
    (s.memWrite a v).elem b = if b = a then Element.ofWord v .data else s.elem b :=
  Memory.read_write s.epoch s.mem a b _

/-- Reading an element that a command's writes do not name. -/
theorem State.elem_memWriteAll_of_forall_ne (s : State) (l : List (Nat × Element)) (b : Nat)
    (h : ∀ x ∈ l, x.1 ≠ b) : (s.memWriteAll l).elem b = s.elem b :=
  Memory.read_writeAll_of_forall_ne s.epoch l s.mem b h

/-- Reading an element that a command's writes, each to an address of its own, name. -/
theorem State.elem_memWriteAll_of_mem (s : State) (l : List (Nat × Element)) (b : Nat) (e : Element)
    (hd : l.Pairwise (fun x y => x.1 ≠ y.1)) (h : (b, e) ∈ l) : (s.memWriteAll l).elem b = e :=
  Memory.read_writeAll_of_mem s.epoch l s.mem b e hd h

/-- Soft reset keeps every element's value and makes its tag DATA (R361). -/
theorem State.elem_softReset (s : State) (a : Nat) :
    s.softReset.elem a = { s.elem a with tag := .data } :=
  Memory.read_clearTags s.epoch s.mem a

end Sys2Proof.Machine
end

