-- ==== Sys2Proof/Laws/Registers.lean ====
section
/-! SUPPORT. Reading a register after a write, and reading the cleared register file. -/

namespace Sys2Proof.Machine

open Sys2Proof

/-- What any register holds after one register write. -/
theorem State.reg_setReg (s : State) (r q : Reg) (v : Word) :
    (s.setReg r v).reg q = if q = r then v else s.reg q := by
  by_cases h : q = r
  · subst h; simp [State.reg]
  · have : r.val ≠ q.val := fun h' => h (Fin.ext h'.symm)
    simp [State.reg, h, this]

@[simp] theorem State.reg_setReg_same (s : State) (r : Reg) (v : Word) : (s.setReg r v).reg r = v := by
  simp [State.reg_setReg]

@[simp] theorem State.reg_setReg_ne (s : State) {r q : Reg} (v : Word) (h : q ≠ r) :
    (s.setReg r v).reg q = s.reg q := by
  simp [State.reg_setReg, h]

@[simp] theorem State.reg_writeResult_same (s : State) (r : Reg) (n : Nat) :
    (s.writeResult r n).reg r = BitVec.ofNat 256 n :=
  State.reg_setReg_same s r _

@[simp] theorem State.reg_writeResult_ne (s : State) {r q : Reg} (n : Nat) (h : q ≠ r) :
    (s.writeResult r n).reg q = s.reg q :=
  State.reg_setReg_ne s _ h

@[simp] theorem State.reg_softReset (s : State) (r : Reg) : s.softReset.reg r = 0#256 := by
  simp [State.reg]

@[simp] theorem State.reg_powerOn (c : Config) (r : Reg) : (State.powerOn c).reg r = 0#256 := by
  simp [State.reg, State.powerOn]

end Sys2Proof.Machine
end

