-- ==== Sys2Proof/Laws/Commands.lean ====
section
/-! SUPPORT. What a command can do, said once: it fails on the state before it, or a family rule's effect retires. -/

namespace Sys2Proof.Machine

open Sys2Proof

/-- Nothing around a command changes when nothing changes. -/
theorem SameSurroundings.refl (s : State) : SameSurroundings s s := ⟨rfl, rfl, rfl, rfl, rfl, rfl⟩

/-- Error entry is `Fails` (R322). -/
theorem fails_raise (s : State) (e : ErrorName) : Fails e.code s (s.raise e) where
  regs    := fun _ => rfl
  flags   := ⟨rfl, rfl⟩
  field   := ⟨rfl, rfl, rfl, rfl⟩
  elems   := fun _ => rfl
  fifo    := rfl
  retired := rfl
  halted  := rfl
  errCode := rfl
  errCmd  := fun c h => by simp [State.raise, State.headWord, List.headD_eq_head?_getD, h]
  errSeq  := rfl
  irqPend := rfl
  around  := ⟨rfl, rfl, rfl, rfl, rfl, rfl⟩

/-- What no family rule writes, `sources` being the interrupt sources the command itself makes pending. -/
structure RuleEffect (sources : BitVec 3) (s u : State) : Prop where
  fifo    : u.fifo = s.fifo
  retired : u.retired = s.retired
  halted  : u.halted = s.halted
  errCode : u.errCode = s.errCode
  errCmd  : u.errCmd = s.errCmd
  errSeq  : u.errSeq = s.errSeq
  irqPend : u.irqPend = s.irqPend ||| sources
  around  : SameSurroundings s u

/-- A family rule's effect, retired, is `Retires` (R320). -/
theorem RuleEffect.retires {sources : BitVec 3} {s u : State} (h : RuleEffect sources s u) :
    Retires sources s u.retire where
  fifo    := by simp [h.fifo]
  retired := by simp [h.retired]
  irqPend := by
    simp only [State.retire_irqPend, h.irqPend, h.fifo, List.isEmpty_iff]
    split <;> simp [irqIdle]
  halted  := h.halted
  errCode := h.errCode
  errCmd  := h.errCmd
  errSeq  := h.errSeq
  around  := ⟨h.around.cfg, h.around.irqEn, h.around.cmdDropped, h.around.epoch, h.around.turns, h.around.reads⟩

/-- The rule that does nothing. -/
theorem RuleEffect.refl (s : State) : RuleEffect 0b000#3 s s :=
  ⟨rfl, rfl, rfl, rfl, rfl, rfl, by simp, SameSurroundings.refl s⟩

theorem RuleEffect.setReg (s : State) (r : Reg) (v : Word) : RuleEffect 0b000#3 s (s.setReg r v) :=
  ⟨rfl, rfl, rfl, rfl, rfl, rfl, by simp, ⟨rfl, rfl, rfl, rfl, rfl, rfl⟩⟩

theorem RuleEffect.writeResult (s : State) (r : Reg) (n : Nat) : RuleEffect 0b000#3 s (s.writeResult r n) :=
  RuleEffect.setReg s r _

theorem RuleEffect.memWrite (s : State) (a : Nat) (v : Word) : RuleEffect 0b000#3 s (s.memWrite a v) :=
  ⟨rfl, rfl, rfl, rfl, rfl, rfl, by simp, ⟨rfl, rfl, rfl, rfl, rfl, rfl⟩⟩

theorem RuleEffect.memWriteAll (s : State) (l : List (Nat × Element)) : RuleEffect 0b000#3 s (s.memWriteAll l) :=
  ⟨rfl, rfl, rfl, rfl, rfl, rfl, by simp, ⟨rfl, rfl, rfl, rfl, rfl, rfl⟩⟩

theorem RuleEffect.setFlags {s u : State} (h : RuleEffect 0b000#3 s u) (c z : Bool) :
    RuleEffect 0b000#3 s (u.setFlags c z) :=
  ⟨h.fifo, h.retired, h.halted, h.errCode, h.errCmd, h.errSeq, h.irqPend,
    ⟨h.around.cfg, h.around.irqEn, h.around.cmdDropped, h.around.epoch, h.around.turns, h.around.reads⟩⟩

/-! ## Commands of one shape -/

/-- A command whose only effect is one register. -/
theorem writesOnlyReg_setReg (s : State) (rd : Reg) (v : Word) :
    WritesOnlyReg rd v s (s.setReg rd v).retire where
  result  := by simp
  regs    := fun r hr => by simp [hr]
  flags   := ⟨rfl, rfl⟩
  field   := ⟨rfl, rfl, rfl, rfl⟩
  elems   := fun _ => rfl
  retires := (RuleEffect.setReg s rd v).retires

/-- A command whose only effects are one register and the flags. -/
theorem writesRegAndFlags_writeResult (s : State) (rd : Reg) (n : Nat) (c z : Bool) :
    WritesRegAndFlags rd (BitVec.ofNat 256 n) c z s ((s.writeResult rd n).setFlags c z).retire where
  result  := by simp
  regs    := fun r hr => by simp [hr]
  carry   := rfl
  zero    := rfl
  field   := ⟨rfl, rfl, rfl, rfl⟩
  elems   := fun _ => rfl
  retires := ((RuleEffect.writeResult s rd n).setFlags c z).retires

/-- A command whose only effects are elements. -/
theorem writesOnlyElems_memWriteAll (s : State) (l : List (Nat × Element)) :
    WritesOnlyElems s (s.memWriteAll l).retire where
  regs    := fun _ => rfl
  flags   := ⟨rfl, rfl⟩
  field   := ⟨rfl, rfl, rfl, rfl⟩
  retires := (RuleEffect.memWriteAll s l).retires

/-- The three ends of a field command of one operand (R210). -/
theorem fieldUnary_ends (rd rs1 : Reg) (f : Nat → Nat) (s : State) :
    (s.fieldReady = false ∧ fieldUnary rd rs1 f s = fail .fieldNotReady s) ∨
    (s.fieldReady = true ∧ s.modN ≤ s.fieldOperand rs1 ∧ fieldUnary rd rs1 f s = fail .outOfRange s) ∨
    (s.fieldReady = true ∧ s.fieldOperand rs1 < s.modN ∧
      fieldUnary rd rs1 f s = complete (s.writeResult rd (f (s.fieldOperand rs1)))) := by
  unfold fieldUnary
  cases hr : s.fieldReady
  · simp
  · by_cases h : s.fieldOperand rs1 < s.modN
    · simp [State.canonical, h]
    · simp [State.canonical, h, Nat.le_of_not_lt h]

/-- The three ends of a field command of two operands (R210). -/
theorem fieldBinary_ends (rd rs1 rs2 : Reg) (f : Nat → Nat → Nat) (s : State) :
    (s.fieldReady = false ∧ fieldBinary rd rs1 rs2 f s = fail .fieldNotReady s) ∨
    (s.fieldReady = true ∧ (s.modN ≤ s.fieldOperand rs1 ∨ s.modN ≤ s.fieldOperand rs2) ∧
      fieldBinary rd rs1 rs2 f s = fail .outOfRange s) ∨
    (s.fieldReady = true ∧ s.fieldOperand rs1 < s.modN ∧ s.fieldOperand rs2 < s.modN ∧
      fieldBinary rd rs1 rs2 f s = complete (s.writeResult rd (f (s.fieldOperand rs1) (s.fieldOperand rs2)))) := by
  unfold fieldBinary
  cases hr : s.fieldReady
  · simp
  · by_cases h1 : s.fieldOperand rs1 < s.modN
    · by_cases h2 : s.fieldOperand rs2 < s.modN
      · simp [State.canonical, h1, h2]
      · simp [State.canonical, h1, h2, Nat.le_of_not_lt h2]
    · simp [State.canonical, h1, Nat.le_of_not_lt h1]

/-! ## Any command -/

/-- What a command itself makes pending (R311). -/
def commandSources : Instr → BitVec 3
  | .sync true => 0b010#3
  | _ => 0b000#3

/-- Every command ends in one of two ways. -/
def Ends (i : Instr) (s : State) (r : StepResult) : Prop :=
  (∃ e, r = fail e s) ∨ ∃ u, r = complete u ∧ RuleEffect (commandSources i) s u

theorem ends_of_complete {i : Instr} {s u : State} (h : RuleEffect (commandSources i) s u) :
    Ends i s (complete u) := .inr ⟨u, rfl, h⟩

theorem ends_of_fail (i : Instr) (s : State) (e : ErrorName) : Ends i s (fail e s) := .inl ⟨e, rfl⟩

theorem ends_fieldUnary {i : Instr} (hi : commandSources i = 0b000#3) (rd rs1 : Reg) (f : Nat → Nat) (s : State) :
    Ends i s (fieldUnary rd rs1 f s) := by
  rcases fieldUnary_ends rd rs1 f s with ⟨_, h⟩ | ⟨_, _, h⟩ | ⟨_, _, h⟩ <;> rw [h]
  · exact ends_of_fail ..
  · exact ends_of_fail ..
  · exact ends_of_complete (hi ▸ RuleEffect.writeResult ..)

theorem ends_fieldBinary {i : Instr} (hi : commandSources i = 0b000#3) (rd rs1 rs2 : Reg) (f : Nat → Nat → Nat)
    (s : State) : Ends i s (fieldBinary rd rs1 rs2 f s) := by
  rcases fieldBinary_ends rd rs1 rs2 f s with ⟨_, h⟩ | ⟨_, _, h⟩ | ⟨_, _, _, h⟩ <;> rw [h]
  · exact ends_of_fail ..
  · exact ends_of_fail ..
  · exact ends_of_complete (hi ▸ RuleEffect.writeResult ..)

theorem ends_finishAdd {i : Instr} (hi : commandSources i = 0b000#3) (rd : Reg) (w : Width) (n : Nat) (s : State) :
    Ends i s (finishAdd rd w n s) := by
  unfold finishAdd
  exact ends_of_complete (hi ▸ (RuleEffect.writeResult ..).setFlags _ _)

theorem ends_finishSub {i : Instr} (hi : commandSources i = 0b000#3) (rd : Reg) (w : Width) (a b n : Nat)
    (s : State) : Ends i s (finishSub rd w a b n s) := by
  unfold finishSub
  exact ends_of_complete (hi ▸ (RuleEffect.writeResult ..).setFlags _ _)

theorem ends_writeResult {i : Instr} (hi : commandSources i = 0b000#3) (rd : Reg) (n : Nat) (s : State) :
    Ends i s (complete (s.writeResult rd n)) :=
  ends_of_complete (hi ▸ RuleEffect.writeResult ..)

/-- What exec can answer, for every command: an error on the state before the command, or the retirement of an effect that touches none of the bookkeeping. -/
theorem exec_ends (i : Instr) (s : State) : Ends i s (exec i s) := by
  cases i with
  | nop =>
    rw [exec_nop, execNop]
    exact ends_of_complete (RuleEffect.refl s)
  | sync irq =>
    rw [exec_sync, execSync]
    cases irq
    · exact ends_of_complete (RuleEffect.refl s)
    · exact ends_of_complete ⟨rfl, rfl, rfl, rfl, rfl, rfl, rfl, ⟨rfl, rfl, rfl, rfl, rfl, rfl⟩⟩
  | add rd rs1 rs2 w =>
    rw [exec_add, execAdd]
    exact ends_finishAdd rfl ..
  | adc rd rs1 rs2 w =>
    rw [exec_adc, execAdc]
    exact ends_finishAdd rfl ..
  | sub rd rs1 rs2 w =>
    rw [exec_sub, execSub]
    exact ends_finishSub rfl ..
  | sbb rd rs1 rs2 w =>
    rw [exec_sbb, execSbb]
    exact ends_finishSub rfl ..
  | cmp rs1 rs2 w =>
    rw [exec_cmp, execCmp]
    exact ends_of_complete ((RuleEffect.refl s).setFlags _ _)
  | and rd rs1 rs2 w =>
    rw [exec_and, execAnd]
    exact ends_writeResult rfl ..
  | shr rd rs1 shamt w =>
    rw [exec_shr, execShr]
    exact ends_writeResult rfl ..
  | shl rd rs1 shamt w =>
    rw [exec_shl, execShl]
    exact ends_writeResult rfl ..
  | mul rd rs1 rs2 w =>
    rw [exec_mul, execMul]
    exact ends_writeResult rfl ..
  | mulb rd rs1 rs2 w =>
    rw [exec_mulb, execMulb]
    exact ends_writeResult rfl ..
  | mov rd rs1 w =>
    rw [exec_mov, execMov]
    exact ends_writeResult rfl ..
  | li rd imm32 =>
    rw [exec_li, execLi]
    exact ends_writeResult rfl ..
  | fcfg rn rr2 rni =>
    rw [exec_fcfg, execFcfg]
    split
    · exact ends_of_fail ..
    split
    · exact ends_of_fail ..
    · exact ends_of_complete ⟨rfl, rfl, rfl, rfl, rfl, rfl, by simp [commandSources], ⟨rfl, rfl, rfl, rfl, rfl, rfl⟩⟩
  | fadd rd rs1 rs2 =>
    rw [exec_fadd, execFadd]
    exact ends_fieldBinary rfl ..
  | fsub rd rs1 rs2 =>
    rw [exec_fsub, execFsub]
    exact ends_fieldBinary rfl ..
  | fmul rd rs1 rs2 =>
    rw [exec_fmul, execFmul]
    exact ends_fieldBinary rfl ..
  | fsqr rd rs1 =>
    rw [exec_fsqr, execFsqr]
    exact ends_fieldUnary rfl ..
  | finv rd rs1 =>
    rw [exec_finv, execFinv]
    repeat' split
    all_goals first | exact ends_of_fail .. | exact ends_of_complete (RuleEffect.writeResult ..)
  | fpow rd rs1 rs2 =>
    rw [exec_fpow, execFpow]
    exact ends_fieldUnary rfl ..
  | ftom rd rs1 =>
    rw [exec_ftom, execFtom]
    exact ends_fieldUnary rfl ..
  | ffromm rd rs1 =>
    rw [exec_ffromm, execFfromm]
    exact ends_fieldUnary rfl ..
  | ld rd p =>
    rw [exec_ld, execLd]
    repeat' split
    all_goals first | exact ends_of_fail .. | exact ends_of_complete (RuleEffect.setReg ..)
  | st rs p =>
    rw [exec_st, execSt]
    repeat' split
    all_goals first | exact ends_of_fail .. | exact ends_of_complete (RuleEffect.memWrite ..)
  | twgen ord rs1 ks dst =>
    rw [exec_twgen, execTwgen]
    repeat' split
    all_goals first | exact ends_of_fail .. | exact ends_of_complete (RuleEffect.memWriteAll ..)
  | bitrev k dst src =>
    rw [exec_bitrev, execBitrev]
    repeat' split
    all_goals first | exact ends_of_fail .. | exact ends_of_complete (RuleEffect.memWriteAll ..)
  | bfly mode gl k tw buf =>
    rw [exec_bfly, execBfly]
    repeat' split
    all_goals first | exact ends_of_fail .. | exact ends_of_complete (RuleEffect.memWriteAll ..)

/-! ## The step -/

/-- With no turn given, the core moves. -/
theorem step_core {s : State} (h : s.turns = []) : step s = coreStep s := by
  simp [step, takeTurn, h]

/-- The core, running and with a command at the head, executes that command (R320). -/
theorem coreStep_head {s : State} {c : Word64} (hh : s.halted = false) (hc : s.fifo.head? = some c) :
    coreStep s = executeWord c s := by
  cases hf : s.fifo with
  | nil => simp [hf] at hc
  | cons d rest =>
    have : d = c := by simpa [hf] using hc
    simp [coreStep, hh, hf, this]

/-- The step of a state whose core runs `c`. -/
theorem step_runs {s : State} {c : Word64} (h : s.Runs c) : step s = executeWord c s := by
  rw [step_core h.turn, coreStep_head h.running h.head]

end Sys2Proof.Machine
end

