-- ==== Sys2Proof/Laws/Encoding.lean ====
section
/-! SUPPORT. What the decoder reads from each format (R132 to R140): the opcode, each field, and the must-be-zero mask. -/

namespace Sys2Proof

/-- A word whose opcode selects a row and whose must-be-zero bits are 0 is that row's command (R144). -/
theorem decode_of_row {c mask : Word64} {op : BitVec 8} {i : Instr} (hop : wordOpcode c = op)
    (hrow : opcodeRow op.toNat c = some (mask, i)) (hmask : c &&& mask = op.setWidth 64 <<< 56) :
    decode c = .command i := by
  simp [decode, hop, hrow, hmask]

theorem toFin_of_regField {x : BitVec 4} {r : Reg} (h : x = regField r) : x.toFin = r := by
  subst h; rfl

theorem toNat_of_ofNat {n x : Nat} {v : BitVec n} (h : v = BitVec.ofNat n x) (hx : x < 2 ^ n) : v.toNat = x := by
  subst h; simp [Nat.mod_eq_of_lt hx]

theorem width_of_bit (w : Width) : (if w.bit.getLsbD 0 then Width.w128 else Width.w256) = w := by
  cases w <;> rfl

theorem ord_of_bit (o : TwOrder) : (if o.bit.getLsbD 0 then TwOrder.rev else TwOrder.nat) = o := by
  cases o <;> rfl

theorem mode_of_bit (m : Mode) : (if m.bit.getLsbD 0 then Mode.rn else Mode.nr) = m := by
  cases m <;> rfl

/-! ## Format N -/

theorem wordOpcode_formatN (op : BitVec 8) (irq : Bool) : wordOpcode (formatN op irq) = op := by
  unfold wordOpcode
  apply BitVec.eq_of_getLsbD_eq
  intro i hi
  simp only [formatN, BitVec.getLsbD_extractLsb', BitVec.getLsbD_append]
  interval_cases i <;> simp

theorem wordIrq_formatN (op : BitVec 8) (irq : Bool) : wordIrq (formatN op irq) = irq := by
  simp only [wordIrq, formatN, BitVec.getLsbD_append]
  simp

theorem mask_formatN (op : BitVec 8) (irq : Bool) :
    formatN op irq &&& 0xFFFFFFFFFFFFFFFE#64 = op.setWidth 64 <<< 56 := by
  apply BitVec.eq_of_getLsbD_eq
  intro i hi
  simp only [formatN, BitVec.getLsbD_and, BitVec.getLsbD_append, BitVec.getLsbD_shiftLeft, BitVec.getLsbD_setWidth]
  interval_cases i <;> simp

theorem mask_formatN_zero (op : BitVec 8) :
    formatN op false &&& 0xFFFFFFFFFFFFFFFF#64 = op.setWidth 64 <<< 56 := by
  apply BitVec.eq_of_getLsbD_eq
  intro i hi
  simp only [formatN, BitVec.getLsbD_and, BitVec.getLsbD_append, BitVec.getLsbD_shiftLeft, BitVec.getLsbD_setWidth]
  interval_cases i <;> simp

/-! ## Format R -/

theorem wordOpcode_formatR (op : BitVec 8) (a b cr : Reg) (w : Width) : wordOpcode (formatR op a b cr w) = op := by
  unfold wordOpcode
  apply BitVec.eq_of_getLsbD_eq
  intro i hi
  simp only [formatR, BitVec.getLsbD_extractLsb', BitVec.getLsbD_append]
  interval_cases i <;> simp

theorem wordA_formatR (op : BitVec 8) (a b cr : Reg) (w : Width) : wordA (formatR op a b cr w) = a := by
  apply toFin_of_regField
  apply BitVec.eq_of_getLsbD_eq
  intro i hi
  simp only [formatR, BitVec.getLsbD_extractLsb', BitVec.getLsbD_append]
  interval_cases i <;> simp

theorem wordB_formatR (op : BitVec 8) (a b cr : Reg) (w : Width) : wordB (formatR op a b cr w) = b := by
  apply toFin_of_regField
  apply BitVec.eq_of_getLsbD_eq
  intro i hi
  simp only [formatR, BitVec.getLsbD_extractLsb', BitVec.getLsbD_append]
  interval_cases i <;> simp

theorem wordCr_formatR (op : BitVec 8) (a b cr : Reg) (w : Width) : wordCr (formatR op a b cr w) = cr := by
  apply toFin_of_regField
  apply BitVec.eq_of_getLsbD_eq
  intro i hi
  simp only [formatR, BitVec.getLsbD_extractLsb', BitVec.getLsbD_append]
  interval_cases i <;> simp

theorem wordW_formatR (op : BitVec 8) (a b cr : Reg) (w : Width) : wordW (formatR op a b cr w) = w := by
  have h : (formatR op a b cr w).getLsbD 43 = w.bit.getLsbD 0 := by
    simp only [formatR, BitVec.getLsbD_append]
    simp
  rw [wordW, h, width_of_bit]

theorem mask_formatR (op : BitVec 8) (a b cr : Reg) (w : Width) :
    formatR op a b cr w &&& 0xFF0007FFFFFFFFFF#64 = op.setWidth 64 <<< 56 := by
  apply BitVec.eq_of_getLsbD_eq
  intro i hi
  simp only [formatR, BitVec.getLsbD_and, BitVec.getLsbD_append, BitVec.getLsbD_shiftLeft, BitVec.getLsbD_setWidth]
  interval_cases i <;> simp

theorem mask_formatR_noA (op : BitVec 8) (b cr : Reg) (w : Width) :
    formatR op 0 b cr w &&& 0xFFF007FFFFFFFFFF#64 = op.setWidth 64 <<< 56 := by
  apply BitVec.eq_of_getLsbD_eq
  intro i hi
  simp only [formatR, regField, BitVec.getLsbD_and, BitVec.getLsbD_append, BitVec.getLsbD_shiftLeft, BitVec.getLsbD_setWidth]
  interval_cases i <;> simp

theorem mask_formatR_noCr (op : BitVec 8) (a b : Reg) (w : Width) :
    formatR op a b 0 w &&& 0xFF00F7FFFFFFFFFF#64 = op.setWidth 64 <<< 56 := by
  apply BitVec.eq_of_getLsbD_eq
  intro i hi
  simp only [formatR, regField, BitVec.getLsbD_and, BitVec.getLsbD_append, BitVec.getLsbD_shiftLeft, BitVec.getLsbD_setWidth]
  interval_cases i <;> simp

/-! ## Format S -/

theorem wordOpcode_formatS (op : BitVec 8) (a b : Reg) (shamt : Nat) (w : Width) : wordOpcode (formatS op a b shamt w) = op := by
  unfold wordOpcode
  apply BitVec.eq_of_getLsbD_eq
  intro i hi
  simp only [formatS, BitVec.getLsbD_extractLsb', BitVec.getLsbD_append]
  interval_cases i <;> simp

theorem wordA_formatS (op : BitVec 8) (a b : Reg) (shamt : Nat) (w : Width) : wordA (formatS op a b shamt w) = a := by
  apply toFin_of_regField
  apply BitVec.eq_of_getLsbD_eq
  intro i hi
  simp only [formatS, BitVec.getLsbD_extractLsb', BitVec.getLsbD_append]
  interval_cases i <;> simp

theorem wordB_formatS (op : BitVec 8) (a b : Reg) (shamt : Nat) (w : Width) : wordB (formatS op a b shamt w) = b := by
  apply toFin_of_regField
  apply BitVec.eq_of_getLsbD_eq
  intro i hi
  simp only [formatS, BitVec.getLsbD_extractLsb', BitVec.getLsbD_append]
  interval_cases i <;> simp

theorem wordShamt_formatS (op : BitVec 8) (a b : Reg) (shamt : Nat) (w : Width) (h : shamt < 2 ^ 9) : wordShamt (formatS op a b shamt w) = shamt := by
  refine toNat_of_ofNat ?_ h
  apply BitVec.eq_of_getLsbD_eq
  intro i hi
  simp only [formatS, BitVec.getLsbD_extractLsb', BitVec.getLsbD_append]
  interval_cases i <;> simp

theorem wordW_formatS (op : BitVec 8) (a b : Reg) (shamt : Nat) (w : Width) : wordW (formatS op a b shamt w) = w := by
  have h : (formatS op a b shamt w).getLsbD 43 = w.bit.getLsbD 0 := by
    simp only [formatS, BitVec.getLsbD_append]
    simp
  rw [wordW, h, width_of_bit]

theorem mask_formatS (op : BitVec 8) (a b : Reg) (shamt : Nat) (w : Width) :
    formatS op a b shamt w &&& 0xFF00F7FFFFFFFE00#64 = op.setWidth 64 <<< 56 := by
  apply BitVec.eq_of_getLsbD_eq
  intro i hi
  simp only [formatS, BitVec.getLsbD_and, BitVec.getLsbD_append, BitVec.getLsbD_shiftLeft, BitVec.getLsbD_setWidth]
  interval_cases i <;> simp

/-! ## Format L -/

theorem wordOpcode_formatL (op : BitVec 8) (a : Reg) (imm : BitVec 32) : wordOpcode (formatL op a imm) = op := by
  unfold wordOpcode
  apply BitVec.eq_of_getLsbD_eq
  intro i hi
  simp only [formatL, BitVec.getLsbD_extractLsb', BitVec.getLsbD_append]
  interval_cases i <;> simp

theorem wordA_formatL (op : BitVec 8) (a : Reg) (imm : BitVec 32) : wordA (formatL op a imm) = a := by
  apply toFin_of_regField
  apply BitVec.eq_of_getLsbD_eq
  intro i hi
  simp only [formatL, BitVec.getLsbD_extractLsb', BitVec.getLsbD_append]
  interval_cases i <;> simp

theorem wordImm32_formatL (op : BitVec 8) (a : Reg) (imm : BitVec 32) : wordImm32 (formatL op a imm) = imm := by
  unfold wordImm32
  apply BitVec.eq_of_getLsbD_eq
  intro i hi
  simp only [formatL, BitVec.getLsbD_extractLsb', BitVec.getLsbD_append]
  interval_cases i <;> simp

theorem mask_formatL (op : BitVec 8) (a : Reg) (imm : BitVec 32) :
    formatL op a imm &&& 0xFF0FFFFF00000000#64 = op.setWidth 64 <<< 56 := by
  apply BitVec.eq_of_getLsbD_eq
  intro i hi
  simp only [formatL, BitVec.getLsbD_and, BitVec.getLsbD_append, BitVec.getLsbD_shiftLeft, BitVec.getLsbD_setWidth]
  interval_cases i <;> simp

/-! ## Format F -/

theorem wordOpcode_formatF (op : BitVec 8) (a b cr : Reg) : wordOpcode (formatF op a b cr) = op := by
  unfold wordOpcode
  apply BitVec.eq_of_getLsbD_eq
  intro i hi
  simp only [formatF, BitVec.getLsbD_extractLsb', BitVec.getLsbD_append]
  interval_cases i <;> simp

theorem wordA_formatF (op : BitVec 8) (a b cr : Reg) : wordA (formatF op a b cr) = a := by
  apply toFin_of_regField
  apply BitVec.eq_of_getLsbD_eq
  intro i hi
  simp only [formatF, BitVec.getLsbD_extractLsb', BitVec.getLsbD_append]
  interval_cases i <;> simp

theorem wordB_formatF (op : BitVec 8) (a b cr : Reg) : wordB (formatF op a b cr) = b := by
  apply toFin_of_regField
  apply BitVec.eq_of_getLsbD_eq
  intro i hi
  simp only [formatF, BitVec.getLsbD_extractLsb', BitVec.getLsbD_append]
  interval_cases i <;> simp

theorem wordCr_formatF (op : BitVec 8) (a b cr : Reg) : wordCr (formatF op a b cr) = cr := by
  apply toFin_of_regField
  apply BitVec.eq_of_getLsbD_eq
  intro i hi
  simp only [formatF, BitVec.getLsbD_extractLsb', BitVec.getLsbD_append]
  interval_cases i <;> simp

theorem mask_formatF (op : BitVec 8) (a b cr : Reg) :
    formatF op a b cr &&& 0xFF000FFFFFFFFFFF#64 = op.setWidth 64 <<< 56 := by
  apply BitVec.eq_of_getLsbD_eq
  intro i hi
  simp only [formatF, BitVec.getLsbD_and, BitVec.getLsbD_append, BitVec.getLsbD_shiftLeft, BitVec.getLsbD_setWidth]
  interval_cases i <;> simp

theorem mask_formatF_noCr (op : BitVec 8) (a b : Reg) :
    formatF op a b 0 &&& 0xFF00FFFFFFFFFFFF#64 = op.setWidth 64 <<< 56 := by
  apply BitVec.eq_of_getLsbD_eq
  intro i hi
  simp only [formatF, regField, BitVec.getLsbD_and, BitVec.getLsbD_append, BitVec.getLsbD_shiftLeft, BitVec.getLsbD_setWidth]
  interval_cases i <;> simp

/-! ## Format M -/

theorem wordOpcode_formatM (op : BitVec 8) (a : Reg) (p : Nat) : wordOpcode (formatM op a p) = op := by
  unfold wordOpcode
  apply BitVec.eq_of_getLsbD_eq
  intro i hi
  simp only [formatM, BitVec.getLsbD_extractLsb', BitVec.getLsbD_append]
  interval_cases i <;> simp

theorem wordA_formatM (op : BitVec 8) (a : Reg) (p : Nat) : wordA (formatM op a p) = a := by
  apply toFin_of_regField
  apply BitVec.eq_of_getLsbD_eq
  intro i hi
  simp only [formatM, BitVec.getLsbD_extractLsb', BitVec.getLsbD_append]
  interval_cases i <;> simp

theorem wordP_formatM (op : BitVec 8) (a : Reg) (p : Nat) (h : p < 2 ^ 18) : wordP (formatM op a p) = p := by
  refine toNat_of_ofNat ?_ h
  apply BitVec.eq_of_getLsbD_eq
  intro i hi
  simp only [formatM, BitVec.getLsbD_extractLsb', BitVec.getLsbD_append]
  interval_cases i <;> simp

theorem mask_formatM (op : BitVec 8) (a : Reg) (p : Nat) :
    formatM op a p &&& 0xFF0FFFFFFFFC0000#64 = op.setWidth 64 <<< 56 := by
  apply BitVec.eq_of_getLsbD_eq
  intro i hi
  simp only [formatM, BitVec.getLsbD_and, BitVec.getLsbD_append, BitVec.getLsbD_shiftLeft, BitVec.getLsbD_setWidth]
  interval_cases i <;> simp

/-! ## Format T -/

theorem wordOpcode_formatT (op : BitVec 8) (b : Reg) (ord : TwOrder) (k p : Nat) : wordOpcode (formatT op b ord k p) = op := by
  unfold wordOpcode
  apply BitVec.eq_of_getLsbD_eq
  intro i hi
  simp only [formatT, BitVec.getLsbD_extractLsb', BitVec.getLsbD_append]
  interval_cases i <;> simp

theorem wordB_formatT (op : BitVec 8) (b : Reg) (ord : TwOrder) (k p : Nat) : wordB (formatT op b ord k p) = b := by
  apply toFin_of_regField
  apply BitVec.eq_of_getLsbD_eq
  intro i hi
  simp only [formatT, BitVec.getLsbD_extractLsb', BitVec.getLsbD_append]
  interval_cases i <;> simp

theorem wordOrd_formatT (op : BitVec 8) (b : Reg) (ord : TwOrder) (k p : Nat) : wordOrd (formatT op b ord k p) = ord := by
  have h : (formatT op b ord k p).getLsbD 43 = ord.bit.getLsbD 0 := by
    simp only [formatT, BitVec.getLsbD_append]
    simp
  rw [wordOrd, h, ord_of_bit]

theorem wordK_formatT (op : BitVec 8) (b : Reg) (ord : TwOrder) (k p : Nat) (h : k < 2 ^ 5) : wordK (formatT op b ord k p) = k := by
  refine toNat_of_ofNat ?_ h
  apply BitVec.eq_of_getLsbD_eq
  intro i hi
  simp only [formatT, BitVec.getLsbD_extractLsb', BitVec.getLsbD_append]
  interval_cases i <;> simp

theorem wordP_formatT (op : BitVec 8) (b : Reg) (ord : TwOrder) (k p : Nat) (h : p < 2 ^ 18) : wordP (formatT op b ord k p) = p := by
  refine toNat_of_ofNat ?_ h
  apply BitVec.eq_of_getLsbD_eq
  intro i hi
  simp only [formatT, BitVec.getLsbD_extractLsb', BitVec.getLsbD_append]
  interval_cases i <;> simp

theorem mask_formatT (op : BitVec 8) (b : Reg) (ord : TwOrder) (k p : Nat) :
    formatT op b ord k p &&& 0xFFF0F60FFFFC0000#64 = op.setWidth 64 <<< 56 := by
  apply BitVec.eq_of_getLsbD_eq
  intro i hi
  simp only [formatT, BitVec.getLsbD_and, BitVec.getLsbD_append, BitVec.getLsbD_shiftLeft, BitVec.getLsbD_setWidth]
  interval_cases i <;> simp

/-! ## Format V -/

theorem wordOpcode_formatV (op : BitVec 8) (k q p : Nat) : wordOpcode (formatV op k q p) = op := by
  unfold wordOpcode
  apply BitVec.eq_of_getLsbD_eq
  intro i hi
  simp only [formatV, BitVec.getLsbD_extractLsb', BitVec.getLsbD_append]
  interval_cases i <;> simp

theorem wordK_formatV (op : BitVec 8) (k q p : Nat) (h : k < 2 ^ 5) : wordK (formatV op k q p) = k := by
  refine toNat_of_ofNat ?_ h
  apply BitVec.eq_of_getLsbD_eq
  intro i hi
  simp only [formatV, BitVec.getLsbD_extractLsb', BitVec.getLsbD_append]
  interval_cases i <;> simp

theorem wordQ_formatV (op : BitVec 8) (k q p : Nat) (h : q < 2 ^ 18) : wordQ (formatV op k q p) = q := by
  refine toNat_of_ofNat ?_ h
  apply BitVec.eq_of_getLsbD_eq
  intro i hi
  simp only [formatV, BitVec.getLsbD_extractLsb', BitVec.getLsbD_append]
  interval_cases i <;> simp

theorem wordP_formatV (op : BitVec 8) (k q p : Nat) (h : p < 2 ^ 18) : wordP (formatV op k q p) = p := by
  refine toNat_of_ofNat ?_ h
  apply BitVec.eq_of_getLsbD_eq
  intro i hi
  simp only [formatV, BitVec.getLsbD_extractLsb', BitVec.getLsbD_append]
  interval_cases i <;> simp

theorem mask_formatV (op : BitVec 8) (k q p : Nat) :
    formatV op k q p &&& 0xFFFFFE0000000000#64 = op.setWidth 64 <<< 56 := by
  apply BitVec.eq_of_getLsbD_eq
  intro i hi
  simp only [formatV, BitVec.getLsbD_and, BitVec.getLsbD_append, BitVec.getLsbD_shiftLeft, BitVec.getLsbD_setWidth]
  interval_cases i <;> simp

/-! ## Format B -/

theorem wordOpcode_formatB (op : BitVec 8) (mode : Mode) (gl k q p : Nat) : wordOpcode (formatB op mode gl k q p) = op := by
  unfold wordOpcode
  apply BitVec.eq_of_getLsbD_eq
  intro i hi
  simp only [formatB, BitVec.getLsbD_extractLsb', BitVec.getLsbD_append]
  interval_cases i <;> simp

theorem wordMode_formatB (op : BitVec 8) (mode : Mode) (gl k q p : Nat) : wordMode (formatB op mode gl k q p) = mode := by
  have h : (formatB op mode gl k q p).getLsbD 46 = mode.bit.getLsbD 0 := by
    simp only [formatB, BitVec.getLsbD_append]
    simp
  rw [wordMode, h, mode_of_bit]

theorem wordGL_formatB (op : BitVec 8) (mode : Mode) (gl k q p : Nat) (h : gl < 2 ^ 5) : wordGL (formatB op mode gl k q p) = gl := by
  refine toNat_of_ofNat ?_ h
  apply BitVec.eq_of_getLsbD_eq
  intro i hi
  simp only [formatB, BitVec.getLsbD_extractLsb', BitVec.getLsbD_append]
  interval_cases i <;> simp

theorem wordK_formatB (op : BitVec 8) (mode : Mode) (gl k q p : Nat) (h : k < 2 ^ 5) : wordK (formatB op mode gl k q p) = k := by
  refine toNat_of_ofNat ?_ h
  apply BitVec.eq_of_getLsbD_eq
  intro i hi
  simp only [formatB, BitVec.getLsbD_extractLsb', BitVec.getLsbD_append]
  interval_cases i <;> simp

theorem wordQ_formatB (op : BitVec 8) (mode : Mode) (gl k q p : Nat) (h : q < 2 ^ 18) : wordQ (formatB op mode gl k q p) = q := by
  refine toNat_of_ofNat ?_ h
  apply BitVec.eq_of_getLsbD_eq
  intro i hi
  simp only [formatB, BitVec.getLsbD_extractLsb', BitVec.getLsbD_append]
  interval_cases i <;> simp

theorem wordP_formatB (op : BitVec 8) (mode : Mode) (gl k q p : Nat) (h : p < 2 ^ 18) : wordP (formatB op mode gl k q p) = p := by
  refine toNat_of_ofNat ?_ h
  apply BitVec.eq_of_getLsbD_eq
  intro i hi
  simp only [formatB, BitVec.getLsbD_extractLsb', BitVec.getLsbD_append]
  interval_cases i <;> simp

theorem mask_formatB (op : BitVec 8) (mode : Mode) (gl k q p : Nat) :
    formatB op mode gl k q p &&& 0xFFFF800000000000#64 = op.setWidth 64 <<< 56 := by
  apply BitVec.eq_of_getLsbD_eq
  intro i hi
  simp only [formatB, BitVec.getLsbD_and, BitVec.getLsbD_append, BitVec.getLsbD_shiftLeft, BitVec.getLsbD_setWidth]
  interval_cases i <;> simp

end Sys2Proof
end

