-- ==== Sys2Proof/Laws/Host.lean ====
section
/-! SUPPORT. What a host access does, said once: its offset, what a read answers, what a write leaves, and where the windows lie. -/

namespace Sys2Proof.Machine

open Sys2Proof

/-- A 64-bit access at an aligned offset inside the block has that offset (R84, R85). -/
theorem mmioOffset_aligned (cfg : Config) {off : Nat} (h : off < 0x1000000) (h8 : off % 8 = 0) :
    mmioOffset cfg 64 (cfg.mmioBase + off) = .ok off := by
  have h1 : ¬ (cfg.mmioBase + off < cfg.mmioBase ∨ cfg.mmioBase + mmioSize ≤ cfg.mmioBase + off) := by
    simp only [mmioSize]
    omega
  rw [mmioOffset, if_neg h1, if_neg (by simp [h8]), Nat.add_sub_cancel_left]

/-- The value a register or window shows does not depend on the turns. -/
theorem mmioValue_turns (s : State) (rest : List Turn) (m : MmioReg) :
    ({ s with turns := rest } : State).mmioValue m = s.mmioValue m := by
  cases m <;> rfl

/-- A host read returns the value its offset shows and changes nothing else (R90). -/
theorem step_hostRead {s : State} {off : Nat} {rest : List Turn}
    (h : s.HostMoves (.read 64 (s.cfg.mmioBase + off)) rest) (hlt : off < 0x1000000) (h8 : off % 8 = 0) :
    step s = .next { s with turns := rest, reads := s.mmioValue (mmioMap s.cfg off) :: s.reads } := by
  have hm := mmioValue_turns s rest (mmioMap s.cfg off)
  simp only [step, takeTurn, show s.turns = _ from h, hostAccess, mmioOffset_aligned _ hlt h8, hm]

/-- A host write does what its offset's register says. -/
theorem step_hostWrite {s : State} {off : Nat} {v : Word64} {rest : List Turn}
    (h : s.HostMoves (.write 64 (s.cfg.mmioBase + off) v) rest) (hlt : off < 0x1000000) (h8 : off % 8 = 0) :
    step s = .next (({ s with turns := rest } : State).mmioWrite (mmioMap s.cfg off) v) := by
  simp only [step, takeTurn, show s.turns = _ from h, hostAccess, mmioOffset_aligned _ hlt h8]

/-- Word q of register r lies at 0x200 + 32r + 8q (R74). -/
theorem mmioMap_regWord (cfg : Config) (r : Reg) (q : Fin 4) :
    mmioMap cfg (0x200 + 32 * r.val + 8 * q.val) = .regWord r q := by
  have hr := r.isLt
  have hq := q.isLt
  unfold mmioMap windowWord
  repeat' split
  all_goals first | omega | skip
  congr 1
  · apply Fin.ext
    simp only [Fin.val_ofNat]
    omega
  · apply Fin.ext
    simp only [Fin.val_ofNat]
    omega

/-- Word q of element j lies at 0x800000 + 32j + 8q (R75). -/
theorem mmioMap_elemWord (cfg : Config) {j : Nat} (q : Fin 4) (hj : j < cfg.ememN) :
    mmioMap cfg (0x800000 + 32 * j + 8 * q.val) = .elemWord j q := by
  have hq := q.isLt
  unfold mmioMap windowWord
  repeat' split
  all_goals first | omega | skip
  congr 1
  · omega
  · apply Fin.ext
    simp only [Fin.val_ofNat]
    omega

/-- Word q of N, R2 and NINV lies at 0x100, 0x120 and 0x140 + 8q (R73). -/
theorem mmioMap_fieldWord (cfg : Config) (q : Fin 4) :
    mmioMap cfg (0x100 + 8 * q.val) = .wordN q ∧ mmioMap cfg (0x120 + 8 * q.val) = .wordR2 q ∧
    mmioMap cfg (0x140 + 8 * q.val) = .wordNinv q := by
  match q with
  | 0 => exact ⟨rfl, rfl, rfl⟩
  | 1 => exact ⟨rfl, rfl, rfl⟩
  | 2 => exact ⟨rfl, rfl, rfl⟩
  | 3 => exact ⟨rfl, rfl, rfl⟩

end Sys2Proof.Machine
end

