-- ==== Sys2Proof/Laws/PerInstr.lean ====
section
/-! SUPPORT. Family RoundTrip, for every command as syntax: a well-formed command's word decodes to it. -/

namespace Sys2Proof.Laws.RoundTrip

open Sys2Proof

/-- The word of a well-formed command decodes to that command (R142, R144). -/
def Statement (i : Instr) : Prop := i.wellFormed = true → decode (encode i) = .command i

theorem nop : Statement (.nop) := by
  intro _
  refine decode_of_row (wordOpcode_formatN ..) ?_ (mask_formatN_zero ..)
  rfl

theorem sync (irq : Bool) : Statement (.sync irq) := by
  intro _
  refine decode_of_row (wordOpcode_formatN ..) ?_ (mask_formatN ..)
  simp only [encode, opcodeRow, BitVec.reduceToNat, wordIrq_formatN]
  rfl

theorem add (rd rs1 rs2 : Reg) (w : Width) : Statement (.add rd rs1 rs2 w) := by
  intro _
  refine decode_of_row (wordOpcode_formatR ..) ?_ (mask_formatR ..)
  simp only [encode, opcodeRow, BitVec.reduceToNat, wordA_formatR, wordB_formatR, wordCr_formatR, wordW_formatR]
  rfl

theorem adc (rd rs1 rs2 : Reg) (w : Width) : Statement (.adc rd rs1 rs2 w) := by
  intro _
  refine decode_of_row (wordOpcode_formatR ..) ?_ (mask_formatR ..)
  simp only [encode, opcodeRow, BitVec.reduceToNat, wordA_formatR, wordB_formatR, wordCr_formatR, wordW_formatR]
  rfl

theorem sub (rd rs1 rs2 : Reg) (w : Width) : Statement (.sub rd rs1 rs2 w) := by
  intro _
  refine decode_of_row (wordOpcode_formatR ..) ?_ (mask_formatR ..)
  simp only [encode, opcodeRow, BitVec.reduceToNat, wordA_formatR, wordB_formatR, wordCr_formatR, wordW_formatR]
  rfl

theorem sbb (rd rs1 rs2 : Reg) (w : Width) : Statement (.sbb rd rs1 rs2 w) := by
  intro _
  refine decode_of_row (wordOpcode_formatR ..) ?_ (mask_formatR ..)
  simp only [encode, opcodeRow, BitVec.reduceToNat, wordA_formatR, wordB_formatR, wordCr_formatR, wordW_formatR]
  rfl

theorem cmp (rs1 rs2 : Reg) (w : Width) : Statement (.cmp rs1 rs2 w) := by
  intro _
  refine decode_of_row (wordOpcode_formatR ..) ?_ (mask_formatR_noA ..)
  simp only [encode, opcodeRow, BitVec.reduceToNat, wordB_formatR, wordCr_formatR, wordW_formatR]
  rfl

theorem and (rd rs1 rs2 : Reg) (w : Width) : Statement (.and rd rs1 rs2 w) := by
  intro _
  refine decode_of_row (wordOpcode_formatR ..) ?_ (mask_formatR ..)
  simp only [encode, opcodeRow, BitVec.reduceToNat, wordA_formatR, wordB_formatR, wordCr_formatR, wordW_formatR]
  rfl

theorem shr (rd rs1 : Reg) (shamt : Nat) (w : Width) : Statement (.shr rd rs1 shamt w) := by
  intro hw
  simp only [Instr.wellFormed, shamtFits, decide_eq_true_eq] at hw
  refine decode_of_row (wordOpcode_formatS ..) ?_ (mask_formatS ..)
  simp only [encode, opcodeRow, BitVec.reduceToNat, wordA_formatS, wordB_formatS, wordShamt_formatS (h := hw), wordW_formatS]
  rfl

theorem shl (rd rs1 : Reg) (shamt : Nat) (w : Width) : Statement (.shl rd rs1 shamt w) := by
  intro hw
  simp only [Instr.wellFormed, shamtFits, decide_eq_true_eq] at hw
  refine decode_of_row (wordOpcode_formatS ..) ?_ (mask_formatS ..)
  simp only [encode, opcodeRow, BitVec.reduceToNat, wordA_formatS, wordB_formatS, wordShamt_formatS (h := hw), wordW_formatS]
  rfl

theorem mul (rd rs1 rs2 : Reg) (w : Width) : Statement (.mul rd rs1 rs2 w) := by
  intro _
  refine decode_of_row (wordOpcode_formatR ..) ?_ (mask_formatR ..)
  simp only [encode, opcodeRow, BitVec.reduceToNat, wordA_formatR, wordB_formatR, wordCr_formatR, wordW_formatR]
  rfl

theorem mulb (rd rs1 rs2 : Reg) (w : Width) : Statement (.mulb rd rs1 rs2 w) := by
  intro _
  refine decode_of_row (wordOpcode_formatR ..) ?_ (mask_formatR ..)
  simp only [encode, opcodeRow, BitVec.reduceToNat, wordA_formatR, wordB_formatR, wordCr_formatR, wordW_formatR]
  rfl

theorem mov (rd rs1 : Reg) (w : Width) : Statement (.mov rd rs1 w) := by
  intro _
  refine decode_of_row (wordOpcode_formatR ..) ?_ (mask_formatR_noCr ..)
  simp only [encode, opcodeRow, BitVec.reduceToNat, wordA_formatR, wordB_formatR, wordW_formatR]
  rfl

theorem li (rd : Reg) (imm32 : BitVec 32) : Statement (.li rd imm32) := by
  intro _
  refine decode_of_row (wordOpcode_formatL ..) ?_ (mask_formatL ..)
  simp only [encode, opcodeRow, BitVec.reduceToNat, wordA_formatL, wordImm32_formatL]
  rfl

theorem fcfg (rn rr2 rni : Reg) : Statement (.fcfg rn rr2 rni) := by
  intro _
  refine decode_of_row (wordOpcode_formatF ..) ?_ (mask_formatF ..)
  simp only [encode, opcodeRow, BitVec.reduceToNat, wordB_formatF, wordCr_formatF, wordA_formatF]
  rfl

theorem fadd (rd rs1 rs2 : Reg) : Statement (.fadd rd rs1 rs2) := by
  intro _
  refine decode_of_row (wordOpcode_formatF ..) ?_ (mask_formatF ..)
  simp only [encode, opcodeRow, BitVec.reduceToNat, wordA_formatF, wordB_formatF, wordCr_formatF]
  rfl

theorem fsub (rd rs1 rs2 : Reg) : Statement (.fsub rd rs1 rs2) := by
  intro _
  refine decode_of_row (wordOpcode_formatF ..) ?_ (mask_formatF ..)
  simp only [encode, opcodeRow, BitVec.reduceToNat, wordA_formatF, wordB_formatF, wordCr_formatF]
  rfl

theorem fmul (rd rs1 rs2 : Reg) : Statement (.fmul rd rs1 rs2) := by
  intro _
  refine decode_of_row (wordOpcode_formatF ..) ?_ (mask_formatF ..)
  simp only [encode, opcodeRow, BitVec.reduceToNat, wordA_formatF, wordB_formatF, wordCr_formatF]
  rfl

theorem fsqr (rd rs1 : Reg) : Statement (.fsqr rd rs1) := by
  intro _
  refine decode_of_row (wordOpcode_formatF ..) ?_ (mask_formatF_noCr ..)
  simp only [encode, opcodeRow, BitVec.reduceToNat, wordA_formatF, wordB_formatF]
  rfl

theorem finv (rd rs1 : Reg) : Statement (.finv rd rs1) := by
  intro _
  refine decode_of_row (wordOpcode_formatF ..) ?_ (mask_formatF_noCr ..)
  simp only [encode, opcodeRow, BitVec.reduceToNat, wordA_formatF, wordB_formatF]
  rfl

theorem fpow (rd rs1 rs2 : Reg) : Statement (.fpow rd rs1 rs2) := by
  intro _
  refine decode_of_row (wordOpcode_formatF ..) ?_ (mask_formatF ..)
  simp only [encode, opcodeRow, BitVec.reduceToNat, wordA_formatF, wordB_formatF, wordCr_formatF]
  rfl

theorem ftom (rd rs1 : Reg) : Statement (.ftom rd rs1) := by
  intro _
  refine decode_of_row (wordOpcode_formatF ..) ?_ (mask_formatF_noCr ..)
  simp only [encode, opcodeRow, BitVec.reduceToNat, wordA_formatF, wordB_formatF]
  rfl

theorem ffromm (rd rs1 : Reg) : Statement (.ffromm rd rs1) := by
  intro _
  refine decode_of_row (wordOpcode_formatF ..) ?_ (mask_formatF_noCr ..)
  simp only [encode, opcodeRow, BitVec.reduceToNat, wordA_formatF, wordB_formatF]
  rfl

theorem ld (rd : Reg) (p : Nat) : Statement (.ld rd p) := by
  intro hw
  simp only [Instr.wellFormed, addrFits, decide_eq_true_eq] at hw
  refine decode_of_row (wordOpcode_formatM ..) ?_ (mask_formatM ..)
  simp only [encode, opcodeRow, BitVec.reduceToNat, wordA_formatM, wordP_formatM (h := hw)]
  rfl

theorem st (rs : Reg) (p : Nat) : Statement (.st rs p) := by
  intro hw
  simp only [Instr.wellFormed, addrFits, decide_eq_true_eq] at hw
  refine decode_of_row (wordOpcode_formatM ..) ?_ (mask_formatM ..)
  simp only [encode, opcodeRow, BitVec.reduceToNat, wordA_formatM, wordP_formatM (h := hw)]
  rfl

theorem twgen (ord : TwOrder) (rs1 : Reg) (ks dst : Nat) : Statement (.twgen ord rs1 ks dst) := by
  intro hw
  simp only [Instr.wellFormed, addrFits, logFits, Bool.and_eq_true, decide_eq_true_eq] at hw
  obtain ⟨h_ks, h_dst⟩ := hw
  refine decode_of_row (wordOpcode_formatT ..) ?_ (mask_formatT ..)
  simp only [encode, opcodeRow, BitVec.reduceToNat, wordOrd_formatT, wordB_formatT, wordK_formatT (h := h_ks), wordP_formatT (h := h_dst)]
  rfl

theorem bitrev (k dst src : Nat) : Statement (.bitrev k dst src) := by
  intro hw
  simp only [Instr.wellFormed, addrFits, logFits, Bool.and_eq_true, decide_eq_true_eq] at hw
  obtain ⟨⟨h_k, h_dst⟩, h_src⟩ := hw
  refine decode_of_row (wordOpcode_formatV ..) ?_ (mask_formatV ..)
  simp only [encode, opcodeRow, BitVec.reduceToNat, wordK_formatV (h := h_k), wordQ_formatV (h := h_dst), wordP_formatV (h := h_src)]
  rfl

theorem bfly (mode : Mode) (gl k tw buf : Nat) : Statement (.bfly mode gl k tw buf) := by
  intro hw
  simp only [Instr.wellFormed, addrFits, logFits, Bool.and_eq_true, decide_eq_true_eq] at hw
  obtain ⟨⟨⟨h_gl, h_k⟩, h_tw⟩, h_buf⟩ := hw
  refine decode_of_row (wordOpcode_formatB ..) ?_ (mask_formatB ..)
  simp only [encode, opcodeRow, BitVec.reduceToNat, wordMode_formatB, wordGL_formatB (h := h_gl), wordK_formatB (h := h_k), wordQ_formatB (h := h_tw), wordP_formatB (h := h_buf)]
  rfl

end Sys2Proof.Laws.RoundTrip
end

