-- ==== Sys2Proof/Laws/Schedule.lean ====
section
/-! SUPPORT. What one moment of an endless run can do, said once. -/

namespace Sys2Proof.Machine

open Sys2Proof

/-- R320's condition, as the two facts it joins. -/
theorem State.coreCanStep_iff (s : State) : s.coreCanStep = true ↔ s.halted = false ∧ s.fifo ≠ [] := by
  simp [State.coreCanStep, State.level, List.length_pos_iff]

/-- A moment is the core waiting, a step of the core, a host access, or a power-on reset. -/
theorem moment_cases {t : Turn} {s s' : State} (h : moment t s s') (hs : s.turns = []) :
    (t = .core ∧ s.coreCanStep = false ∧ s' = s) ∨ (t = .core ∧ coreStep s = .next s') ∨
    (∃ a, t = .host a ∧ hostAccess a s = .next s') ∨ (t = .powerOn ∧ s' = s.powerCycle) := by
  have e : ({ s with turns := [] } : State) = s := by rw [← hs]
  rcases h with h | h
  · cases t with
    | core => exact .inr (.inl ⟨rfl, by simpa only [step, takeTurn, e] using h⟩)
    | host a => exact .inr (.inr (.inl ⟨a, rfl, by simpa only [step, takeTurn, e] using h⟩))
    | powerOn =>
      simp only [step, takeTurn, e] at h
      injection h with h
      exact .inr (.inr (.inr ⟨rfl, h.symm⟩))
  · exact .inl h

/-- No register write of the host changes the turns. -/
theorem mmioWrite_turns (s : State) (m : MmioReg) (v : Word64) : (s.mmioWrite m v).turns = s.turns := by
  cases m
  case ctrl =>
    simp only [State.mmioWrite, State.writeCtrl]
    repeat' split
    all_goals rfl
  case cmd =>
    simp only [State.mmioWrite, State.writeCmd]
    split <;> rfl
  all_goals rfl

/-- No host access changes the turns. -/
theorem hostAccess_turns {a : HostAccess} {s s' : State} (h : hostAccess a s = .next s') : s'.turns = s.turns := by
  cases a with
  | read width addr =>
    simp only [hostAccess] at h
    split at h
    · cases h
    · injection h with h; subst h; rfl
  | write width addr data =>
    simp only [hostAccess] at h
    split at h
    · cases h
    · injection h with h; subst h; exact mmioWrite_turns ..

/-- No command changes the turns. -/
theorem exec_turns {i : Instr} {s s' : State} (h : exec i s = .next s') : s'.turns = s.turns := by
  rcases exec_ends i s with ⟨e, he⟩ | ⟨u, hu, hr⟩
  · rw [he] at h; injection h with h; subst h; rfl
  · rw [hu] at h; injection h with h; subst h; exact hr.around.turns

/-- No step of the core changes the turns. -/
theorem coreStep_turns {s s' : State} (h : coreStep s = .next s') : s'.turns = s.turns := by
  unfold coreStep executeWord at h
  repeat' split at h
  all_goals first | cases h | exact exec_turns h
  rfl

/-- A moment leaves no turns. -/
theorem moment_turns {t : Turn} {s s' : State} (h : moment t s s') (hs : s.turns = []) : s'.turns = [] := by
  rcases moment_cases h hs with ⟨_, _, rfl⟩ | ⟨_, h⟩ | ⟨_, _, h⟩ | ⟨_, rfl⟩
  · exact hs
  · rw [coreStep_turns h, hs]
  · rw [hostAccess_turns h, hs]
  · exact hs

/-- No state of an endless run has turns of its own. -/
theorem IsRun.turns {sched : Schedule} {run : Nat → State} (h : IsRun sched run) (n : Nat) : (run n).turns = [] := by
  induction n with
  | zero => exact h.1
  | succ n ih => exact moment_turns (h.2 n) ih

end Sys2Proof.Machine
end

