-- ==== Sys2Proof/Tests/Slice0.lean ====
section
/-! SUPPORT. The model's own tests, their expected results from the vectors of 95_test_vectors.md and the examples of the rules, and a witness for the hypotheses of each statement. -/

namespace Sys2Proof.Tests

open Sys2Proof Sys2Proof.Machine

/-! ## Helpers -/

/-- After power-on, with EMEM_LOG = `lg`, QDEPTH = 16, MMIO_BASE = 0. -/
def fresh (lg : Nat) : State := State.powerOn { ememLog := lg, qdepth := 16, mmioBase := 0 }

/-- The vectors' machine: EMEM_LOG = 18. -/
def bare : State := fresh 18

/-- NINV for N = 97 (95_test_vectors.md). -/
def ninv97 : Word := 0x5c5f02a3a0fd5c5f02a3a0fd5c5f02a3a0fd5c5f02a3a0fd5c5f02a3a0fd5c5f#256

/-- The field N = 97 is configured. -/
def field97 (s : State) : State :=
  { s with fieldReady := true, fieldN := 97#256, fieldR2 := 35#256, fieldNinv := ninv97 }

/-- The vectors' machine with the field N = 97. -/
def ready : State := field97 bare

/-- Registers set before a command. -/
def withRegs (s : State) (l : List (Reg × Nat)) : State :=
  l.foldl (fun s x => s.setReg x.1 (BitVec.ofNat 256 x.2)) s

/-- Elements set before a command, by rising address. -/
def withElems (s : State) (l : List (Nat × Nat × Tag)) : State :=
  { s with mem := l.map fun x => (x.1, Element.ofWord (BitVec.ofNat 256 x.2.1) x.2.2) }

/-- One command queued. -/
def queue (s : State) (c : Word64) : State := { s with fifo := [c] }

/-- One turn given. -/
def turn (s : State) (t : Turn) : State := { s with turns := [t] }

/-- The step answers a next state with property `p`. -/
def gives (r : StepResult) (p : State → Bool) : Bool :=
  match r with
  | .next t => p t
  | .fault _ => false
  | .refused _ => false

/-- The core runs word `c` from `s`, and the command retires with property `p`. -/
def runs (s : State) (c : Word64) (p : State → Bool) : Bool :=
  gives (step (queue s c)) fun t => !t.halted && t.retired == 1#64 && t.fifo == [] && p t

/-- The core runs word `c` from `s`, and the command fails with `code` and changes nothing else (R322). -/
def failsWith (s : State) (c : Word64) (code : BitVec 8) : Bool :=
  gives (step (queue s c)) fun t =>
    t == { queue s c with halted := true, errCode := code, errCmd := c, errSeq := 0#64, irqPend := 0b001#3 }

/-- Element `a` holds value `v` with tag `g`. -/
def holds (t : State) (a v : Nat) (g : Tag) : Bool := t.memRead a == v && t.tagRead a == g

/-! ## WellFormed refuses each operand that does not fit its field (R141) -/

theorem test_wf_shr_shamt : (.shr 1 2 512 .w256 : Instr).wellFormed = false := by decide

theorem test_wf_shl_shamt : (.shl 1 2 512 .w128 : Instr).wellFormed = false := by decide

theorem test_wf_ld_addr : (.ld 1 262144 : Instr).wellFormed = false := by decide

theorem test_wf_st_addr : (.st 1 262144 : Instr).wellFormed = false := by decide

theorem test_wf_twgen_ks : (.twgen .nat 1 32 0 : Instr).wellFormed = false := by decide

theorem test_wf_twgen_dst : (.twgen .nat 1 1 262144 : Instr).wellFormed = false := by decide

theorem test_wf_bitrev_k : (.bitrev 32 0 0 : Instr).wellFormed = false := by decide

theorem test_wf_bitrev_dst : (.bitrev 0 262144 0 : Instr).wellFormed = false := by decide

theorem test_wf_bitrev_src : (.bitrev 0 0 262144 : Instr).wellFormed = false := by decide

theorem test_wf_bfly_gl : (.bfly .nr 32 1 0 0 : Instr).wellFormed = false := by decide

theorem test_wf_bfly_k : (.bfly .nr 1 32 0 0 : Instr).wellFormed = false := by decide

theorem test_wf_bfly_tw : (.bfly .nr 1 1 262144 0 : Instr).wellFormed = false := by decide

theorem test_wf_bfly_buf : (.bfly .nr 1 1 0 262144 : Instr).wellFormed = false := by decide

/-! ## Decoding words written from the format tables (R132 to R142) -/

/-- Formats N and R, bit by bit (R132, R133). -/
theorem test_decode_bits_n_r : decode 0b00000001_00000000000000000000000000000000000000000000000000000000 = .command (.nop) ∧
    decode 0b00000010_0000000000000000000000000000000000000000000000000000000_1 = .command (.sync true) ∧
    decode 0b00010000_0001_0010_0011_1_0000000000000000000000000000000000000000000 = .command (.add 1 2 3 .w128) := by decide

/-- Formats S and L, bit by bit (R134, R135). -/
theorem test_decode_bits_s_l : decode 0b00010110_0001_0010_0000_1_0000000000000000000000000000000000_010000001 = .command (.shr 1 2 129 .w128) ∧
    decode 0b00011011_0101_00000000000000000000_10000000000000000000000000000001 = .command (.li 5 0x80000001) := by decide

/-- Formats F and M, bit by bit (R136, R137). -/
theorem test_decode_bits_f_m : decode 0b00100000_0011_0001_0010_00000000000000000000000000000000000000000000 = .command (.fcfg 1 2 3) ∧
    decode 0b00100110_1111_1110_1101_00000000000000000000000000000000000000000000 = .command (.fpow 15 14 13) ∧
    decode 0b00110001_0111_0000000000000000000000000000000000_111111111111111111 = .command (.st 7 262143) := by decide

/-- Formats T, V and B, bit by bit (R138 to R140). -/
theorem test_decode_bits_t_v_b : decode 0b01000000_0000_0100_0000_1_00_00011_000000000000000000_000000000001100100 = .command (.twgen .rev 4 3 100) ∧
    decode 0b01000001_000000000000000_00011_000000000000010000_000000000000001000 = .command (.bitrev 3 16 8) ∧
    decode 0b01000010_000000000_1_00001_00010_000000000000001000_000000000000000100 = .command (.bfly .rn 1 2 8 4) := by decide

/-- Vectors K1 to K3. -/
theorem test_decode_control : decode 0x0100000000000000 = .command (.nop) ∧
    decode 0x0200000000000000 = .command (.sync false) ∧
    decode 0x0200000000000001 = .command (.sync true) := by decide

/-- Vectors W1 to W45, one of each command. -/
theorem test_decode_wide : decode 0x1012300000000000 = .command (.add 1 2 3 .w256) ∧
    decode 0x1112380000000000 = .command (.adc 1 2 3 .w128) ∧
    decode 0x1212200000000000 = .command (.sub 1 2 2 .w256) ∧
    decode 0x1312300000000000 = .command (.sbb 1 2 3 .w256) ∧
    decode 0x1402380000000000 = .command (.cmp 2 3 .w128) ∧
    decode 0x1512300000000000 = .command (.and 1 2 3 .w256) ∧
    decode 0x16120000000000FF = .command (.shr 1 2 255 .w256) ∧
    decode 0x171208000000007F = .command (.shl 1 2 127 .w128) ∧
    decode 0x1812300000000000 = .command (.mul 1 2 3 .w256) ∧
    decode 0x1912380000000000 = .command (.mulb 1 2 3 .w128) ∧
    decode 0x1A12080000000000 = .command (.mov 1 2 .w128) ∧
    decode 0x1B100000DEADBEEF = .command (.li 1 0xDEADBEEF) := by decide

/-- Vectors F1 to F36, one of each command. -/
theorem test_decode_field : decode 0x2031200000000000 = .command (.fcfg 1 2 3) ∧
    decode 0x2112300000000000 = .command (.fadd 1 2 3) ∧
    decode 0x2212300000000000 = .command (.fsub 1 2 3) ∧
    decode 0x2312300000000000 = .command (.fmul 1 2 3) ∧
    decode 0x2412000000000000 = .command (.fsqr 1 2) ∧
    decode 0x2512000000000000 = .command (.finv 1 2) ∧
    decode 0x2612300000000000 = .command (.fpow 1 2 3) ∧
    decode 0x2712000000000000 = .command (.ftom 1 2) ∧
    decode 0x2812000000000000 = .command (.ffromm 1 2) := by decide

/-- Vectors M3, M6, T1, T3, B2, B9, P5, X4. -/
theorem test_decode_elements : decode 0x307000000003FFFF = .command (.ld 7 262143) ∧
    decode 0x3170000000000006 = .command (.st 7 6) ∧
    decode 0x4004003000000064 = .command (.twgen .nat 4 3 100) ∧
    decode 0x4004082000000008 = .command (.twgen .rev 4 2 8) ∧
    decode 0x4100003000400000 = .command (.bitrev 3 16 0) ∧
    decode 0x4100013000000000 = .command (.bitrev 19 0 0) ∧
    decode 0x4200062FFFFC0000 = .command (.bfly .nr 3 2 262143 0) ∧
    decode 0x4200442000200000 = .command (.bfly .rn 2 2 8 0) := by decide

/-- Vectors K4 to K15 and K17. -/
theorem test_decode_illegal : decode 0x0000000000000000 = .illegal .reservedOpcode ∧
    decode 0xFF00000000000000 = .illegal .reservedOpcode ∧
    decode 0x0300000000000000 = .illegal .reservedOpcode ∧
    decode 0x0100000000000001 = .illegal .mustBeZero ∧
    decode 0x0200000000000002 = .illegal .mustBeZero ∧
    decode 0x1412300000000000 = .illegal .mustBeZero ∧
    decode 0x1A12300000000000 = .illegal .mustBeZero ∧
    decode 0x2112380000000000 = .illegal .mustBeZero ∧
    decode 0x2512100000000000 = .illegal .mustBeZero ∧
    decode 0x3010000000040000 = .illegal .mustBeZero ∧
    decode 0x4014001000000000 = .illegal .mustBeZero ∧
    decode 0x1612000000000201 = .illegal .mustBeZero ∧
    decode 0x4200842000200000 = .illegal .mustBeZero := by decide

/-- The same decoder, numbered as the opcode table numbers bits. -/
theorem test_decode_table_word : decodeTableWord 64 0x4200442000200000 = some (.bfly .rn 2 2 8 0) ∧ decodeTableWord 64 0x2112380000000000 = none := by decide

/-- A placed word is the first to run after reset. -/
theorem test_first_step_after_reset : gives (step (State.reset.withFetchWord 64 0x1B100000DEADBEEF)) (fun t => t.reg 1 == 0xDEADBEEF#256) = true := by decide

/-! ## One step of each command -/

/-- Vector K1. -/
theorem test_nop_retires : runs ready 0x0100000000000000 (fun t => t == { ready with retired := 1#64, irqPend := 0b100#3 }) = true := by decide

/-- Vector K3. -/
theorem test_sync_irq : runs ready 0x0200000000000001 (fun t => t == { ready with retired := 1#64, irqPend := 0b110#3 }) = true := by decide

/-- Vector W1. -/
theorem test_add_wraps : runs (withRegs bare [(2, 0xffffffffffffffffffffffffffffffffffffffffffffffffffffffffffffffff), (3, 1)]) 0x1012300000000000 (fun t => t.reg 1 == 0#256 && t.flagC && t.flagZ) = true := by decide

/-- Vector W4. -/
theorem test_add_128 : runs (withRegs bare [(2, 0x8000000000000000000000000000000000000000000000000000000000000005), (3, 7)]) 0x1012380000000000 (fun t => t.reg 1 == 0xc#256 && !t.flagC && !t.flagZ) = true := by decide

/-- Vector W6. -/
theorem test_adc_carry_in : runs ({ withRegs bare [] with flagC := true }) 0x1112300000000000 (fun t => t.reg 1 == 1#256 && !t.flagC && !t.flagZ) = true := by decide

/-- Vector W7. -/
theorem test_adc_128 : runs ({ withRegs bare [(2, 0xffffffffffffffffffffffffffffffff)] with flagC := true }) 0x1112380000000000 (fun t => t.reg 1 == 0#256 && t.flagC && t.flagZ) = true := by decide

/-- Vector W8. -/
theorem test_sub_borrow : runs (withRegs bare [(3, 1)]) 0x1212300000000000 (fun t => t.reg 1 == 0xffffffffffffffffffffffffffffffffffffffffffffffffffffffffffffffff#256 && t.flagC && !t.flagZ) = true := by decide

/-- Vector W10. -/
theorem test_sub_128 : runs (withRegs bare [(2, 3), (3, 5)]) 0x1212380000000000 (fun t => t.reg 1 == 0xfffffffffffffffffffffffffffffffe#256 && t.flagC && !t.flagZ) = true := by decide

/-- Vector W11. -/
theorem test_sbb_borrow_in : runs ({ withRegs bare [(2, 5), (3, 5)] with flagC := true }) 0x1312300000000000 (fun t => t.reg 1 == 0xffffffffffffffffffffffffffffffffffffffffffffffffffffffffffffffff#256 && t.flagC && !t.flagZ) = true := by decide

/-- Vector W12. -/
theorem test_sbb_zero : runs ({ withRegs bare [(3, 0xffffffffffffffffffffffffffffffffffffffffffffffffffffffffffffffff)] with flagC := true }) 0x1312300000000000 (fun t => t.reg 1 == 0#256 && t.flagC && t.flagZ) = true := by decide

/-- Vector W14. -/
theorem test_cmp_less : runs (withRegs bare [(2, 3), (3, 7)]) 0x1402300000000000 (fun t => t.flagC && !t.flagZ && t.reg 0 == 0#256) = true := by decide

/-- Vector W17. -/
theorem test_cmp_128 : runs (withRegs bare [(2, 0x100000000000000000000000000000001), (3, 1)]) 0x1402380000000000 (fun t => !t.flagC && t.flagZ) = true := by decide

/-- Vector W18. -/
theorem test_and_256 : runs (withRegs bare [(2, 0xf0), (3, 0x3c)]) 0x1512300000000000 (fun t => t.reg 1 == 0x30#256) = true := by decide

/-- Vector W19. -/
theorem test_and_128 : runs (withRegs bare [(2, 0xffffffffffffffffffffffffffffffffffffffffffffffffffffffffffffffff), (3, 0xffffffffffffffffffffffffffffffffffffffffffffffffffffffffffffffff)]) 0x1512380000000000 (fun t => t.reg 1 == 0xffffffffffffffffffffffffffffffff#256) = true := by decide

/-- Vector W25. -/
theorem test_shr_255 : runs (withRegs bare [(2, 0xffffffffffffffffffffffffffffffffffffffffffffffffffffffffffffffff)]) 0x16120000000000FF (fun t => t.reg 1 == 1#256) = true := by decide

/-- Vector W29. -/
theorem test_shr_128_by_width : runs (withRegs bare [(2, 0xffffffffffffffffffffffffffffffffffffffffffffffffffffffffffffffff)]) 0x1612080000000080 (fun t => t.reg 1 == 0#256) = true := by decide

/-- Vector W30. -/
theorem test_shl_255 : runs (withRegs bare [(2, 3)]) 0x17120000000000FF (fun t => t.reg 1 == 0x8000000000000000000000000000000000000000000000000000000000000000#256) = true := by decide

/-- Vector W33. -/
theorem test_shl_128_by_width : runs (withRegs bare [(2, 1)]) 0x1712080000000080 (fun t => t.reg 1 == 0#256) = true := by decide

/-- Vector W35. -/
theorem test_mul_256 : runs (withRegs bare [(2, 0xffffffffffffffffffffffffffffffff), (3, 0xffffffffffffffffffffffffffffffff)]) 0x1812300000000000 (fun t => t.reg 1 == 0xfffffffffffffffffffffffffffffffe00000000000000000000000000000001#256) = true := by decide

/-- Vector W38. -/
theorem test_mul_128 : runs (withRegs bare [(2, 0x10000000000000001), (3, 0xffffffffffffffff)]) 0x1812380000000000 (fun t => t.reg 1 == 0xffffffffffffffffffffffffffffffff#256) = true := by decide

/-- Vector W40. -/
theorem test_mulb_one : runs (withRegs bare [(2, 0x1234), (3, 3)]) 0x1912300000000000 (fun t => t.reg 1 == 0x1234#256) = true := by decide

/-- Vector W41. -/
theorem test_mulb_zero : runs (withRegs bare [(2, 0x1234), (3, 2)]) 0x1912300000000000 (fun t => t.reg 1 == 0#256) = true := by decide

/-- Vector W43. -/
theorem test_mov_128 : runs (withRegs bare [(2, 0x100000000000000000000000000000000000000000000000005)]) 0x1A12080000000000 (fun t => t.reg 1 == 5#256) = true := by decide

/-- Vector W44. -/
theorem test_mov_256 : runs (withRegs bare [(2, 0x100000000000000000000000000000000000000000000000005)]) 0x1A12000000000000 (fun t => t.reg 1 == 0x100000000000000000000000000000000000000000000000005#256) = true := by decide

/-- Vector W45. -/
theorem test_li : runs (withRegs bare [(1, 0xffffffffffffffffffffffffffffffffffffffffffffffffffffffffffffffff)]) 0x1B100000DEADBEEF (fun t => t.reg 1 == 0xdeadbeef#256) = true := by decide

/-- Vector F30. -/
theorem test_fcfg : runs (withRegs bare [(1, 97), (2, 35), (3, 0x5c5f02a3a0fd5c5f02a3a0fd5c5f02a3a0fd5c5f02a3a0fd5c5f02a3a0fd5c5f)]) 0x2031200000000000 (fun t => t.fieldN == 97#256 && t.fieldR2 == 35#256 && t.fieldNinv == ninv97 && t.fieldReady) = true := by decide

/-- Vector F31. -/
theorem test_fcfg_even : failsWith (withRegs bare [(1, 96), (2, 35), (3, 0x5c5f02a3a0fd5c5f02a3a0fd5c5f02a3a0fd5c5f02a3a0fd5c5f02a3a0fd5c5f)]) 0x2031200000000000 9#8 = true := by decide

/-- Vector F2. -/
theorem test_fadd_wraps : runs (withRegs ready [(2, 96), (3, 1)]) 0x2112300000000000 (fun t => t.reg 1 == 0#256) = true := by decide

/-- Vector F4. -/
theorem test_fadd_out_of_range : failsWith (withRegs ready [(2, 97), (3, 0)]) 0x2112300000000000 1#8 = true := by decide

/-- Vector F6. -/
theorem test_fsub_borrow : runs (withRegs ready [(2, 0), (3, 1)]) 0x2212300000000000 (fun t => t.reg 1 == 96#256) = true := by decide

/-- Vector F8. -/
theorem test_fsub_out_of_range : failsWith (withRegs ready [(2, 5), (3, 0xffffffffffffffffffffffffffffffffffffffffffffffffffffffffffffffff)]) 0x2212300000000000 1#8 = true := by decide

/-- Vector F9. -/
theorem test_fmul : runs (withRegs ready [(2, 14), (3, 39)]) 0x2312300000000000 (fun t => t.reg 1 == 1#256) = true := by decide

/-- Vector F12. -/
theorem test_fmul_minus_one : runs (withRegs ready [(2, 36), (3, 36)]) 0x2312300000000000 (fun t => t.reg 1 == 61#256) = true := by decide

/-- Vector F13. -/
theorem test_fsqr : runs (withRegs ready [(2, 28)]) 0x2412000000000000 (fun t => t.reg 1 == 86#256) = true := by decide

/-- Vector F14. -/
theorem test_fsqr_out_of_range : failsWith (withRegs ready [(2, 100)]) 0x2412000000000000 1#8 = true := by decide

/-- Vector F15. -/
theorem test_finv : runs (withRegs ready [(2, 14)]) 0x2512000000000000 (fun t => t.reg 1 == 51#256) = true := by decide +kernel

/-- Vector F18. -/
theorem test_finv_zero : failsWith ready 0x2512000000000000 2#8 = true := by decide

/-- Vector F20. -/
theorem test_fpow : runs (withRegs ready [(2, 86), (3, 5)]) 0x2612300000000000 (fun t => t.reg 1 == 79#256) = true := by decide +kernel

/-- Vector F21. -/
theorem test_fpow_zero : runs ready 0x2612300000000000 (fun t => t.reg 1 == 61#256) = true := by decide +kernel

/-- Vector F24. -/
theorem test_ftom : runs (withRegs ready [(2, 5)]) 0x2712000000000000 (fun t => t.reg 1 == 14#256) = true := by decide

/-- Vector F25. -/
theorem test_ftom_out_of_range : failsWith (withRegs ready [(2, 97)]) 0x2712000000000000 1#8 = true := by decide

/-- Vector F27. -/
theorem test_ffromm : runs (withRegs ready [(2, 14)]) 0x2812000000000000 (fun t => t.reg 1 == 5#256) = true := by decide

/-- Vector F28. -/
theorem test_ffromm_one : runs (withRegs ready [(2, 61)]) 0x2812000000000000 (fun t => t.reg 1 == 1#256) = true := by decide

/-- Vector M2. -/
theorem test_ld : runs (withElems ready [(9, 1000, .tw .rev 2)]) 0x3070000000000009 (fun t => t.reg 7 == 1000#256 && t.tagRead 9 == .tw .rev 2) = true := by decide

/-- Vector M4, without a field. -/
theorem test_ld_past_end : failsWith (fresh 4) 0x3070000000000010 6#8 = true := by decide

/-- Vector M3. -/
theorem test_st : runs (withRegs (withElems ready [(6, 61, .tw .nat 3)]) [(7, 42)]) 0x3170000000000006 (fun t => holds t 6 42 .data) = true := by decide

/-- Vector M5. -/
theorem test_st_last : runs (withRegs (fresh 4) [(7, 3)]) 0x317000000000000F (fun t => holds t 15 3 .data) = true := by decide

/-- Vector T1. -/
theorem test_twgen_nat : runs (withRegs ready [(4, 24)]) 0x4004003000000064 (fun t => holds t 100 61 (.tw .nat 3) && holds t 101 24 (.tw .nat 3) && holds t 102 81 (.tw .nat 3) && holds t 103 43 (.tw .nat 3)) = true := by decide +kernel

/-- Vector T2. -/
theorem test_twgen_rev : runs (withRegs ready [(4, 24)]) 0x4004083000000064 (fun t => holds t 100 61 (.tw .rev 3) && holds t 101 81 (.tw .rev 3) && holds t 102 24 (.tw .rev 3) && holds t 103 43 (.tw .rev 3)) = true := by decide +kernel

/-- Vector B1. -/
theorem test_bitrev_in_place : runs (withElems bare [(0, 0, .data), (1, 1, .data), (2, 2, .data), (3, 3, .data), (4, 4, .data), (5, 5, .data), (6, 6, .data), (7, 7, .data)]) 0x4100003000000000 (fun t => holds t 0 0 .data && holds t 1 4 .data && holds t 2 2 .data && holds t 3 6 .data && holds t 4 1 .data && holds t 5 5 .data && holds t 6 3 .data && holds t 7 7 .data) = true := by decide

/-- Vector B10. -/
theorem test_bitrev_copy : runs (withElems bare [(8, 61, .tw .rev 3), (9, 81, .tw .rev 3), (10, 24, .tw .rev 3), (11, 43, .tw .rev 3)]) 0x4100002000400008 (fun t => holds t 16 61 .data && holds t 17 24 .data && holds t 18 81 .data && holds t 19 43 .data) = true := by decide

/-- Vector X2. -/
theorem test_bfly_nr : runs (withElems ready [(0, 50, .data), (1, 75, .data), (2, 72, .data), (3, 72, .data), (8, 61, .tw .rev 2), (9, 81, .tw .rev 2)]) 0x4200022000200000 (fun t => holds t 0 28 .data && holds t 1 72 .data && holds t 2 7 .data && holds t 3 40 .data) = true := by decide

/-- Vector X4. -/
theorem test_bfly_rn : runs (withElems ready [(0, 50, .data), (1, 72, .data), (2, 75, .data), (3, 72, .data), (8, 61, .tw .nat 2), (9, 81, .tw .nat 2)]) 0x4200442000200000 (fun t => holds t 0 28 .data && holds t 1 7 .data && holds t 2 72 .data && holds t 3 40 .data) = true := by decide

/-! ## Errors in their order, and the host -/

/-- Vector K4. -/
theorem test_illegal_all_zero : failsWith ready 0x0000000000000000 5#8 = true := by decide

/-- Vector X6. -/
theorem test_bfly_backend_mismatch : failsWith (withElems ready [(0, 61, .data), (1, 25, .data), (2, 86, .data), (3, 50, .data), (8, 61, .tw .nat 2), (9, 81, .tw .nat 2)]) 0x4200042000200000 4#8 = true := by decide

/-- Vector X20. -/
theorem test_bfly_size_before_range : failsWith (withElems ready [(0, 200, .data), (1, 25, .data), (2, 86, .data), (3, 50, .data), (8, 61, .tw .rev 3), (9, 81, .tw .rev 3)]) 0x4200042000200000 3#8 = true := by decide

/-- Vector P1. -/
theorem test_bitrev_address_before_overlap : failsWith bare 0x4100003FFFEBFFFC 6#8 = true := by decide

/-- Vector P3. -/
theorem test_fcfg_locked : failsWith (withRegs ready [(1, 96)]) 0x2031200000000000 10#8 = true := by decide

/-- The halted state of H2 and H3: field N = 97, QDEPTH = 2, one command dropped. -/
def halted : State :=
  { ready with
    cfg := { ememLog := 18, qdepth := 2, mmioBase := 0 }, fifo := [0x2521000000000000#64], halted := true, errCode := 2#8
    errCmd := 0x2521000000000000#64, errSeq := 1#64, retired := 1#64, irqPend := 0b001#3, cmdDropped := true }

/-- H1: a CMD write to a full FIFO is dropped. -/
theorem test_cmd_full : gives (step (turn { queue ready 0x01#64 with cfg := { ememLog := 18, qdepth := 1, mmioBase := 0 } } (.host (.write 64 0x48 7#64))))
    (fun t => t.cmdDropped && t.level == 1) = true := by decide

/-- H4. -/
theorem test_status_halted : gives (step (turn halted (.host (.read 64 0x18)))) (fun t => t.reads == [0x000000000001000E#64]) = true := by decide

/-- H5. -/
theorem test_irq_at_once : ({ halted with irqEn := 0b001#3 } : State).irq = true := by decide

/-- H6. -/
theorem test_clear_err : gives (step (turn halted (.host (.write 64 0x10 2#64)))) (fun t =>
    t == { ready with cfg := halted.cfg, retired := 1#64, irqPend := 0b001#3 }) = true := by decide

/-- H7. -/
theorem test_irq_pend_clear : gives (step (turn halted (.host (.write 64 0x40 1#64)))) (fun t => t.irqPend == 0#3) = true := by decide

/-- H9. -/
theorem test_soft_reset : gives (step (turn (withElems ready [(1, 7, .tw .nat 1)]) (.host (.write 64 0x10 1#64)))) (fun t =>
    holds t 1 7 .data && !t.fieldReady && t.fieldN == 0#256) = true := by decide

/-- H10. -/
theorem test_params : bare.mmioValue .params = 0x0000000001101012#64 := by decide

/-- H11. -/
theorem test_register_window : gives (step (turn (withRegs bare [(3, 0x0123456789ABCDEFFEDCBA98765432100F1E2D3C4B5A69788796A5B4C3D2E1F0)]) (.host (.read 64 0x268))))
    (fun t => t.reads == [0x0F1E2D3C4B5A6978#64]) = true := by decide

/-- R75: word 1 of element 1, at 0x800028. -/
theorem test_element_window : gives (step (turn (withElems bare [(1, 5, .tw .nat 1)]) (.host (.write 64 0x800028 7#64))))
    (fun t => holds t 1 (7 * 2 ^ 64 + 5) .data) = true := by decide

/-- R86: bytes are little-endian inside a word. -/
theorem test_byte_order : (withRegs bare [(0, 0x1122)]).mmioByte 0x200 = 0x22#8 ∧ (withRegs bare [(0, 0x1122)]).mmioByte 0x201 = 0x11#8 := by decide

/-- R85. -/
theorem test_narrow_refused : step (turn bare (.host (.read 32 0x00))) = .refused .unsupportedAccess := rfl

/-- R84: past the last offset. -/
theorem test_outside_refused : step (turn bare (.host (.read 64 0x1000000))) = .refused .outsideBlock := rfl

/-- R320: the core can take no step. -/
theorem test_empty_core : step bare = .fault .fifoEmpty ∧ step halted = .fault .coreHalted := ⟨rfl, rfl⟩


/-! ## Witnesses: concrete states and operands that meet the hypotheses of each statement, clause by clause -/

/-- The field N = 97 of the tests is valid (95_test_vectors.md gives R2 = 35). -/
theorem ready_configured : ready.FieldConfigured := ⟨rfl, by decide, by decide, by decide, by decide⟩

theorem ready_valid : ready.FieldValid := ⟨ready_configured, by decide +kernel⟩

/-- Both widths. -/
theorem witness_isWidth : IsWidth .w256 256 ∧ IsWidth .w128 128 := by decide

theorem witness_DecodeAfterEncode :
    (Instr.bfly .rn 31 31 262143 262143).wellFormed = true ∧ (Instr.bitrev 31 262143 262143).wellFormed = true ∧
    (Instr.twgen .rev 15 31 262143).wellFormed = true ∧ (Instr.shl 15 15 511 .w128).wellFormed = true ∧
    (Instr.st 15 262143).wellFormed = true := by decide

theorem witness_EncodeAfterDecode : decode 0x42007FFFFFFFFFFF = .command (.bfly .rn 31 31 262143 262143) := by decide

theorem witness_WordsOutsideTheOpcodeMapFail :
    ((queue ready 0).Runs 0 ∧ ¬ InOpcodeMap 0) ∧
    ((queue ready 0x2112380000000000).Runs 0x2112380000000000 ∧ ¬ InOpcodeMap 0x2112380000000000) :=
  ⟨⟨⟨rfl, rfl, rfl⟩, by decide⟩, ⟨⟨rfl, rfl, rfl⟩, by decide⟩⟩

theorem witness_StepRunsTheDecodedCommand :
    decode 0x0100000000000000 = .command .nop ∧ (queue bare 0x0100000000000000).Runs 0x0100000000000000 ∧
    (turn (queue bare 0x0100000000000000) .core).turns = [.core] ∧
    (turn (queue bare 0x0100000000000000) .core).halted = false ∧
    (turn (queue bare 0x0100000000000000) .core).fifo.head? = some 0x0100000000000000 :=
  ⟨by decide, ⟨rfl, rfl, rfl⟩, rfl, rfl, rfl⟩

/-- A core that retires, one that fails, one that is halted and one that is idle. -/
theorem witness_CoreStepRetiresOrFails :
    (queue bare 0x0100000000000000).turns = [] ∧
    (∃ t, step (queue bare 0x0100000000000000) = .next t ∧ t.halted = false) ∧
    (∃ t, step (queue bare 0) = .next t ∧ t.halted = true) ∧ halted.turns = [] ∧ bare.turns = [] :=
  ⟨rfl, ⟨_, rfl, rfl⟩, ⟨_, rfl, rfl⟩, rfl, rfl⟩

/-- A NOP queued before the first moment, and the state it leaves after it. -/
def nopRun : Nat → State
  | 0 => queue bare 0x0100000000000000
  | _ + 1 => { bare with retired := 1#64, irqPend := 0b100#3 }

/-- A weakly fair endless run: the core has every turn, runs the NOP in the first and waits in the others. -/
theorem witness_CoreStepRetiresOrFails_fair :
    IsRun (fun _ => .core) nopRun ∧ WeaklyFair (fun _ => .core) nopRun ∧
    (nopRun 0).halted = false ∧ 0 < (nopRun 0).fifo.length := by
  refine ⟨⟨rfl, fun n => ?_⟩, fun n _ => ⟨n, Nat.le_refl n, rfl⟩, rfl, by decide⟩
  cases n with
  | zero => exact .inl rfl
  | succ n => exact .inr ⟨rfl, rfl, rfl⟩

/-- A running core with a command and a listed element, at the bounds of the configuration. -/
def small : State :=
  { withElems (field97 (fresh 1)) [(1, 61, .tw .nat 31)] with fifo := List.replicate 16 0x0100000000000000#64 }

theorem small_inv : small.Inv where
  config    := by decide
  memSorted := by decide
  memBounds := by decide
  tagSizes  := by
    intro x hx o ks h
    have hm : small.mem = [(1, Element.ofWord 61#256 (.tw .nat 31))] := rfl
    rw [hm, List.mem_singleton] at hx
    subst hx
    injection h with _ h
    omega
  fifoFits  := by decide
  running   := fun _ => ⟨rfl, rfl, rfl⟩
  stopped   := by decide
  unlocked  := by decide
  locked    := fun _ => ⟨rfl, by decide, by decide, by decide, by decide⟩

/-- The invariant also holds of a halted core. -/
theorem halted_inv : halted.Inv where
  config    := by decide
  memSorted := by decide
  memBounds := by decide
  tagSizes  := fun x hx => nomatch hx
  fifoFits  := by decide
  running   := by decide
  stopped   := fun _ => by decide
  unlocked  := by decide
  locked    := fun _ => ⟨rfl, by decide, by decide, by decide, by decide⟩

theorem witness_StepKeepsTheInvariant :
    (small.Inv ∧ ∃ t, step small = .next t) ∧
    (halted.Inv ∧ ∃ t, step (turn halted (.host (.write 64 0x10 2#64))) = .next t) :=
  ⟨⟨small_inv, _, rfl⟩, halted_inv, _, rfl⟩

theorem witness_ResetMeetsTheInvariant :
    Config.Valid { ememLog := 1, qdepth := 1, mmioBase := 0 } ∧
    Config.Valid { ememLog := 18, qdepth := 255, mmioBase := 4096 } := by decide

theorem witness_ResetValues :
    (turn halted .powerOn).turns = [.powerOn] ∧
    (turn halted (.host (.write 64 0x10 3#64))).HostMoves (.write 64 (halted.cfg.mmioBase + 0x10) 3#64) [] ∧
    (3#64).getLsbD 0 = true := by decide

theorem witness_NopOnlyRetires :
    0x0100000000000001#64 >>> 56 = 0x01#64 ∧ 0x0100000000000001#64 ≠ 0x0100000000000000#64 := by decide

theorem witness_SyncRetiresAndPends :
    0x0200000000000002#64 >>> 56 = 0x02#64 ∧ 0x0200000000000002#64 ≠ 0x0200000000000000#64 ∧
    0x0200000000000002#64 ≠ 0x0200000000000001#64 := by decide

theorem witness_CmpWritesOnlyFlags : (1 : Reg) ≠ 0 := by decide

theorem witness_ShrShiftsRight : IsWidth .w128 128 ∧ (511 : Nat) < 512 ∧ (127 : Nat) < 128 := by decide

theorem witness_ShlShiftsLeft : IsWidth .w256 256 ∧ (255 : Nat) < 512 ∧ ¬ (256 : Nat) < 256 := by decide

theorem witness_MovCopiesAtItsWidth : IsWidth .w128 128 ∧ (3 : Reg) ≠ 0 := by decide

theorem witness_WideIntegerLaws : IsWidth .w128 128 ∧ (3 : Reg) ≠ 2 := by decide

theorem witness_OnlyArithmeticWritesFlags :
    writesFlags (.li 1 7) = false ∧ ∃ t, exec (.li 1 7) (queue bare 0x1B10000000000007) = .next t := ⟨rfl, _, rfl⟩

/-- The largest T of the congruence and the largest of canonicity, for N = 97. -/
theorem witness_RedcDividesByTheRadix :
    (97 : Nat) < 2 ^ 256 ∧ (97 * ninv97.toNat + 1) % 2 ^ 256 = 0 ∧ 2 ^ 512 - 1 < 2 ^ 512 ∧
    97 * 2 ^ 256 - 1 < 97 * 2 ^ 256 := by decide +kernel

theorem witness_MontPowIsThePower :
    3 ≤ 97 ∧ (97 : Nat) < 2 ^ 256 ∧ (97 * ninv97.toNat + 1) % 2 ^ 256 = 0 ∧ 35 = 2 ^ 512 % 97 ∧
    14 = 5 * 2 ^ 256 % 97 ∧ 2 ^ 256 - 1 < 2 ^ 256 := by decide +kernel

/-- Each clause: locked, refused for N even and for N < 3, and accepted. -/
theorem witness_FcfgChecksAndLocks :
    ready.fieldReady = true ∧ bare.fieldReady = false ∧
    (¬ (((withRegs bare [(1, 96), (2, 35), (3, ninv97.toNat)]).reg 1).toNat % 2 = 1)) ∧
    (¬ (3 ≤ ((withRegs bare [(1, 1), (2, 0), (3, 2 ^ 256 - 1)]).reg 1).toNat)) ∧
    (((withRegs bare [(1, 97), (2, 35), (3, ninv97.toNat)]).reg 1).toNat % 2 = 1 ∧
      3 ≤ ((withRegs bare [(1, 97), (2, 35), (3, ninv97.toNat)]).reg 1).toNat ∧
      ((withRegs bare [(1, 97), (2, 35), (3, ninv97.toNat)]).reg 2).toNat <
        ((withRegs bare [(1, 97), (2, 35), (3, ninv97.toNat)]).reg 1).toNat ∧
      (((withRegs bare [(1, 97), (2, 35), (3, ninv97.toNat)]).reg 1).toNat *
        ((withRegs bare [(1, 97), (2, 35), (3, ninv97.toNat)]).reg 3).toNat + 1) % 2 ^ 256 = 0) := by decide +kernel

theorem witness_FaddAddsModuloN :
    bare.fieldReady = false ∧ ready.fieldReady = true ∧
    ((withRegs ready [(2, 97)]).reg 2).toNat ≥ ready.fieldN.toNat ∧
    ((withRegs ready [(2, 96)]).reg 2).toNat < ready.fieldN.toNat := by decide

theorem witness_FsubSubtractsModuloN :
    bare.fieldReady = false ∧ ready.fieldReady = true ∧
    ((withRegs ready [(3, 97)]).reg 3).toNat ≥ ready.fieldN.toNat ∧
    ((withRegs ready [(3, 96)]).reg 3).toNat < ready.fieldN.toNat := by decide

theorem witness_FmulIsMontgomeryProduct :
    bare.fieldReady = false ∧ ready.fieldReady = true ∧
    ((withRegs ready [(2, 97)]).reg 2).toNat ≥ ready.fieldN.toNat ∧
    ((withRegs ready [(2, 96)]).reg 2).toNat < ready.fieldN.toNat := by decide

theorem witness_FsqrIsMontgomerySquare : (15 : Reg) ≠ 0 ∧ bare.fieldReady = false ∧ ready.fieldReady = true ∧
    ((withRegs ready [(2, 97)]).reg 2).toNat ≥ ready.fieldN.toNat ∧ (ready.reg 2).toNat < ready.fieldN.toNat := by decide

theorem witness_FtomEntersMontgomeryForm : (15 : Reg) ≠ 0 ∧ bare.fieldReady = false ∧ ready.fieldReady = true ∧
    ((withRegs ready [(2, 97)]).reg 2).toNat ≥ ready.fieldN.toNat ∧ (ready.reg 2).toNat < ready.fieldN.toNat := by decide

theorem witness_FfrommLeavesMontgomeryForm : (15 : Reg) ≠ 0 ∧ bare.fieldReady = false ∧ ready.fieldReady = true ∧
    ((withRegs ready [(2, 97)]).reg 2).toNat ≥ ready.fieldN.toNat ∧ (ready.reg 2).toNat < ready.fieldN.toNat := by decide

/-- FPOW's clauses, with an exponent above N. -/
theorem witness_FpowIsThePower : bare.fieldReady = false ∧ ready.fieldReady = true ∧
    ((withRegs ready [(2, 97)]).reg 2).toNat ≥ ready.fieldN.toNat ∧
    ((withRegs ready [(2, 96), (3, 2 ^ 256 - 1)]).reg 2).toNat < ready.fieldN.toNat := by decide

/-- FINV's clauses: zero, N − 1 and N are each in one of them. -/
theorem witness_FinvIsTheFermatPower :
    (1 : Reg) ≠ 0 ∧ bare.fieldReady = false ∧ ready.fieldReady = true ∧
    ((withRegs ready [(2, 97)]).reg 2).toNat ≥ ready.fieldN.toNat ∧
    ((ready.reg 2).toNat < ready.fieldN.toNat ∧ (ready.reg 2).toNat = 0) ∧
    (((withRegs ready [(2, 96)]).reg 2).toNat < ready.fieldN.toNat ∧ ((withRegs ready [(2, 96)]).reg 2).toNat ≠ 0) := by
  decide

theorem witness_FieldResultsAreCanonical :
    fieldResult (.fsub 1 2 3) = some 1 ∧ ready.FieldConfigured ∧ ready.halted = false ∧
    ∃ t, exec (.fsub 1 2 3) ready = .next t ∧ t.halted = false :=
  ⟨rfl, ready_configured, rfl, _, rfl, rfl⟩

theorem witness_MontgomeryHomomorphism :
    (withRegs ready [(2, 96), (3, 96)]).FieldValid ∧ (5 : Reg) ≠ 4 ∧ (3 : Reg) ≠ 4 ∧
    ((withRegs ready [(2, 96), (3, 96)]).reg 2).toNat < ready.fieldN.toNat ∧
    ((withRegs ready [(2, 96), (3, 96)]).reg 3).toNat < ready.fieldN.toNat :=
  ⟨⟨⟨rfl, by decide, by decide, by decide, by decide⟩, by decide +kernel⟩, by decide, by decide, by decide, by decide⟩

theorem witness_InverseTimesElementIsOne :
    (withRegs ready [(2, 96)]).FieldValid ∧ Nat.Prime (withRegs ready [(2, 96)]).fieldN.toNat ∧ (1 : Reg) ≠ 2 ∧
    ((withRegs ready [(2, 96)]).reg 2).toNat < (withRegs ready [(2, 96)]).fieldN.toNat ∧
    ((withRegs ready [(2, 96)]).reg 2).toNat ≠ 0 := by
  refine ⟨⟨⟨rfl, by decide, by decide, by decide, by decide⟩, by decide +kernel⟩, ?_, by decide, by decide, by decide⟩
  have h : (withRegs ready [(2, 96)]).fieldN.toNat = 97 := by decide
  rw [h]
  norm_num

/-- The clauses: a configured field that a step keeps and one that a soft reset clears, one not configured that stays so, and FCFG setting FIELD_READY. -/
theorem witness_FieldConstantsChangeOnlyByReset :
    (ready.fieldReady = true ∧ ∃ t, step (queue ready 0x0100000000000000) = .next t) ∧
    (∃ t, step (turn ready (.host (.write 64 0x10 1#64))) = .next t ∧ t.fieldReady = false) ∧
    (∃ t, step (queue bare 0x0100000000000000) = .next t ∧ t.fieldReady = false) ∧
    (bare.fieldReady = false ∧
      gives (step (queue (withRegs bare [(1, 97), (2, 35), (3, ninv97.toNat)]) 0x2031200000000000)) (fun t => t.fieldReady) = true) :=
  ⟨⟨rfl, _, rfl⟩, ⟨_, rfl, rfl⟩, ⟨_, rfl, rfl⟩, rfl, by decide⟩

/-- Addresses 15 and 16 of a machine of 16 elements, and 2^18 − 1. -/
theorem witness_LdCopiesTheElement : 262143 < 2 ^ 18 ∧ 16 ≥ 2 ^ (fresh 4).cfg.ememLog ∧ 15 < 2 ^ (fresh 4).cfg.ememLog := by decide

theorem witness_StStoresTheRegister : 262143 < 2 ^ 18 ∧ 16 ≥ 2 ^ (fresh 4).cfg.ememLog ∧ 15 < 2 ^ (fresh 4).cfg.ememLog := by decide

/-- TWGEN's clauses, the region at and past the end of 16 elements, the root at N and at N − 1. -/
theorem witness_TwgenWritesTheTable :
    31 < 32 ∧ 262143 < 2 ^ 18 ∧ bare.fieldReady = false ∧ (field97 (fresh 4)).fieldReady = true ∧
    12 + 2 ^ (3 - 1) ≤ 2 ^ (fresh 4).cfg.ememLog ∧ 13 + 2 ^ (3 - 1) > 2 ^ (fresh 4).cfg.ememLog ∧
    ((withRegs ready [(4, 97)]).reg 4).toNat ≥ ready.fieldN.toNat ∧
    ((withRegs ready [(4, 96)]).reg 4).toNat < ready.fieldN.toNat := by decide

/-- BITREV's clauses in 16 elements: past the end, partial overlap, in place, and touching but disjoint. -/
theorem witness_BitrevPermutesTheRegion :
    (13 + 2 ^ 2 > 2 ^ (fresh 4).cfg.ememLog) ∧
    (0 + 2 ^ 2 ≤ 2 ^ (fresh 4).cfg.ememLog ∧ 3 + 2 ^ 2 ≤ 2 ^ (fresh 4).cfg.ememLog ∧ 0 < 3 + 2 ^ 2 ∧ 3 < 0 + 2 ^ 2 ∧ 0 ≠ 3) ∧
    (12 + 2 ^ 2 ≤ 2 ^ (fresh 4).cfg.ememLog ∧ 12 = 12) ∧ (4 + 2 ^ 2 ≤ 2 ^ (fresh 4).cfg.ememLog ∧ 0 + 2 ^ 2 ≤ 4) := by decide

theorem witness_BitrevTwiceRestores :
    7 < 2 ^ 3 ∧ 8 + 2 ^ 3 ≤ 2 ^ (fresh 4).cfg.ememLog ∧ 0 + 2 ^ 3 ≤ 2 ^ (fresh 4).cfg.ememLog ∧ 0 + 2 ^ 3 ≤ 8 := by decide

theorem witness_StagePairsPartitionTheBuffer :
    (1 ≤ 1 ∧ 1 ≤ 31) ∧ (3, 0) ∈ stagePairs 3 1 ∧ (0, 3) ∈ stagePairs 3 3 ∧ 7 < 2 ^ 3 := by decide

/-- Vector X2's machine in 16 elements: a table of REV order and size 2^2 at 8, the buffer at 0. -/
def stage : State :=
  withElems (field97 (fresh 4)) [(0, 50, .data), (1, 75, .data), (2, 72, .data), (3, 72, .data), (8, 61, .tw .rev 2), (9, 81, .tw .rev 2)]

theorem stage_ready : StageReady .nr 1 2 8 0 stage where
  ready     := rfl
  sizes     := by decide
  bufFits   := by decide
  twFits    := by decide
  disjoint  := by decide
  tags      := by decide
  bufValues := by decide
  twValues  := by decide

theorem witness_BflyRunsTheStage : (31 < 32 ∧ 262143 < 2 ^ 18) ∧ StageReady .nr 1 2 8 0 stage :=
  ⟨by decide, stage_ready⟩

/-- BFLY's clauses, in their order: sizes, bounds, overlap, order of the table, its size, and values. -/
theorem witness_BflyReportsTheFirstError :
    ((Mode.nr = .nr ∧ TwOrder.rev = .rev) ∨ (Mode.nr = .rn ∧ TwOrder.rev = .nat)) ∧
    bare.fieldReady = false ∧ stage.fieldReady = true ∧ (3 > 2) ∧ (1 ≤ 2 ∧ 2 ≤ 2) ∧
    15 + 2 ^ 2 / 2 > 2 ^ stage.cfg.ememLog ∧ (0 < 3 + 2 ^ 2 / 2 ∧ 3 < 0 + 2 ^ 2) ∧ (0 + 2 ^ 2 ≤ 4) ∧
    (∃ j < 2 ^ 2 / 2 ^ 1, ∃ i < 2 ^ 1 / 2, (stage.elem (4 + twIdx .nr 2 1 j i)).tag = .data) ∧
    (∀ j < 2 ^ 1 / 2 ^ 1, ∀ i < 2 ^ 1 / 2, (stage.elem (8 + twIdx .nr 1 1 j i)).tag = .tw .rev 2 ∧ 2 ≠ 1) ∧
    ((withElems stage [(0, 97, .data)]).elem 0).value.toNat ≥ stage.fieldN.toNat := by
  decide

theorem witness_BflyIsTheFieldButterfly :
    stage.FieldValid ∧ StageReady .nr 1 2 8 0 stage ∧ (stage.elem (pairTop 0 1 0 0)).value.toNat = stage.mont 4 ∧
    (stage.elem (pairBottom 0 1 0 0)).value.toNat = stage.mont 6 ∧
    (stage.elem (8 + twIdx .nr 2 1 0 0)).value.toNat = stage.mont 1 :=
  ⟨⟨⟨rfl, by decide, by decide, by decide, by decide⟩, by decide +kernel⟩, stage_ready, by decide, by decide, by decide⟩

/-- S = 4 over N = 97 with r = 22 (vectors X1 and X2): mont(22) = 81. -/
theorem witness_ForwardNrTransform :
    (withRegs stage [(4, 81)]).FieldValid ∧ 1 ≤ 2 ∧ 0 + 2 ^ 2 ≤ 2 ^ stage.cfg.ememLog ∧ 8 + 2 ^ 2 / 2 ≤ 2 ^ stage.cfg.ememLog ∧
    0 + 2 ^ 2 ≤ 8 ∧ ((withRegs stage [(4, 81)]).reg 4).toNat = stage.mont 22 ∧ 22 ^ (2 ^ 2 / 2) % 97 = 97 - 1 ∧
    ∀ j < 2 ^ 2, (stage.elem (0 + j)).value.toNat = stage.mont ([4, 6, 95, 95].getD j 0) :=
  ⟨⟨⟨rfl, by decide, by decide, by decide, by decide⟩, by decide +kernel⟩, by decide, by decide, by decide, by decide,
    by decide, by decide, by decide⟩

theorem witness_CmdWriteQueuesOrDrops :
    (turn halted (.host (.write 64 0x48 7#64))).HostMoves (.write 64 (halted.cfg.mmioBase + 0x48) 7#64) [] ∧
    (turn halted (.host (.read 64 0x48))).HostMoves (.read 64 (halted.cfg.mmioBase + 0x48)) [] ∧
    halted.halted = true ∧ small.fifo.length = small.cfg.qdepth ∧
    (bare.halted = false ∧ bare.fifo.length ≠ bare.cfg.qdepth) := by decide

theorem witness_CtrlWriteResetsOrClears :
    (turn halted (.host (.write 64 0x10 2#64))).HostMoves (.write 64 (halted.cfg.mmioBase + 0x10) 2#64) [] ∧
    (turn halted (.host (.read 64 0x10))).HostMoves (.read 64 (halted.cfg.mmioBase + 0x10)) [] ∧
    (3#64).getLsbD 0 = true ∧ ((2#64).getLsbD 0 = false ∧ (2#64).getLsbD 1 = true) ∧
    ((4#64).getLsbD 0 = false ∧ (4#64).getLsbD 1 = false) := by decide

theorem witness_InterruptRegisters :
    (turn halted (.host (.write 64 0x38 7#64))).HostMoves (.write 64 (halted.cfg.mmioBase + 0x38) 7#64) [] ∧
    (turn halted (.host (.write 64 0x40 1#64))).HostMoves (.write 64 (halted.cfg.mmioBase + 0x40) 1#64) [] ∧
    (turn halted (.host (.read 64 0x38))).HostMoves (.read 64 (halted.cfg.mmioBase + 0x38)) [] ∧
    (turn halted (.host (.read 64 0x40))).HostMoves (.read 64 (halted.cfg.mmioBase + 0x40)) [] ∧
    (turn halted (.host (.read 64 0x18))).HostMoves (.read 64 (halted.cfg.mmioBase + 0x18)) [] ∧
    gives (step (turn halted (.host (.write 64 0x40 2#64)))) (fun t => t.irqPend.getLsbD 0) = true := by decide

/-- The first and last offset of each unmapped range. -/
theorem witness_ReadsHaveNoSideEffects :
    (turn bare (.host (.read 64 0x58))).HostMoves (.read 64 (bare.cfg.mmioBase + 0x58)) [] ∧
    (0x58 ≤ 0x58 ∧ 0xF8 < 0x100) ∧ (0x160 ≤ 0x160 ∧ 0x1F8 < 0x200) ∧ (0x400 ≤ 0x400 ∧ 0x7FFFF8 < 0x800000) ∧
    (0xFFFFF8 < 0x1000000 ∧ 0xFFFFF8 % 8 = 0 ∧ 0x800000 + 32 * 2 ^ (fresh 17).cfg.ememLog ≤ 0xFFFFF8) := by decide

theorem witness_ReadOnlyWritesAreIgnored :
    (turn bare (.host (.write 64 0x00 7#64))).HostMoves (.write 64 (bare.cfg.mmioBase + 0x00) 7#64) [] ∧
    (0x50 ≤ 0x50 ∧ 0x1F8 < 0x200) ∧ (0x400 ≤ 0x400 ∧ 0x7FFFF8 < 0x800000) ∧
    (0xFFFFF8 < 0x1000000 ∧ 0x800000 + 32 * 2 ^ (fresh 17).cfg.ememLog ≤ 0xFFFFF8) := by decide

theorem witness_UnsupportedAccessesAreRefused :
    (turn bare (.host (.read 32 0x00))).HostMoves (.read 32 (bare.cfg.mmioBase + 0x00)) [] ∧ 32 ≠ 64 ∧
    (turn bare (.host (.write 64 0xFFFFFF 0#64))).HostMoves (.write 64 (bare.cfg.mmioBase + 0xFFFFFF) 0#64) [] ∧
    0xFFFFFF < 0x1000000 ∧ 0xFFFFFF % 8 ≠ 0 := by decide

/-- The last word of each window, NINV, w15 and element 2^18 − 1, and the first and last offset past 2^17 elements. -/
theorem witness_WindowsTransferOneWord :
    (turn bare (.host (.read 64 0x158))).HostMoves (.read 64 (bare.cfg.mmioBase + 0x140 + 8 * (3 : Fin 4).val)) [] ∧
    (turn bare (.host (.write 64 0x3F8 7#64))).HostMoves
      (.write 64 (bare.cfg.mmioBase + 0x200 + 32 * (15 : Reg).val + 8 * (3 : Fin 4).val) 7#64) [] ∧
    (turn bare (.host (.write 64 0xFFFFF8 7#64))).HostMoves
      (.write 64 (bare.cfg.mmioBase + 0x800000 + 32 * 262143 + 8 * (3 : Fin 4).val) 7#64) [] ∧
    262143 < 2 ^ bare.cfg.ememLog ∧ bare.cfg.ememLog ≤ 18 ∧
    (turn bare (.host (.write 64 0x158 7#64))).HostMoves (.write 64 (bare.cfg.mmioBase + 0x158) 7#64) [] ∧
    0x100 ≤ 0x158 ∧ 0x158 < 0x160 ∧ 0x158 % 8 = 0 ∧
    0x800000 + 32 * 2 ^ (fresh 17).cfg.ememLog ≤ 0xC00000 ∧ 0xFFFFF8 < 0x1000000 ∧ 0xFFFFF8 % 8 = 0 ∧
    (turn (fresh 17) (.host (.read 64 0xC00000))).HostMoves (.read 64 ((fresh 17).cfg.mmioBase + 0xC00000)) [] := by decide

theorem witness_ReadOnlyRegistersShowTheState :
    halted.cfg.Valid ∧ halted.fifo.length < 256 ∧
    (turn halted (.host (.read 64 0x18))).HostMoves (.read 64 (halted.cfg.mmioBase + 0x18)) [] ∧
    (turn halted (.host (.read 64 0x50))).HostMoves (.read 64 (halted.cfg.mmioBase + 0x50)) [] := by decide

end Sys2Proof.Tests
end

