-- ==== Sys2Proof/Proofs/BitReversal.lean ====
section
/-! PROOF. The bits of a reversed index (R9). -/

namespace Sys2Proof.Machine

open Sys2Proof

/-- The low bit of `i` becomes bit k, and the other bits keep the reversal one place shorter. -/
theorem testBit_bitrev_succ (k i j : Nat) :
    (bitrev (k + 1) i).testBit j = if j < k then (bitrev k (i / 2)).testBit j else (i % 2).testBit (j - k) := by
  rw [bitrev, Nat.mul_comm, Nat.testBit_two_pow_mul_add _ (bitrev_lt k _)]

/-- Bit j of bitrev_k(i) is bit k−1−j of `i` (R9). -/
theorem testBit_bitrev (k i j : Nat) :
    (bitrev k i).testBit j = (decide (j < k) && i.testBit (k - 1 - j)) := by
  induction k generalizing i with
  | zero => simp [bitrev]
  | succ k ih =>
    rw [testBit_bitrev_succ]
    obtain hlt | rfl | hgt := Nat.lt_trichotomy j k
    · have hbit : k - 1 - j + 1 = k - j := by omega
      simp [ih, Nat.testBit_div_two, hbit, hlt, Nat.lt_succ_of_lt hlt]
    · simp
    · have hhigh : (i % 2).testBit (j - k) = false :=
        Nat.testBit_eq_false_of_lt <| (Nat.mod_lt i two_pos).trans_le (Nat.le_self_pow (by omega) 2)
      simp [hhigh, hgt.not_gt, Nat.not_lt.2 hgt]

/-- Settles O44, by induction on the number of bits. -/
theorem bitrevReversesTheBits : Obligations.BitrevReversesTheBits := testBit_bitrev

end Sys2Proof.Machine
end

