-- ==== Sys2Proof/Proofs/Redc.lean ====
section
/-! PROOF. REDC divides by the radix modulo N (R11). -/

namespace Sys2Proof.Machine

open Sys2Proof

/-- The exact sum T + m·N that REDC divides by R (R11). -/
def redcSum (n ninv t : Nat) : Nat := t + (t % radix * ninv % radix) * n

theorem redc_eq (n ninv t : Nat) :
    redc n ninv t =
      (if n ≤ redcSum n ninv t / radix then redcSum n ninv t / radix - n else redcSum n ninv t / radix) % radix := rfl

/-- With N·NINV ≡ −1 the factor m cancels T modulo R: the division is exact. -/
theorem radix_dvd_redcSum {n ninv : Nat} (hinv : radix ∣ n * ninv + 1) (t : Nat) :
    radix ∣ redcSum n ninv t := by
  have hm : t % radix * ninv % radix ≡ t * ninv [MOD radix] :=
    (Nat.mod_modEq _ _).trans ((Nat.mod_modEq _ _).mul_right _)
  have hsum : redcSum n ninv t ≡ t * (n * ninv + 1) [MOD radix] := by
    calc redcSum n ninv t ≡ t + t * ninv * n [MOD radix] := (hm.mul_right n).add_left t
      _ = t * (n * ninv + 1) := by ring
  exact (hsum.dvd_iff dvd_rfl).2 (hinv.mul_left t)

/-- The sum exceeds T by less than N·R, so dividing it by R adds at most N to a bound on T/R. -/
theorem redcSum_div_lt {n ninv t b : Nat} (ht : t < b * radix) : redcSum n ninv t / radix < b + n := by
  have hm : (t % radix * ninv % radix) * n ≤ radix * n :=
    Nat.mul_le_mul_right n (Nat.mod_lt _ (by decide)).le
  rw [Nat.div_lt_iff_lt_mul (by decide), Nat.add_mul, Nat.mul_comm n radix]
  exact Nat.add_lt_add_of_lt_of_le ht hm

/-- The final conditional subtraction loses nothing: REDC is the quotient up to one N. -/
theorem redc_modEq_redcSum_div {n ninv t : Nat} (hn : n < radix) (ht : t < radix * radix) :
    redc n ninv t ≡ redcSum n ninv t / radix [MOD n] := by
  have hlt : redcSum n ninv t / radix < radix + n := redcSum_div_lt ht
  rw [redc_eq]
  split
  case isTrue hle =>
    rw [Nat.mod_eq_of_lt (Nat.sub_lt_right_of_lt_add hle hlt)]
    exact (Nat.mod_eq_sub_mod hle).symm
  case isFalse hgt => rw [Nat.mod_eq_of_lt ((Nat.not_le.1 hgt).trans hn)]

/-- REDC(T)·R ≡ T modulo N (R11). -/
theorem redc_mul_radix_modEq {n ninv t : Nat} (hn : n < radix) (hinv : radix ∣ n * ninv + 1)
    (ht : t < radix * radix) : redc n ninv t * radix ≡ t [MOD n] := by
  calc redc n ninv t * radix
      ≡ redcSum n ninv t / radix * radix [MOD n] := (redc_modEq_redcSum_div hn ht).mul_right _
    _ = redcSum n ninv t := Nat.div_mul_cancel (radix_dvd_redcSum hinv t)
    _ ≡ t [MOD n] := Nat.add_mul_mod_self_right _ _ _

/-- REDC of T < N·R is canonical (R11). -/
theorem redc_lt {n ninv t : Nat} (ht : t < n * radix) : redc n ninv t < n := by
  have hlt : redcSum n ninv t / radix < n + n := redcSum_div_lt ht
  rw [redc_eq]
  refine (Nat.mod_le _ _).trans_lt ?_
  split <;> omega

/-- Settles O27: exactness, congruence and canonicity are each a lemma about the sum T + m·N. -/
theorem redcDividesByTheRadix : Obligations.RedcDividesByTheRadix := by
  intro n ninv t
  refine ⟨rfl, fun hn hinv ht => ?_⟩
  have hdvd : radix ∣ n * ninv + 1 := Nat.dvd_of_mod_eq_zero hinv
  have hsq : t < radix * radix := by simpa only [← pow_add, Nat.reduceAdd] using ht
  exact ⟨Nat.mod_eq_zero_of_dvd (radix_dvd_redcSum hdvd t), redc_mul_radix_modEq hn hdvd hsq, redc_lt⟩

end Sys2Proof.Machine
end

