-- ==== Sys2Proof/Proofs/HostAccess.lean ====
section
/-! PROOF. A step of the host, said for the register that its address names (R60, R61, R90), and what such a step can be. -/

namespace Sys2Proof.Machine

open Sys2Proof

/-- A host read of register `m` answers what `m` shows and changes nothing else (R90). -/
theorem step_readOf {s : State} {addr off : Nat} {rest : List Turn} {m : MmioReg}
    (h : s.HostMoves (.read 64 addr) rest) (haddr : addr = s.cfg.mmioBase + off) (hmap : mmioMap s.cfg off = m)
    (hlt : off < 0x1000000) (h8 : off % 8 = 0) :
    step s = .next { s with turns := rest, reads := s.mmioValue m :: s.reads } := by
  subst haddr hmap
  exact step_hostRead h hlt h8

/-- A host write of register `m` does what `m` says, once the turn is used up. -/
theorem step_writeOf {s : State} {addr off : Nat} {v : Word64} {rest : List Turn} {m : MmioReg}
    (h : s.HostMoves (.write 64 addr v) rest) (haddr : addr = s.cfg.mmioBase + off) (hmap : mmioMap s.cfg off = m)
    (hlt : off < 0x1000000) (h8 : off % 8 = 0) :
    step s = .next (({ s with turns := rest } : State).mmioWrite m v) := by
  subst haddr hmap
  exact step_hostWrite h hlt h8

/-- A step on the host's turn is the access, on the state with that turn used up (R93). -/
theorem step_host {s : State} {a : HostAccess} {rest : List Turn} (h : s.HostMoves a rest) :
    step s = hostAccess a { s with turns := rest } := by
  simp only [step, takeTurn, show s.turns = _ from h]

/-- A host access that has an effect put one value into `reads`, or wrote one MMIO register. -/
theorem hostAccess_cases {a : HostAccess} {s t : State} (h : hostAccess a s = .next t) :
    (∃ x : Word64, t = { s with reads := x :: s.reads }) ∨ ∃ (m : MmioReg) (v : Word64), t = s.mmioWrite m v := by
  cases a with
  | read width addr =>
    simp only [hostAccess] at h
    split at h
    · cases h
    · cases h; exact .inl ⟨_, rfl⟩
  | write width addr data =>
    simp only [hostAccess] at h
    split at h
    · cases h
    · cases h; exact .inr ⟨_, _, rfl⟩

/-- An offset past the last element names nothing (R75, R88). -/
theorem mmioMap_pastElements (cfg : Config) {off : Nat} (h : 0x800000 + 32 * cfg.ememN ≤ off) :
    mmioMap cfg off = .unmapped := by
  have hj : ¬ (off - 0x800000) / 32 < cfg.ememN := by omega
  unfold mmioMap
  rw [if_neg (by omega), if_neg (by omega), if_neg (by omega), if_neg (by omega), if_neg (by omega),
    if_neg (by omega), if_neg (by omega), if_neg (by omega), if_neg hj]

/-- A write of the field-constant window is ignored (R73). -/
theorem mmioWrite_fieldWindow (s : State) (cfg : Config) {off : Nat} (v : Word64) (hlo : 0x100 ≤ off)
    (hhi : off < 0x160) : s.mmioWrite (mmioMap cfg off) v = s := by
  unfold mmioMap
  rw [if_neg (by omega), if_neg (by omega), if_pos hhi]
  split
  case isTrue => rfl
  case isFalse => split <;> rfl

end Sys2Proof.Machine
end

