-- ==== Sys2Proof/Proofs/Windows.lean ====
section
/-! PROOF. The windows transfer one 64-bit word (R73, R74, R75, R87). -/

namespace Sys2Proof.Machine

open Sys2Proof

/-- A host write of a register's word changes that word of that register only (R74, R87). -/
theorem mmioWrite_regWord_reg (s : State) (r : Reg) (q p : Fin 4) (v : Word64) :
    wordOf ((s.mmioWrite (.regWord r q) v).reg r) p = if p = q then v else wordOf (s.reg r) p := by
  rw [State.mmioWrite, State.reg_setReg_same, replaceWord_words]

theorem mmioWrite_regWord_reg_ne (s : State) {r a : Reg} (q : Fin 4) (v : Word64) (h : a ≠ r) :
    (s.mmioWrite (.regWord r q) v).reg a = s.reg a :=
  State.reg_setReg_ne s _ h

/-- What any element is after a host write of one word (R75). -/
theorem mmioWrite_elemWord_elem (s : State) (j a : Nat) (q : Fin 4) (v : Word64) :
    (s.mmioWrite (.elemWord j q) v).elem a = if a = j then (s.elem j).hostWrite q v else s.elem a :=
  Memory.read_write s.epoch s.mem j a _

/-- A host write of an element's word changes that word of its value only (R87). -/
theorem wordOf_value_hostWrite (e : Element) (q p : Fin 4) (v : Word64) :
    wordOf (e.hostWrite q v).value p = if p = q then v else wordOf e.value p := by
  simp only [← Element.word_eq_wordOf_value, Element.word_hostWrite]

/-- A read of the field-constant window returns word q of N, R2 or NINV (R73). -/
theorem step_readFieldWord (s : State) (q : Fin 4) (rest : List Turn) :
    (s.HostMoves (.read 64 (s.cfg.mmioBase + 0x100 + 8 * q.val)) rest →
      step s = .next { s with turns := rest, reads := wordOf s.fieldN q :: s.reads }) ∧
    (s.HostMoves (.read 64 (s.cfg.mmioBase + 0x120 + 8 * q.val)) rest →
      step s = .next { s with turns := rest, reads := wordOf s.fieldR2 q :: s.reads }) ∧
    (s.HostMoves (.read 64 (s.cfg.mmioBase + 0x140 + 8 * q.val)) rest →
      step s = .next { s with turns := rest, reads := wordOf s.fieldNinv q :: s.reads }) := by
  obtain ⟨hN, hR2, hNinv⟩ := mmioMap_fieldWord s.cfg q
  have hq := q.isLt
  exact ⟨fun h => step_readOf h (Nat.add_assoc ..) hN (by omega) (by omega),
    fun h => step_readOf h (Nat.add_assoc ..) hR2 (by omega) (by omega),
    fun h => step_readOf h (Nat.add_assoc ..) hNinv (by omega) (by omega)⟩

/-- The register window (R74): reads, and the effect and frame of a write. -/
theorem step_regWindow (s : State) (r : Reg) (q : Fin 4) (rest : List Turn) :
    (s.HostMoves (.read 64 (s.cfg.mmioBase + 0x200 + 32 * r.val + 8 * q.val)) rest →
      step s = .next { s with turns := rest, reads := wordOf (s.reg r) q :: s.reads }) ∧
    ∀ v : Word64, s.HostMoves (.write 64 (s.cfg.mmioBase + 0x200 + 32 * r.val + 8 * q.val) v) rest →
      Answers (step s) fun t =>
        (∀ p : Fin 4, wordOf (t.reg r) p = if p = q then v else wordOf (s.reg r) p) ∧
        SameRegsBut r s t ∧ SameFlags s t ∧ SameField s t ∧ SameElems s t ∧ SameControl s t ∧ t.turns = rest := by
  have hr := r.isLt
  have hq := q.isLt
  have haddr : s.cfg.mmioBase + 0x200 + 32 * r.val + 8 * q.val =
      s.cfg.mmioBase + (0x200 + 32 * r.val + 8 * q.val) := by omega
  refine ⟨fun h => step_readOf h haddr (mmioMap_regWord s.cfg r q) (by omega) (by omega), fun v h => ?_⟩
  refine ⟨_, step_writeOf h haddr (mmioMap_regWord s.cfg r q) (by omega) (by omega), ?_⟩
  exact ⟨fun p => mmioWrite_regWord_reg { s with turns := rest } r q p v,
    fun a ha => mmioWrite_regWord_reg_ne { s with turns := rest } q v ha,
    ⟨rfl, rfl⟩, ⟨rfl, rfl, rfl, rfl⟩, fun _ => rfl,
    ⟨rfl, rfl, rfl, rfl, rfl, rfl, rfl, rfl, rfl, rfl, rfl, rfl⟩, rfl⟩

/-- The element window (R75): reads, and the effect and frame of a write. -/
theorem step_elemWindow (s : State) {j : Nat} (q : Fin 4) (rest : List Turn) (hj : j < s.cfg.ememN)
    (hlog : s.cfg.ememLog ≤ 18) :
    (s.HostMoves (.read 64 (s.cfg.mmioBase + 0x800000 + 32 * j + 8 * q.val)) rest →
      step s = .next { s with turns := rest, reads := wordOf (s.elem j).value q :: s.reads }) ∧
    ∀ v : Word64, s.HostMoves (.write 64 (s.cfg.mmioBase + 0x800000 + 32 * j + 8 * q.val) v) rest →
      Answers (step s) fun t =>
        (∀ p : Fin 4, wordOf (t.elem j).value p = if p = q then v else wordOf (s.elem j).value p) ∧
        (t.elem j).tag = .data ∧ (∀ a, a ≠ j → t.elem a = s.elem a) ∧
        SameRegs s t ∧ SameFlags s t ∧ SameField s t ∧ SameControl s t ∧ t.turns = rest := by
  have hq := q.isLt
  have hjlt : j < 2 ^ 18 := hj.trans_le (Nat.pow_le_pow_right two_pos hlog)
  have haddr : s.cfg.mmioBase + 0x800000 + 32 * j + 8 * q.val =
      s.cfg.mmioBase + (0x800000 + 32 * j + 8 * q.val) := by omega
  refine ⟨fun h => ?_, fun v h => ?_⟩
  · rw [← Element.word_eq_wordOf_value]
    exact step_readOf h haddr (mmioMap_elemWord s.cfg q hj) (by omega) (by omega)
  · have helem := mmioWrite_elemWord_elem { s with turns := rest } j (q := q) (v := v)
    have hself := (helem j).trans (if_pos rfl)
    refine ⟨_, step_writeOf h haddr (mmioMap_elemWord s.cfg q hj) (by omega) (by omega), fun p => ?_, ?_,
      fun a ha => (helem a).trans (if_neg ha), fun _ => rfl, ⟨rfl, rfl⟩, ⟨rfl, rfl, rfl, rfl⟩,
      ⟨rfl, rfl, rfl, rfl, rfl, rfl, rfl, rfl, rfl, rfl, rfl, rfl⟩, rfl⟩
    · rw [hself]; exact wordOf_value_hostWrite (s.elem j) q p v
    · rw [hself, Element.tag_hostWrite]

/-- Settles O59, window by window; each access is a step on the register its address names. -/
theorem windowsTransferOneWord : Obligations.WindowsTransferOneWord := by
  refine ⟨step_readFieldWord, fun s off v rest hlo hhi h8 h => ?_, fun s off rest hpast hlt h8 => ?_,
    step_regWindow, fun s j q rest hj hlog => step_elemWindow s q rest hj hlog⟩
  · rw [step_hostWrite h (by omega) h8, mmioWrite_fieldWindow _ _ v hlo hhi]
  · have hmap := mmioMap_pastElements s.cfg hpast
    exact ⟨fun h => step_readOf h rfl hmap hlt h8, fun v h => step_writeOf h rfl hmap hlt h8⟩

end Sys2Proof.Machine
end

