-- ==== Sys2Proof/Proofs/ControlRegisters.lean ====
section
/-! PROOF. Writes of CMD and CTRL (R64, R71). -/

namespace Sys2Proof.Machine

open Sys2Proof

/-- A CMD write to a halted core or a full FIFO is dropped (R71). -/
theorem writeCmd_drops {s : State} (c : Word64) (h : s.halted = true ∨ s.level = s.cfg.qdepth) :
    s.writeCmd c = { s with cmdDropped := true } := if_pos h

/-- A CMD write to a running core with room in its FIFO is queued at the tail (R71). -/
theorem writeCmd_queues {s : State} (c : Word64) (hrun : s.halted = false) (hroom : s.level ≠ s.cfg.qdepth) :
    s.writeCmd c = { s with fifo := s.fifo ++ [c] } := if_neg (by simp [hrun, hroom])

/-- SOFT_RESET comes before CLEAR_ERR (R64). -/
theorem writeCtrl_softReset (s : State) {v : Word64} (h0 : v.getLsbD 0 = true) : s.writeCtrl v = s.softReset :=
  if_pos h0

theorem writeCtrl_clearErr (s : State) {v : Word64} (h0 : v.getLsbD 0 = false) (h1 : v.getLsbD 1 = true) :
    s.writeCtrl v = s.clearErr :=
  (if_neg (Bool.eq_false_iff.1 h0)).trans (if_pos h1)

theorem writeCtrl_neither (s : State) {v : Word64} (h0 : v.getLsbD 0 = false) (h1 : v.getLsbD 1 = false) :
    s.writeCtrl v = s :=
  (if_neg (Bool.eq_false_iff.1 h0)).trans (if_neg (Bool.eq_false_iff.1 h1))

/-- Settles O53: the write does what `writeCmd` does in each of its two cases, and CMD shows 0. -/
theorem cmdWriteQueuesOrDrops : Obligations.CmdWriteQueuesOrDrops := by
  refine ⟨fun s c rest h => ?_, fun s rest h => step_readOf (m := .cmd) h rfl rfl (by decide) (by decide)⟩
  have hstep : step s = .next (({ s with turns := rest } : State).writeCmd c) :=
    step_writeOf (m := .cmd) h rfl rfl (by decide) (by decide)
  refine ⟨fun hdrop => ?_, fun hrun hroom => ?_⟩
  · rw [hstep, writeCmd_drops (s := { s with turns := rest }) c hdrop]
  · rw [hstep, writeCmd_queues (s := { s with turns := rest }) c hrun hroom]

/-- Settles O54: the write does what `writeCtrl` does in each of its three cases, and CTRL shows 0. -/
theorem ctrlWriteResetsOrClears : Obligations.CtrlWriteResetsOrClears := by
  refine ⟨fun s v rest h => ?_, fun s rest h => step_readOf (m := .ctrl) h rfl rfl (by decide) (by decide)⟩
  have hstep : step s = .next (({ s with turns := rest } : State).writeCtrl v) :=
    step_writeOf (m := .ctrl) h rfl rfl (by decide) (by decide)
  refine ⟨fun h0 => ?_, fun h0 h1 => ?_, fun h0 h1 => ?_⟩
  · rw [hstep, writeCtrl_softReset _ h0]; rfl
  · rw [hstep, writeCtrl_clearErr _ h0 h1]; rfl
  · rw [hstep, writeCtrl_neither _ h0 h1]

end Sys2Proof.Machine
end

