-- ==== Sys2Proof/Proofs/ReadOnlyRegisters.lean ====
section
/-! PROOF. What the read-only registers show: PARAMS as a sum, STATUS bit by bit (R62, R63, R65 to R68, R72). -/

namespace Sys2Proof.Machine

open Sys2Proof

/-- Two joined vectors as a sum of naturals. -/
theorem toNat_append_eq_add {m n : Nat} (x : BitVec m) (y : BitVec n) :
    (x ++ y).toNat = x.toNat * 2 ^ n + y.toNat := by
  rw [BitVec.toNat_append, ← Nat.shiftLeft_add_eq_or_of_lt y.isLt, Nat.shiftLeft_eq]

/-- PARAMS with parameters in the ranges of R6, whose fields then lose nothing (R63). -/
theorem paramsWord_eq {cfg : Config} (h : cfg.Valid) :
    paramsWord cfg = BitVec.ofNat 64 (1 * 2 ^ 24 + 16 * 2 ^ 16 + cfg.qdepth * 2 ^ 8 + cfg.ememLog) := by
  obtain ⟨_, hlog, _, hdepth⟩ := h
  apply BitVec.eq_of_toNat_eq
  simp only [paramsWord, toNat_append_eq_add, BitVec.toNat_ofNat]
  omega

/-- The seven flags of STATUS, bits 0 to 6 (R65). -/
theorem statusWord_flags (s : State) :
    s.statusWord.getLsbD 0 = s.busy ∧ s.statusWord.getLsbD 1 = s.halted ∧ s.statusWord.getLsbD 2 = s.fieldReady ∧
    s.statusWord.getLsbD 3 = s.cmdDropped ∧ s.statusWord.getLsbD 4 = s.flagC ∧ s.statusWord.getLsbD 5 = s.flagZ ∧
    s.statusWord.getLsbD 6 = s.irq := by
  simp only [State.statusWord, BitVec.getLsbD_append, BitVec.getLsbD_ofBool]
  simp

/-- STATUS above its seven flags: zeros, LEVEL, zeros (R65). -/
theorem statusWord_aboveFlags (s : State) (i n : Nat) :
    s.statusWord.extractLsb' (i + 7) n = (0#40 ++ BitVec.ofNat 8 s.level ++ 0#9).extractLsb' i n := by
  simp only [State.statusWord]
  iterate 7 rw [BitVec.extractLsb'_append_eq_of_le (by omega)]
  rfl

/-- LEVEL is bits 16 to 23 of STATUS, and the bits on either side of it are 0 (R65). -/
theorem statusWord_level (s : State) :
    s.statusWord.extractLsb' 7 9 = 0#9 ∧ s.statusWord.extractLsb' 16 8 = BitVec.ofNat 8 s.level ∧
    s.statusWord.extractLsb' 24 40 = 0#40 := by
  refine ⟨?_, ?_, ?_⟩
  · rw [statusWord_aboveFlags s 0, BitVec.extractLsb'_append_eq_right]
  · rw [statusWord_aboveFlags s 9, BitVec.extractLsb'_append_eq_of_le (by decide)]
    exact BitVec.extractLsb'_append_eq_right
  · rw [statusWord_aboveFlags s 17, BitVec.extractLsb'_append_eq_of_le (by decide)]
    exact BitVec.extractLsb'_append_eq_left

/-- A read of STATUS returns the status word. -/
theorem step_readStatus {s : State} {rest : List Turn} (h : s.HostMoves (.read 64 (s.cfg.mmioBase + 0x18)) rest) :
    step s = .next { s with turns := rest, reads := s.statusWord :: s.reads } :=
  step_readOf (m := .status) h rfl rfl (by decide) (by decide)

/-- Settles O60, register by register. -/
theorem readOnlyRegistersShowTheState : Obligations.ReadOnlyRegistersShowTheState := by
  intro s rest hcfg
  refine ⟨fun h => step_readOf (m := .id) h rfl rfl (by decide) (by decide), fun h => ?params,
    fun hlevel h => ⟨s.statusWord, step_readStatus h, ?status⟩, fun h => ?errCode,
    fun h => step_readOf (m := .errCmd) h rfl rfl (by decide) (by decide),
    fun h => step_readOf (m := .errSeq) h rfl rfl (by decide) (by decide),
    fun h => step_readOf (m := .retired) h rfl rfl (by decide) (by decide)⟩
  case params =>
    rw [← paramsWord_eq hcfg]
    exact step_readOf (m := .params) h rfl rfl (by decide) (by decide)
  case status =>
    obtain ⟨hbusy, hhalted, hready, hdropped, hC, hZ, hirq⟩ := statusWord_flags s
    obtain ⟨hlow, hmid, hhigh⟩ := statusWord_level s
    have hnat : (BitVec.ofNat 8 s.level).toNat = s.fifo.length := Nat.mod_eq_of_lt hlevel
    exact ⟨hbusy, hhalted, hready, hdropped, hC, hZ, hirq, hlow, hmid ▸ hnat, hhigh⟩
  case errCode =>
    rw [BitVec.ofNat_toNat]
    exact step_readOf (m := .errCode) h rfl rfl (by decide) (by decide)

end Sys2Proof.Machine
end

