-- ==== Sys2Proof/Proofs/Interrupts.lean ====
section
/-! PROOF. IRQ_EN, IRQ_PEND and the interrupt output (R69, R70, R328). -/

namespace Sys2Proof.Machine

open Sys2Proof

/-- Pending bits after a write of IRQ_PEND: those written as 1 are cleared (R70). -/
theorem mmioWrite_irqPend_bit (s : State) (v : Word64) {b : Nat} (hb : b < 3) :
    (s.mmioWrite .irqPend v).irqPend.getLsbD b = (s.irqPend.getLsbD b && !v.getLsbD b) := by
  simp [State.mmioWrite, hb]

/-- No write of the host sets a pending bit (R70). -/
theorem pending_of_mmioWrite {s : State} {m : MmioReg} {v : Word64} {b : Nat}
    (h : (s.mmioWrite m v).irqPend.getLsbD b = true) : s.irqPend.getLsbD b = true := by
  cases m
  case ctrl =>
    simp only [State.mmioWrite, State.writeCtrl] at h
    split at h
    · simp at h
    · split at h <;> exact h
  case irqPend =>
    simp only [State.mmioWrite, BitVec.getLsbD_and, Bool.and_eq_true] at h
    exact h.1
  case cmd =>
    simp only [State.mmioWrite, State.writeCmd] at h
    split at h <;> exact h
  all_goals exact h

/-- No host access sets a pending bit (R70). -/
theorem pending_of_hostAccess {a : HostAccess} {s t : State} {b : Nat} (h : hostAccess a s = .next t)
    (hb : t.irqPend.getLsbD b = true) : s.irqPend.getLsbD b = true := by
  obtain ⟨_, rfl⟩ | ⟨_, _, rfl⟩ := hostAccess_cases h
  · exact hb
  · exact pending_of_mmioWrite hb

/-- IRQ is 1 exactly when some source is pending and enabled (R328). -/
theorem State.irq_iff (s : State) :
    s.irq = true ↔ ∃ b < 3, s.irqPend.getLsbD b = true ∧ s.irqEn.getLsbD b = true := by
  simp [State.irq, BitVec.eq_of_getLsbD_eq_iff]

/-- Settles O55: each access is a step on the register its address names. -/
theorem interruptRegisters : Obligations.InterruptRegisters := by
  refine ⟨fun s v rest h => ?writeEn, fun s v rest h => ?writePend, fun s rest h => ?readEn, fun s rest h => ?readPend,
    fun s t a rest h ht b _ hb => ?noneSet, fun s rest h => ?status, State.irq_iff⟩
  case writeEn =>
    rw [← BitVec.setWidth_eq_extractLsb' (by decide)]
    exact step_writeOf (m := .irqEn) h rfl rfl (by decide) (by decide)
  case writePend =>
    exact ⟨_, step_writeOf (m := .irqPend) h rfl rfl (by decide) (by decide), rfl,
      fun b hb => mmioWrite_irqPend_bit { s with turns := rest } v hb⟩
  case readEn =>
    rw [BitVec.ofNat_toNat]
    exact step_readOf (m := .irqEn) h rfl rfl (by decide) (by decide)
  case readPend =>
    rw [BitVec.ofNat_toNat]
    exact step_readOf (m := .irqPend) h rfl rfl (by decide) (by decide)
  case noneSet => exact pending_of_hostAccess (s := { s with turns := rest }) ((step_host h).symm.trans ht) hb
  case status =>
    obtain ⟨_, _, _, _, _, _, hirq⟩ := statusWord_flags s
    exact ⟨s.statusWord, step_readStatus h, hirq⟩

end Sys2Proof.Machine
end

