-- ==== Sys2Proof/Proofs/OpcodeMap.lean ====
section
/-! PROOF. The decoder against the printed opcode map (R142, R143, R144). -/

namespace Sys2Proof.Machine

open Sys2Proof

/-- The printed map compares c[63:56] as a 64-bit word, the decoder as an 8-bit field. -/
theorem shiftRight_56_eq_wordOpcode (c : Word64) : c >>> 56 = (wordOpcode c).setWidth 64 := by
  have hlt : c.toNat < 2 ^ 64 := c.isLt
  apply BitVec.eq_of_toNat_eq
  simp only [wordOpcode, BitVec.toNat_ushiftRight, BitVec.toNat_setWidth, BitVec.extractLsb'_toNat,
    Nat.shiftRight_eq_div_pow]
  omega

/-- The row the decoder uses for an opcode is a row of the printed map. -/
theorem mem_opcodeMap_of_opcodeRow {op : BitVec 8} {c mask : Word64} {i : Instr}
    (h : opcodeRow op.toNat c = some (mask, i)) : (op.setWidth 64, mask) ∈ opcodeMap := by
  rw [← BitVec.ofNat_toNat]
  generalize op.toNat = n at h ⊢
  unfold opcodeRow at h
  split at h <;> cases h <;> decide

/-- Row by row, the decoder's mask for a printed opcode is the printed mask, whatever the word. -/
theorem opcodeRow_masks (c : Word64) :
    opcodeMap.map (fun row => (opcodeRow row.1.toNat c).map Prod.fst) = opcodeMap.map (fun row => some row.2) := rfl

/-- The decoder has a command for every row of the printed map. -/
theorem opcodeRow_of_mem_opcodeMap (c : Word64) {row : Word64 × Word64} (h : row ∈ opcodeMap) :
    ∃ i, opcodeRow row.1.toNat c = some (row.2, i) := by
  have hmask := List.map_inj_left.mp (opcodeRow_masks c) row h
  obtain ⟨⟨_, i⟩, hrow, rfl⟩ := Option.map_eq_some_iff.mp hmask
  exact ⟨i, hrow⟩

/-- A word is a command exactly when its opcode selects a row and its must-be-zero bits are 0 (R144). -/
theorem decode_eq_command_iff {c : Word64} {i : Instr} :
    decode c = .command i ↔
      ∃ mask, opcodeRow (wordOpcode c).toNat c = some (mask, i) ∧ c &&& mask = (wordOpcode c).setWidth 64 <<< 56 := by
  constructor
  · intro h
    unfold decode at h
    split at h
    case h_1 => cases h
    case h_2 mask j hrow =>
      split at h
      case isTrue hmask => cases h; exact ⟨mask, hrow, hmask⟩
      case isFalse => cases h
  · rintro ⟨mask, hrow, hmask⟩
    exact decode_of_row rfl hrow hmask

/-- Settles O4: the decoder's rows and the printed rows are the same. -/
theorem decodeAcceptsTheOpcodeMap : Obligations.DecodeAcceptsTheOpcodeMap := by
  intro c
  constructor
  · rintro ⟨i, hi⟩
    obtain ⟨mask, hrow, hmask⟩ := decode_eq_command_iff.mp hi
    exact ⟨_, mem_opcodeMap_of_opcodeRow hrow, shiftRight_56_eq_wordOpcode c, hmask⟩
  · rintro ⟨row, hmem, hop, hmask⟩
    obtain ⟨i, hrow⟩ := opcodeRow_of_mem_opcodeMap c hmem
    have hsel : (wordOpcode c).setWidth 64 = row.1 := (shiftRight_56_eq_wordOpcode c).symm.trans hop
    rw [← hsel, BitVec.toNat_setWidth_of_le (by decide)] at hrow
    rw [← hsel] at hmask
    exact ⟨i, decode_eq_command_iff.mpr ⟨row.2, hrow, hmask⟩⟩

/-- A word that is no command raises ILLEGAL_COMMAND (R143). -/
theorem executeWord_of_not_command {c : Word64} (h : ¬ ∃ i, decode c = .command i) (s : State) :
    executeWord c s = .next (s.raise .illegalCommand) := by
  unfold executeWord
  split
  case h_1 i hi => exact absurd ⟨i, hi⟩ h
  case h_2 => rfl

/-- Settles O5: outside the map the decoder finds no command, and the step is the error entry. -/
theorem wordsOutsideTheOpcodeMapFail : Obligations.WordsOutsideTheOpcodeMapFail := by
  intro s c hruns hout
  have hillegal : ¬ ∃ i, decode c = .command i := mt (decodeAcceptsTheOpcodeMap c).mp hout
  exact ⟨_, (step_runs hruns).trans (executeWord_of_not_command hillegal s), fails_raise s .illegalCommand⟩

end Sys2Proof.Machine
end

