-- ==== Sys2Proof/Proofs/MustBeZero.lean ====
section
/-! PROOF. A word of a listed opcode with a 1 in a must-be-zero field is illegal (R144). -/

namespace Sys2Proof.Machine

open Sys2Proof

/-- A word that passes the mask check of R144 has 0 in every field that the mask covers, the opcode aside. -/
theorem extractLsb'_eq_zero_of_mask {c mask : Word64} {op : BitVec 8} {start len : Nat} (hlow : start + len ≤ 56)
    (hcovers : mask.extractLsb' start len = BitVec.allOnes len) (hmask : c &&& mask = op.setWidth 64 <<< 56) :
    c.extractLsb' start len = 0#len := by
  have hfield : (c &&& mask).extractLsb' start len = c.extractLsb' start len := by
    rw [BitVec.extractLsb'_and, hcovers, BitVec.and_allOnes]
  rw [← hfield, hmask]
  apply BitVec.eq_of_getLsbD_eq
  intro i hi
  have hbelow : start + i < 56 := by omega
  simp [hbelow]

/-- A word of a listed opcode that has another value than 0 in a field its row's mask covers is illegal (R144). -/
theorem decode_eq_mustBeZero {c mask : Word64} {op : BitVec 8} {i : Instr} {start len : Nat} (hop : wordOpcode c = op)
    (hrow : opcodeRow op.toNat c = some (mask, i)) (hlow : start + len ≤ 56)
    (hcovers : mask.extractLsb' start len = BitVec.allOnes len) (hne : c.extractLsb' start len ≠ 0#len) :
    decode c = .illegal .mustBeZero := by
  have hmask : c &&& mask ≠ op.setWidth 64 <<< 56 := mt (extractLsb'_eq_zero_of_mask hlow hcovers) hne
  simp [decode, hop, hrow, hmask]

end Sys2Proof.Machine
end

