-- ==== Sys2Proof/Proofs/WideInteger.lean ====
section
/-! PROOF. The wide-integer commands (R170 to R182). -/

namespace Sys2Proof.Machine

open Sys2Proof

/-! ## Operands at their width -/

/-- The width a statement names is the model's W (R131); with it `truncReg s W r` is `s.operand w r` by definition. -/
theorem bits_of_isWidth {w : Width} {W : Nat} (h : IsWidth w W) : W = Width.bits w := by
  obtain ⟨rfl, rfl⟩ | ⟨rfl, rfl⟩ := h <;> rfl

/-- 2^W as the integer the subtractions reduce by (R173). -/
theorem cast_modulus (w : Width) : (Width.modulus w : Int) = 2 ^ Width.bits w := Nat.cast_pow ..

theorem bits_le (w : Width) : Width.bits w ≤ 256 := by cases w <;> decide

/-- The bits of an operand: those of the register below W, and 0 above (R32). -/
theorem testBit_operand (s : State) (w : Width) (r : Reg) (i : Nat) :
    (s.operand w r).testBit i = (decide (i < Width.bits w) && (s.reg r).getLsbD i) :=
  Nat.testBit_mod_two_pow ..

/-! ## How the family's rules end -/

/-- A rule that only writes a result. -/
theorem complete_writeResult_answers (rd : Reg) (n : Nat) (s : State) :
    Answers (complete (s.writeResult rd n)) (WritesOnlyReg rd (BitVec.ofNat 256 n) s) :=
  ⟨_, rfl, writesOnlyReg_setReg s rd _⟩

/-- An addition with exact sum `t` (R171, R172). -/
theorem finishAdd_answers (rd : Reg) (w : Width) (t : Nat) (s : State) :
    Answers (finishAdd rd w t s) (WritesRegAndFlags rd (BitVec.ofNat 256 (t % Width.modulus w))
      (decide (t ≥ Width.modulus w)) (decide (t % Width.modulus w = 0)) s) := by
  rw [← carryOut_eq, ← beq_eq_decide]
  exact ⟨_, rfl, writesRegAndFlags_writeResult ..⟩

/-- A subtraction, its result and zero flag those of the integer remainder of `a − b − c` (R173, R174). -/
theorem finishSub_answers (rd : Reg) {w : Width} (a : Nat) {b c : Nat} (s : State) (hb : b < Width.modulus w)
    (hc : c ≤ 1) :
    Answers (finishSub rd w a b c s)
      (WritesRegAndFlags rd (BitVec.ofInt 256 (((a : Int) - b - c) % 2 ^ Width.bits w))
        (decide (a < b + c)) (decide (((a : Int) - b - c) % 2 ^ Width.bits w = 0)) s) := by
  simp only [← cast_modulus, ← wrapSub_eq w hb hc, BitVec.ofInt_natCast, Int.natCast_eq_zero, ← beq_eq_decide]
  exact ⟨_, rfl, writesRegAndFlags_writeResult ..⟩

/-- The difference of two operands is 0 modulo 2^W only when they are equal (R173). -/
theorem operand_sub_emod_eq_zero_iff (s : State) (w : Width) (r q : Reg) :
    ((s.operand w r : Int) - s.operand w q) % 2 ^ Width.bits w = 0 ↔ s.operand w r = s.operand w q := by
  rw [← cast_modulus, ← Int.emod_eq_emod_iff_emod_sub_eq_zero]
  norm_cast
  rw [Nat.mod_eq_of_lt (operand_lt s w r), Nat.mod_eq_of_lt (operand_lt s w q)]

/-! ## The statements -/

/-- Settles O13: ADD is the addition rule on the two operands. -/
theorem addWritesSumAndCarry : Obligations.AddWritesSumAndCarry := by
  intro rd rs1 rs2 w W s hW
  obtain rfl := bits_of_isWidth hW
  exact ⟨Laws.RoundTrip.add rd rs1 rs2 w rfl, finishAdd_answers rd w _ s⟩

/-- Settles O14: ADC is the addition rule on the two operands and C. -/
theorem adcAddsTheCarryIn : Obligations.AdcAddsTheCarryIn := by
  intro rd rs1 rs2 w W s hW
  obtain rfl := bits_of_isWidth hW
  exact ⟨Laws.RoundTrip.adc rd rs1 rs2 w rfl, finishAdd_answers rd w _ s⟩

/-- Settles O15: SUB is the subtraction rule with borrow-in 0, whose result is 0 only for equal operands. -/
theorem subWritesDifferenceAndBorrow : Obligations.SubWritesDifferenceAndBorrow := by
  intro rd rs1 rs2 w W s hW
  obtain rfl := bits_of_isWidth hW
  refine ⟨Laws.RoundTrip.sub rd rs1 rs2 w rfl, ?_⟩
  have h := finishSub_answers rd (s.operand w rs1) s (operand_lt s w rs2) (Nat.zero_le 1)
  simp only [Nat.cast_zero, sub_zero, Nat.add_zero, operand_sub_emod_eq_zero_iff] at h
  exact h

/-- Settles O16: SBB is the subtraction rule with borrow-in C. -/
theorem sbbSubtractsTheBorrowIn : Obligations.SbbSubtractsTheBorrowIn := by
  intro rd rs1 rs2 w W s hW
  obtain rfl := bits_of_isWidth hW
  exact ⟨Laws.RoundTrip.sbb rd rs1 rs2 w rfl, finishSub_answers rd _ s (operand_lt s w rs2) (Bool.toNat_le s.flagC)⟩

/-- Settles O17: CMP only sets the flags, and its row's mask covers field A. -/
theorem cmpWritesOnlyFlags : Obligations.CmpWritesOnlyFlags := by
  intro rs1 rs2 w W s hW
  obtain rfl := bits_of_isWidth hW
  refine ⟨Laws.RoundTrip.cmp rs1 rs2 w rfl, fun a ha => ?_, _, rfl, rfl, ?_, fun _ => rfl, ⟨rfl, rfl, rfl, rfl⟩,
    fun _ => rfl, ((RuleEffect.refl s).setFlags _ _).retires⟩
  · refine decode_eq_mustBeZero (start := 52) (len := 4) (wordOpcode_formatR ..) rfl (by decide) (by decide) fun h => ha ?_
    rw [← wordA_formatR 0x14 a rs1 rs2 w, wordA, h]
    rfl
  · exact beq_eq_decide ..

/-- Settles O18: the operands' bits are the registers' bits below W, and the result keeps every bit below 256. -/
theorem andWritesTheConjunction : Obligations.AndWritesTheConjunction := by
  intro rd rs1 rs2 w W s hW
  obtain rfl := bits_of_isWidth hW
  obtain ⟨t, hexec, ht⟩ := complete_writeResult_answers rd (s.operand w rs1 &&& s.operand w rs2) s
  refine ⟨Laws.RoundTrip.and rd rs1 rs2 w rfl, t, hexec, fun i => ?_, { ht with result := rfl }⟩
  rw [ht.result, BitVec.getLsbD_ofNat, Nat.testBit_and, testBit_operand, testBit_operand]
  by_cases hi : i < Width.bits w
  · have hword : i < 256 := hi.trans_le (bits_le w)
    simp [hi, hword]
  · simp [hi]

/-- Settles O19: SHR only writes its result. -/
theorem shrShiftsRight : Obligations.ShrShiftsRight := by
  intro rd rs1 shamt w W s hW
  obtain rfl := bits_of_isWidth hW
  exact ⟨fun hfits => Laws.RoundTrip.shr rd rs1 shamt w (decide_eq_true hfits), complete_writeResult_answers rd _ s⟩

/-- Settles O20: SHL only writes its result. -/
theorem shlShiftsLeft : Obligations.ShlShiftsLeft := by
  intro rd rs1 shamt w W s hW
  obtain rfl := bits_of_isWidth hW
  exact ⟨fun hfits => Laws.RoundTrip.shl rd rs1 shamt w (decide_eq_true hfits), complete_writeResult_answers rd _ s⟩

/-- Settles O21: MUL only writes its result. -/
theorem mulWritesTheLowProduct : Obligations.MulWritesTheLowProduct := by
  intro rd rs1 rs2 w W s hW
  obtain rfl := bits_of_isWidth hW
  exact ⟨Laws.RoundTrip.mul rd rs1 rs2 w rfl, complete_writeResult_answers rd _ s⟩

/-- Settles O22: bit 0 of a register is its value's parity. -/
theorem mulbSelectsByBitZero : Obligations.MulbSelectsByBitZero := by
  intro rd rs1 rs2 w W s hW
  obtain rfl := bits_of_isWidth hW
  have hbit : (s.reg rs2).getLsbD 0 = true ↔ (s.reg rs2).toNat % 2 = 1 := by
    rw [BitVec.getLsbD, Nat.testBit_zero, decide_eq_true_iff]
  refine ⟨Laws.RoundTrip.mulb rd rs1 rs2 w rfl, ?_⟩
  rw [exec_mulb, execMulb]
  simp only [hbit]
  exact complete_writeResult_answers rd _ s

/-- Settles O23: MOV only writes its result, and its row's mask covers field Cr. -/
theorem movCopiesAtItsWidth : Obligations.MovCopiesAtItsWidth := by
  intro rd rs1 w W s hW
  obtain rfl := bits_of_isWidth hW
  refine ⟨Laws.RoundTrip.mov rd rs1 w rfl, fun c hc => ?_, complete_writeResult_answers rd _ s⟩
  refine decode_eq_mustBeZero (start := 44) (len := 4) (wordOpcode_formatR ..) rfl (by decide) (by decide) fun h => hc ?_
  rw [← wordCr_formatR 0x1A rd rs1 c w, wordCr, h]
  rfl

/-- Settles O24: LI only writes its result. -/
theorem liLoadsZeroExtended : Obligations.LiLoadsZeroExtended := by
  intro rd imm32 s
  exact ⟨Laws.RoundTrip.li rd imm32 rfl, complete_writeResult_answers rd _ s⟩

end Sys2Proof.Machine
end

