-- ==== Sys2Proof/Proofs/MontgomeryField.lean ====
section
/-! PROOF. The Montgomery field commands (R212 to R216, R219, R220). -/

namespace Sys2Proof.Machine

open Sys2Proof

/-! ## Must-be-zero field -/

/-- A format-F word whose row must have Cr = 0 is illegal with another Cr (R136, R144). -/
theorem decode_formatF_eq_mustBeZero {op : BitVec 8} {a b c : Reg} {i : Instr}
    (hrow : opcodeRow op.toNat (formatF op a b c) = some (0xFF00FFFFFFFFFFFF#64, i)) (hc : c ≠ 0) :
    decode (formatF op a b c) = .illegal .mustBeZero := by
  refine decode_eq_mustBeZero (start := 44) (len := 4) (wordOpcode_formatF ..) hrow (by decide) (by decide) fun h => hc ?_
  rw [← wordCr_formatF op a b c, wordCr, h]
  rfl

/-! ## How the family's rules end -/

/-- A rule that raises an error. -/
theorem fail_answers (e : ErrorName) (s : State) : Answers (fail e s) (Fails e.code s) := ⟨_, rfl, fails_raise s e⟩

/-- A field command of one operand: its two errors in order, and its value (R210). -/
theorem fieldUnary_answers (rd rs1 : Reg) (f : Nat → Nat) (s : State) :
    (s.fieldReady = false → Answers (fieldUnary rd rs1 f s) (Fails 0x08#8 s)) ∧
    (s.fieldReady = true → (s.reg rs1).toNat ≥ s.fieldN.toNat → Answers (fieldUnary rd rs1 f s) (Fails 0x01#8 s)) ∧
    (s.fieldReady = true → (s.reg rs1).toNat < s.fieldN.toNat →
      Answers (fieldUnary rd rs1 f s) (WritesOnlyReg rd (BitVec.ofNat 256 (f (s.reg rs1).toNat)) s)) := by
  obtain ⟨hr, h⟩ | ⟨hr, hn, h⟩ | ⟨hr, hn, h⟩ := fieldUnary_ends rd rs1 f s <;> rw [h, hr]
  · exact ⟨fun _ => fail_answers .fieldNotReady s, nofun, nofun⟩
  · exact ⟨nofun, fun _ _ => fail_answers .outOfRange s, fun _ hlt => absurd hlt hn.not_gt⟩
  · exact ⟨nofun, fun _ hge => absurd hn hge.not_gt, fun _ _ => complete_writeResult_answers ..⟩

/-- A field command of two operands: its two errors in order, and its value (R210). -/
theorem fieldBinary_answers (rd rs1 rs2 : Reg) (f : Nat → Nat → Nat) (s : State) :
    (s.fieldReady = false → Answers (fieldBinary rd rs1 rs2 f s) (Fails 0x08#8 s)) ∧
    (s.fieldReady = true → ((s.reg rs1).toNat ≥ s.fieldN.toNat ∨ (s.reg rs2).toNat ≥ s.fieldN.toNat) →
      Answers (fieldBinary rd rs1 rs2 f s) (Fails 0x01#8 s)) ∧
    (s.fieldReady = true → (s.reg rs1).toNat < s.fieldN.toNat → (s.reg rs2).toNat < s.fieldN.toNat →
      Answers (fieldBinary rd rs1 rs2 f s)
        (WritesOnlyReg rd (BitVec.ofNat 256 (f (s.reg rs1).toNat (s.reg rs2).toNat)) s)) := by
  obtain ⟨hr, h⟩ | ⟨hr, hn, h⟩ | ⟨hr, h1, h2, h⟩ := fieldBinary_ends rd rs1 rs2 f s <;> rw [h, hr]
  · exact ⟨fun _ => fail_answers .fieldNotReady s, nofun, nofun⟩
  · exact ⟨nofun, fun _ _ => fail_answers .outOfRange s,
      fun _ hlt1 hlt2 => absurd hn (not_or.2 ⟨hlt1.not_ge, hlt2.not_ge⟩)⟩
  · exact ⟨nofun, fun _ hge => absurd hge (not_or.2 ⟨h1.not_ge, h2.not_ge⟩),
      fun _ _ _ => complete_writeResult_answers ..⟩

/-- Field subtraction on integers: in the borrow case `a + N` covers `b` (R214). -/
theorem fieldSub_eq_int {n a b : Nat} (hb : b < n) :
    (fieldSub n a b : Int) = (a : Int) - b + (if a ≥ b then 0 else (n : Int)) := by
  unfold fieldSub
  split <;> omega

/-! ## FCFG -/

theorem execFcfg_locked (rn rr2 rni : Reg) {s : State} (hr : s.fieldReady = true) :
    execFcfg rn rr2 rni s = fail .fieldLocked s := if_pos hr

theorem execFcfg_rejects {rn rr2 rni : Reg} {s : State} (hr : s.fieldReady = false)
    (hbad : ¬ fieldConstantsOk (s.reg rn).toNat (s.reg rr2).toNat (s.reg rni).toNat) :
    execFcfg rn rr2 rni s = fail .fieldConfig s :=
  (if_neg (Bool.eq_false_iff.1 hr)).trans (if_pos hbad)

theorem execFcfg_sets {rn rr2 rni : Reg} {s : State} (hr : s.fieldReady = false)
    (hok : fieldConstantsOk (s.reg rn).toNat (s.reg rr2).toNat (s.reg rni).toNat) :
    execFcfg rn rr2 rni s = complete { s with
      fieldN := s.reg rn, fieldR2 := s.reg rr2, fieldNinv := s.reg rni, fieldReady := true } :=
  (if_neg (Bool.eq_false_iff.1 hr)).trans (if_neg (not_not_intro hok))

theorem RuleEffect.setField (s : State) (n r2 ninv : Word) (ready : Bool) :
    RuleEffect 0b000#3 s { s with fieldN := n, fieldR2 := r2, fieldNinv := ninv, fieldReady := ready } :=
  ⟨rfl, rfl, rfl, rfl, rfl, rfl, BitVec.or_zero.symm, ⟨rfl, rfl, rfl, rfl, rfl, rfl⟩⟩

/-! ## The statements -/

/-- Settles O29: the three ends of FCFG's rule, of which the last only sets the field constants. -/
theorem fcfgChecksAndLocks : Obligations.FcfgChecksAndLocks := by
  intro rn rr2 rni s
  refine ⟨Laws.RoundTrip.fcfg rn rr2 rni rfl, fun hr => ?locked, fun hr hbad => ?rejected,
    fun hr hodd h3 hr2 hinv => ?set⟩
  case locked =>
    rw [exec_fcfg, execFcfg_locked rn rr2 rni hr]
    exact fail_answers .fieldLocked s
  case rejected =>
    rw [exec_fcfg, execFcfg_rejects hr hbad]
    exact fail_answers .fieldConfig s
  case set =>
    rw [exec_fcfg, execFcfg_sets hr ⟨hodd, h3, hr2, hinv⟩]
    exact ⟨_, rfl, rfl, rfl, rfl, rfl, fun _ => rfl, ⟨rfl, rfl⟩, fun _ => rfl, (RuleEffect.setField s ..).retires⟩

/-- Settles O30: for canonical operands one conditional subtraction is the remainder. -/
theorem faddAddsModuloN : Obligations.FaddAddsModuloN := by
  intro rd rs1 rs2 s
  obtain ⟨hnotReady, hrange, hvalue⟩ := fieldBinary_answers rd rs1 rs2 (fieldAdd s.modN) s
  refine ⟨Laws.RoundTrip.fadd rd rs1 rs2 rfl, hnotReady, hrange, fun hr h1 h2 => ?_⟩
  rw [← fieldAdd_eq_mod h1 h2]
  exact hvalue hr h1 h2

/-- Settles O31: the natural difference that FSUB writes is the integer one. -/
theorem fsubSubtractsModuloN : Obligations.FsubSubtractsModuloN := by
  intro rd rs1 rs2 s
  obtain ⟨hnotReady, hrange, hvalue⟩ := fieldBinary_answers rd rs1 rs2 (fieldSub s.modN) s
  refine ⟨Laws.RoundTrip.fsub rd rs1 rs2 rfl, hnotReady, hrange, fun hr h1 h2 => ?_⟩
  rw [← fieldSub_eq_int h2, BitVec.ofInt_natCast]
  exact hvalue hr h1 h2

/-- Settles O32: FMUL is the rule of two operands with MontMul. -/
theorem fmulIsMontgomeryProduct : Obligations.FmulIsMontgomeryProduct := by
  intro rd rs1 rs2 s
  exact ⟨Laws.RoundTrip.fmul rd rs1 rs2 rfl, fieldBinary_answers rd rs1 rs2 s.montMul s⟩

/-- Settles O33: FSQR is the rule of one operand with its MontMul by itself. -/
theorem fsqrIsMontgomerySquare : Obligations.FsqrIsMontgomerySquare := by
  intro rd rs1 s
  exact ⟨Laws.RoundTrip.fsqr rd rs1 rfl, fun _ => decode_formatF_eq_mustBeZero rfl,
    fieldUnary_answers rd rs1 (fun a => s.montMul a a) s⟩

/-- Settles O36: FTOM is the rule of one operand with its MontMul by R2. -/
theorem ftomEntersMontgomeryForm : Obligations.FtomEntersMontgomeryForm := by
  intro rd rs1 s
  exact ⟨Laws.RoundTrip.ftom rd rs1 rfl, fun _ => decode_formatF_eq_mustBeZero rfl,
    fieldUnary_answers rd rs1 (fun x => s.montMul x s.fieldR2.toNat) s⟩

/-- Settles O37: FFROMM is the rule of one operand with REDC. -/
theorem ffrommLeavesMontgomeryForm : Obligations.FfrommLeavesMontgomeryForm := by
  intro rd rs1 s
  exact ⟨Laws.RoundTrip.ffromm rd rs1 rfl, fun _ => decode_formatF_eq_mustBeZero rfl,
    fieldUnary_answers rd rs1 s.redc s⟩

end Sys2Proof.Machine
end

