-- ==== Sys2Proof/Proofs/ElementLoadStore.lean ====
section
/-! PROOF. Element load and store (R250, R251). -/

namespace Sys2Proof.Machine

open Sys2Proof

/-! ## The two ends of each command -/

theorem execLd_badAddress (rd : Reg) {p : Nat} {s : State} (h : ¬ s.elemExists p) :
    execLd rd p s = fail .badAddress s := if_pos h

theorem execLd_copies (rd : Reg) {p : Nat} {s : State} (h : s.elemExists p) :
    execLd rd p s = complete (s.setReg rd (s.elem p).value) := if_neg (not_not_intro h)

theorem execSt_badAddress (rs : Reg) {p : Nat} {s : State} (h : ¬ s.elemExists p) :
    execSt rs p s = fail .badAddress s := if_pos h

theorem execSt_stores (rs : Reg) {p : Nat} {s : State} (h : s.elemExists p) :
    execSt rs p s = complete (s.memWrite p (s.reg rs)) := if_neg (not_not_intro h)

/-! ## The effect of one element write -/

theorem elem_memWrite_same (s : State) (a : Nat) (v : Word) : (s.memWrite a v).elem a = Element.ofWord v .data :=
  (State.elem_memWrite s a a v).trans (if_pos rfl)

theorem elem_memWrite_ne (s : State) {a b : Nat} (v : Word) (h : b ≠ a) : (s.memWrite a v).elem b = s.elem b :=
  (State.elem_memWrite s a b v).trans (if_neg h)

/-- MemWrite is the write of a list of one element, so it too leaves registers, flags and field constants alone. -/
theorem writesOnlyElems_memWrite (s : State) (a : Nat) (v : Word) : WritesOnlyElems s (s.memWrite a v).retire :=
  writesOnlyElems_memWriteAll s [(a, Element.ofWord v .data)]

/-! ## The statements -/

/-- Settles O42: past EMEM_N the rule raises BAD_ADDRESS, and below it the rule only writes its register. -/
theorem ldCopiesTheElement : Obligations.LdCopiesTheElement := by
  intro rd p s
  refine ⟨fun hfits => Laws.RoundTrip.ld rd p (decide_eq_true hfits), fun hpast => ?badAddress, fun hlt => ?copies⟩
  case badAddress =>
    rw [exec_ld, execLd_badAddress rd hpast.not_gt]
    exact fail_answers .badAddress s
  case copies =>
    rw [exec_ld, execLd_copies rd hlt]
    exact ⟨_, rfl, writesOnlyReg_setReg s rd _⟩

/-- Settles O43: past EMEM_N the rule raises BAD_ADDRESS, and below it the rule is one element write. -/
theorem stStoresTheRegister : Obligations.StStoresTheRegister := by
  intro rs p s
  refine ⟨fun hfits => Laws.RoundTrip.st rs p (decide_eq_true hfits), fun hpast => ?badAddress, fun hlt => ?stores⟩
  case badAddress =>
    rw [exec_st, execSt_badAddress rs hpast.not_gt]
    exact fail_answers .badAddress s
  case stores =>
    rw [exec_st, execSt_stores rs hlt]
    refine ⟨_, rfl, ?value, ?tag, fun a ha => elem_memWrite_ne s _ ha, writesOnlyElems_memWrite s p _⟩
    case value => rw [State.retire_elem, elem_memWrite_same, Element.value_ofWord]
    case tag => rw [State.retire_elem, elem_memWrite_same, Element.tag_ofWord]

end Sys2Proof.Machine
end

