-- ==== Sys2Proof/Proofs/BitReversalCommand.lean ====
section
/-! PROOF. BITREV and its inverse (R280, R281). -/

namespace Sys2Proof.Machine

open Sys2Proof

/-! ## Reversing twice -/

/-- Bit j of an index moves to place k−1−j and back (R281). -/
theorem bitrev_bitrev {k i : Nat} (hi : i < 2 ^ k) : bitrev k (bitrev k i) = i := by
  refine Nat.eq_of_testBit_eq fun j => ?_
  rw [testBit_bitrev, testBit_bitrev]
  by_cases hj : j < k
  · have hplace : k - 1 - j < k := by omega
    have hback : k - 1 - (k - 1 - j) = j := by omega
    simp [hj, hplace, hback]
  · have hhigh : i.testBit j = false :=
      Nat.testBit_lt_two_pow (hi.trans_le (Nat.pow_le_pow_right two_pos (Nat.not_lt.1 hj)))
    simp [hj, hhigh]

/-- Two indices with one reversal are one index (R9). -/
theorem bitrev_inj {k i j : Nat} (hi : i < 2 ^ k) (hj : j < 2 ^ k) (h : bitrev k i = bitrev k j) : i = j := by
  rw [← bitrev_bitrev hi, h, bitrev_bitrev hj]

/-! ## The writes of BITREV -/

/-- No two writes of BITREV name one element (R280). -/
theorem bitrevWrites_pairwise_ne (s : State) (k dst src : Nat) :
    (bitrevWrites s k dst src).Pairwise fun x y => x.1 ≠ y.1 := by
  refine List.pairwise_map.2 (List.nodup_range.imp_of_mem fun hi hj hne heq => hne ?_)
  exact bitrev_inj (List.mem_range.1 hi) (List.mem_range.1 hj) (Nat.add_left_cancel heq)

/-- Element dst + i becomes old element src + bitrev_k(i), with tag DATA (R280). -/
theorem elem_memWriteAll_bitrevWrites (s : State) {k i : Nat} (dst src : Nat) (hi : i < 2 ^ k) :
    (s.memWriteAll (bitrevWrites s k dst src)).elem (dst + i) =
      { s.elem (src + bitrev k i) with tag := .data } := by
  refine State.elem_memWriteAll_of_mem s _ _ _ (bitrevWrites_pairwise_ne s k dst src) (List.mem_map.2 ?_)
  exact ⟨bitrev k i, List.mem_range.2 (bitrev_lt k i), by rw [bitrev_bitrev hi]⟩

/-- Every write of BITREV lies in the destination region (R280). -/
theorem sameElemsOutside_bitrevWrites (s : State) (k dst src : Nat) :
    SameElemsOutside dst (2 ^ k) s (s.memWriteAll (bitrevWrites s k dst src)) := by
  intro a hout
  refine State.elem_memWriteAll_of_forall_ne s _ a (List.forall_mem_map.2 fun i _ heq => hout ?_)
  have hlt := bitrev_lt k i
  omega

/-! ## The three ends of the rule -/

theorem execBitrev_badAddress {k dst src : Nat} {s : State}
    (h : ¬ (s.regionFits src (2 ^ k) ∧ s.regionFits dst (2 ^ k))) :
    execBitrev k dst src s = fail .badAddress s := if_pos h

theorem execBitrev_overlap {k dst src : Nat} {s : State} (hsrc : s.regionFits src (2 ^ k))
    (hdst : s.regionFits dst (2 ^ k)) (h : regionsOverlap src (2 ^ k) dst (2 ^ k) ∧ src ≠ dst) :
    execBitrev k dst src s = fail .overlap s :=
  (if_neg (not_not_intro ⟨hsrc, hdst⟩)).trans (if_pos h)

theorem execBitrev_permutes {k dst src : Nat} {s : State} (hsrc : s.regionFits src (2 ^ k))
    (hdst : s.regionFits dst (2 ^ k)) (h : src = dst ∨ dst + 2 ^ k ≤ src ∨ src + 2 ^ k ≤ dst) :
    execBitrev k dst src s = complete (s.memWriteAll (bitrevWrites s k dst src)) :=
  (if_neg (not_not_intro ⟨hsrc, hdst⟩)).trans (if_neg (by omega))

/-! ## The statements -/

/-- Settles O46: the three ends of BITREV's rule, of which the last only writes the permuted elements. -/
theorem bitrevPermutesTheRegion : Obligations.BitrevPermutesTheRegion := by
  intro k dst src s
  refine ⟨fun hk hd hs => Laws.RoundTrip.bitrev k dst src ?wellFormed, fun hpast => ?badAddress,
    fun hsrc hdst hlt hgt hne => ?overlap, fun hsrc hdst hapart => ?permutes⟩
  case wellFormed =>
    simp only [Instr.wellFormed, Bool.and_eq_true, decide_eq_true_eq]
    exact ⟨⟨hk, hd⟩, hs⟩
  case badAddress =>
    rw [exec_bitrev, execBitrev_badAddress fun ⟨hs, hd⟩ => hpast.elim hs.not_gt hd.not_gt]
    exact fail_answers .badAddress s
  case overlap =>
    rw [exec_bitrev, execBitrev_overlap hsrc hdst ⟨⟨hlt, hgt⟩, hne⟩]
    exact fail_answers .overlap s
  case permutes =>
    rw [exec_bitrev, execBitrev_permutes hsrc hdst hapart]
    refine ⟨_, rfl, fun i hi => ?value, fun i hi => ?tag, sameElemsOutside_bitrevWrites s k dst src,
      writesOnlyElems_memWriteAll s _⟩
    case value =>
      rw [State.retire_elem, elem_memWriteAll_bitrevWrites s dst src (bitrev_lt k i), bitrev_bitrev hi]
      rfl
    case tag => rw [State.retire_elem, elem_memWriteAll_bitrevWrites s dst src hi]

/-- Settles O47: the second BITREV writes the element at the index reversed twice, which is the index. -/
theorem bitrevTwiceRestores : Obligations.BitrevTwiceRestores := by
  refine ⟨fun _ _ => bitrev_bitrev, fun k a b s ha hb hapart => ?_⟩
  refine ⟨_, execBitrev_permutes ha hb (hapart.imp_right Or.symm), _,
    execBitrev_permutes hb ha (hapart.imp_left Eq.symm), fun i hi => ?_⟩
  rw [State.retire_elem, elem_memWriteAll_bitrevWrites _ a b hi, State.retire_elem,
    elem_memWriteAll_bitrevWrites s b a (bitrev_lt k i), bitrev_bitrev hi]
  exact ⟨rfl, rfl⟩

end Sys2Proof.Machine
end

