-- ==== Sys2Proof/Proofs/StagePairs.lean ====
section
/-! PROOF. The pairs of a butterfly stage and their twiddle offsets (R290, R291). -/

namespace Sys2Proof.Machine

open Sys2Proof

variable {k gl : Nat}

/-! ## The group sizes -/

/-- A group has two halves (R290). -/
theorem halfGroup_mul_two (hgl : 1 ≤ gl) : 2 ^ gl / 2 * 2 = 2 ^ gl :=
  Nat.div_mul_cancel (dvd_pow_self 2 (Nat.one_le_iff_ne_zero.1 hgl))

theorem halfGroup_pos (hgl : 1 ≤ gl) : 0 < 2 ^ gl / 2 :=
  Nat.div_pos (Nat.le_self_pow (Nat.one_le_iff_ne_zero.1 hgl) 2) two_pos

/-- The groups fill the buffer (R290). -/
theorem groups_mul_group (hk : gl ≤ k) : 2 ^ k / 2 ^ gl * 2 ^ gl = 2 ^ k :=
  Nat.div_mul_cancel (pow_dvd_pow 2 hk)

/-- A stage has S/2 pairs, h in each of the S/g groups (R290). -/
theorem groups_mul_halfGroup (hgl : 1 ≤ gl) (hk : gl ≤ k) : 2 ^ k / 2 ^ gl * (2 ^ gl / 2) = 2 ^ k / 2 := by
  rw [← Nat.mul_div_assoc _ (dvd_pow_self 2 (Nat.one_le_iff_ne_zero.1 hgl)), groups_mul_group hk]

/-! ## The pair of an element -/

/-- The pair that holds element `e` of the buffer: its group, and its place in its half of the group (R290). -/
def pairOf (gl e : Nat) : Nat × Nat := (e / 2 ^ gl, e % (2 ^ gl / 2))

/-- Counted in half groups, group j is the halves 2j and 2j + 1, so an element is at place i of a half of group j
exactly when it is the top or the bottom of pair (j, i). -/
theorem pairOf_eq_iff (hgl : 1 ≤ gl) (buf e j i : Nat) :
    pairOf gl e = (j, i) ↔ i < 2 ^ gl / 2 ∧ (buf + e = pairTop buf gl j i ∨ buf + e = pairBottom buf gl j i) := by
  have hgroup := halfGroup_mul_two hgl
  have hpos := halfGroup_pos hgl
  rw [pairOf, pairBottom, pairTop, Prod.mk.injEq]
  generalize 2 ^ gl / 2 = h at hgroup hpos ⊢
  rw [← hgroup]
  have hhalves : e / (h * 2) = j ↔ e / h = 2 * j ∨ e / h = 2 * j + 1 := by
    rw [← Nat.div_div_eq_div_mul]
    omega
  rw [hhalves, or_and_right, Nat.div_mod_unique hpos, Nat.div_mod_unique hpos, ← or_and_right, and_comm]
  have htop : h * (2 * j) = j * (h * 2) := by ring
  have hbottom : h * (2 * j + 1) = j * (h * 2) + h := by ring
  rw [htop, hbottom]
  omega

/-- The group and the place of a buffer element are those of a pair of the stage (R290). -/
theorem pairOf_mem_stagePairs (hgl : 1 ≤ gl) (hk : gl ≤ k) {e : Nat} (he : e < 2 ^ k) :
    pairOf gl e ∈ stagePairs k gl :=
  mem_stagePairs.2 ⟨Nat.div_lt_div_of_lt_of_dvd (pow_dvd_pow 2 hk) he, Nat.mod_lt _ (halfGroup_pos hgl)⟩

/-- Two pairs with a common element are one pair (R290). -/
theorem eq_pairOf_of_mem_stagePairs (hgl : 1 ≤ gl) {buf e : Nat} {x : Nat × Nat} (hx : x ∈ stagePairs k gl)
    (he : buf + e = pairTop buf gl x.1 x.2 ∨ buf + e = pairBottom buf gl x.1 x.2) : x = pairOf gl e :=
  ((pairOf_eq_iff hgl buf e x.1 x.2).2 ⟨(mem_stagePairs.1 hx).2, he⟩).symm

/-! ## Bounds -/

/-- Both elements of a pair lie in the buffer, the bottom one being the later (R290). -/
theorem pairBottom_lt (hgl : 1 ≤ gl) (hk : gl ≤ k) (buf : Nat) {j i : Nat} (hj : j < 2 ^ k / 2 ^ gl)
    (hi : i < 2 ^ gl / 2) : pairBottom buf gl j i < buf + 2 ^ k := by
  have hgroup := halfGroup_mul_two hgl
  have hend : (j + 1) * 2 ^ gl ≤ 2 ^ k := (Nat.mul_le_mul_right _ hj).trans_eq (groups_mul_group hk)
  rw [Nat.succ_mul] at hend
  rw [pairBottom, pairTop]
  omega

/-- Every twiddle offset lies in the table of S/2 entries (R291). -/
theorem twIdx_lt (mode : Mode) (hgl : 1 ≤ gl) (hk : gl ≤ k) {j i : Nat} (hj : j < 2 ^ k / 2 ^ gl)
    (hi : i < 2 ^ gl / 2) : twIdx mode k gl j i < 2 ^ k / 2 := by
  rw [← groups_mul_halfGroup hgl hk]
  cases mode with
  | nr => exact hj.trans_le (Nat.le_mul_of_pos_right _ (halfGroup_pos hgl))
  | rn =>
    rw [Nat.mul_comm]
    exact Nat.mul_lt_mul_of_pos_right hi (Nat.zero_lt_of_lt hj)

/-- Settles O48: the one pair of element e is `pairOf gl e`. -/
theorem stagePairsPartitionTheBuffer : Obligations.StagePairsPartitionTheBuffer := by
  intro k gl buf hgl hk
  refine ⟨fun x => mem_stagePairs, fun e he => ?onePair, fun x hx => ?bounds⟩
  case onePair =>
    have hself := (pairOf_eq_iff hgl buf e _ _).1 rfl
    exact ⟨pairOf gl e, ⟨pairOf_mem_stagePairs hgl hk he, hself.2⟩, fun _ => eq_pairOf_of_mem_stagePairs hgl⟩
  case bounds =>
    obtain ⟨hj, hi⟩ := mem_stagePairs.1 hx
    exact ⟨rfl, rfl, pairBottom_lt hgl hk buf hj hi, rfl, rfl, twIdx_lt .nr hgl hk hj hi, twIdx_lt .rn hgl hk hj hi⟩

end Sys2Proof.Machine
end

