-- ==== Sys2Proof/Proofs/Control.lean ====
section
/-! PROOF. The control commands (R310, R311). -/

namespace Sys2Proof.Machine

open Sys2Proof

/-! ## Illegal words of a listed opcode -/

/-- A word that fails the mask check of its opcode's row is illegal (R144). -/
theorem decode_eq_mustBeZero_of_mask_ne {c mask : Word64} {op : BitVec 8} {i : Instr}
    (hop : c >>> 56 = op.setWidth 64) (hrow : opcodeRow op.toNat c = some (mask, i))
    (hmask : c &&& mask ≠ op.setWidth 64 <<< 56) : decode c = .illegal .mustBeZero := by
  have hsel : wordOpcode c = op := by
    rw [shiftRight_56_eq_wordOpcode] at hop
    simpa using congrArg (BitVec.setWidth 8) hop
  simp [decode, hsel, hrow, hmask]

/-- A word whose bits 55:1 are 0 is the format-N word of its opcode and its bit 0 (R132). -/
theorem eq_formatN_of_mask {c : Word64} {op : BitVec 8}
    (hmask : c &&& 0xFFFFFFFFFFFFFFFE#64 = op.setWidth 64 <<< 56) : c = formatN op (wordIrq c) := by
  apply BitVec.eq_of_getLsbD_eq
  intro i hi
  cases i with
  | zero => exact (wordIrq_formatN op (wordIrq c)).symm
  | succ j =>
    have hj : j < 63 := by omega
    have hcovers : (0xFFFFFFFFFFFFFFFE#64).getLsbD (j + 1) = true := by interval_cases j <;> rfl
    have hbit := congrArg (·.getLsbD (j + 1)) (hmask.trans (mask_formatN op (wordIrq c)).symm)
    simpa [hcovers] using hbit

/-! ## How the family's rules end -/

theorem RuleEffect.pend (s : State) (sources : BitVec 3) : RuleEffect sources s (s.pend sources) :=
  ⟨rfl, rfl, rfl, rfl, rfl, rfl, rfl, ⟨rfl, rfl, rfl, rfl, rfl, rfl⟩⟩

theorem State.pend_none (s : State) : s.pend 0b000#3 = s := by simp [State.pend]

/-- A rule that only makes `sources` pending retires with no effect outside the bookkeeping. -/
theorem complete_pend_answers (sources : BitVec 3) (s : State) :
    Answers (complete (s.pend sources)) fun t =>
      SameRegs s t ∧ SameFlags s t ∧ SameField s t ∧ SameElems s t ∧ Retires sources s t :=
  ⟨_, rfl, fun _ => rfl, ⟨rfl, rfl⟩, ⟨rfl, rfl, rfl, rfl⟩, fun _ => rfl, (RuleEffect.pend s sources).retires⟩

theorem execNop_eq_complete_pend (s : State) : execNop s = complete (s.pend 0b000#3) := by
  rw [State.pend_none, execNop]

theorem execSync_eq_complete_pend (irq : Bool) (s : State) :
    execSync irq s = complete (s.pend (if irq = true then 0b010#3 else 0b000#3)) := by
  cases irq
  · exact execNop_eq_complete_pend s
  · rfl

/-! ## The statements -/

/-- Settles O11: NOP is the rule that makes nothing pending, and its row's mask covers the whole word. -/
theorem nopOnlyRetires : Obligations.NopOnlyRetires := by
  refine ⟨Laws.RoundTrip.nop rfl, fun c hop hne => ?illegal, fun s => ?effect⟩
  case illegal =>
    have hmask : c &&& BitVec.allOnes 64 ≠ 0x0100000000000000#64 := by rwa [BitVec.and_allOnes]
    exact decode_eq_mustBeZero_of_mask_ne (op := 0x01#8) hop rfl hmask
  case effect =>
    rw [exec_nop, execNop_eq_complete_pend]
    exact complete_pend_answers ..

/-- Settles O12: SYNC is the rule that makes its source pending, and its row's mask leaves only bit 0 free. -/
theorem syncRetiresAndPends : Obligations.SyncRetiresAndPends := by
  refine ⟨Laws.RoundTrip.sync false rfl, Laws.RoundTrip.sync true rfl, fun c hop hne0 hne1 => ?illegal,
    fun irq s => ?effect⟩
  case illegal =>
    refine decode_eq_mustBeZero_of_mask_ne (op := 0x02#8) hop rfl fun hmask => ?_
    have hword := eq_formatN_of_mask hmask
    cases hirq : wordIrq c <;> rw [hirq] at hword
    · exact hne0 hword
    · exact hne1 hword
  case effect =>
    rw [exec_sync, execSync_eq_complete_pend]
    exact complete_pend_answers ..

end Sys2Proof.Machine
end

