-- ==== Sys2Proof/Proofs/RoundTrip.lean ====
section
/-! PROOF. The decoder and the encoder undo each other (R130 to R145). -/

namespace Sys2Proof.Machine

open Sys2Proof

/-! ## Encoding, then decoding -/

/-- Settles O1: each word is evaluated. -/
theorem printedWordsDecode : Obligations.PrintedWordsDecode := by
  unfold Obligations.PrintedWordsDecode
  decide

/-- Settles O2, command by command: the round trip of each format. -/
theorem decodeAfterEncode : Obligations.DecodeAfterEncode := by
  intro i
  cases i with
  | nop => exact Laws.RoundTrip.nop
  | sync irq => exact Laws.RoundTrip.sync irq
  | add rd rs1 rs2 w => exact Laws.RoundTrip.add rd rs1 rs2 w
  | adc rd rs1 rs2 w => exact Laws.RoundTrip.adc rd rs1 rs2 w
  | sub rd rs1 rs2 w => exact Laws.RoundTrip.sub rd rs1 rs2 w
  | sbb rd rs1 rs2 w => exact Laws.RoundTrip.sbb rd rs1 rs2 w
  | cmp rs1 rs2 w => exact Laws.RoundTrip.cmp rs1 rs2 w
  | and rd rs1 rs2 w => exact Laws.RoundTrip.and rd rs1 rs2 w
  | shr rd rs1 shamt w => exact Laws.RoundTrip.shr rd rs1 shamt w
  | shl rd rs1 shamt w => exact Laws.RoundTrip.shl rd rs1 shamt w
  | mul rd rs1 rs2 w => exact Laws.RoundTrip.mul rd rs1 rs2 w
  | mulb rd rs1 rs2 w => exact Laws.RoundTrip.mulb rd rs1 rs2 w
  | mov rd rs1 w => exact Laws.RoundTrip.mov rd rs1 w
  | li rd imm32 => exact Laws.RoundTrip.li rd imm32
  | fcfg rn rr2 rni => exact Laws.RoundTrip.fcfg rn rr2 rni
  | fadd rd rs1 rs2 => exact Laws.RoundTrip.fadd rd rs1 rs2
  | fsub rd rs1 rs2 => exact Laws.RoundTrip.fsub rd rs1 rs2
  | fmul rd rs1 rs2 => exact Laws.RoundTrip.fmul rd rs1 rs2
  | fsqr rd rs1 => exact Laws.RoundTrip.fsqr rd rs1
  | finv rd rs1 => exact Laws.RoundTrip.finv rd rs1
  | fpow rd rs1 rs2 => exact Laws.RoundTrip.fpow rd rs1 rs2
  | ftom rd rs1 => exact Laws.RoundTrip.ftom rd rs1
  | ffromm rd rs1 => exact Laws.RoundTrip.ffromm rd rs1
  | ld rd p => exact Laws.RoundTrip.ld rd p
  | st rs p => exact Laws.RoundTrip.st rs p
  | twgen ord rs1 ks dst => exact Laws.RoundTrip.twgen ord rs1 ks dst
  | bitrev k dst src => exact Laws.RoundTrip.bitrev k dst src
  | bfly mode gl k tw buf => exact Laws.RoundTrip.bfly mode gl k tw buf

/-! ## Decoding, then encoding -/

/-- A field of one bit is that bit. -/
theorem extractLsb'_one (c : Word64) (i : Nat) : c.extractLsb' i 1 = BitVec.ofBool (c.getLsbD i) := by
  apply BitVec.eq_of_getLsbD_eq
  intro j hj
  obtain rfl : j = 0 := by omega
  simp

theorem bit_wordW (c : Word64) : (wordW c).bit = c.extractLsb' 43 1 := by
  rw [extractLsb'_one, wordW]
  cases c.getLsbD 43 <;> rfl

theorem bit_wordOrd (c : Word64) : (wordOrd c).bit = c.extractLsb' 43 1 := by
  rw [extractLsb'_one, wordOrd]
  cases c.getLsbD 43 <;> rfl

theorem bit_wordMode (c : Word64) : (wordMode c).bit = c.extractLsb' 46 1 := by
  rw [extractLsb'_one, wordMode]
  cases c.getLsbD 46 <;> rfl

theorem regField_wordA (c : Word64) : regField (wordA c) = c.extractLsb' 52 4 := rfl

theorem regField_wordB (c : Word64) : regField (wordB c) = c.extractLsb' 48 4 := rfl

theorem regField_wordCr (c : Word64) : regField (wordCr c) = c.extractLsb' 44 4 := rfl

/-- An integer field, read as a number and written back (R141). -/
theorem ofNat_toNat_field {n : Nat} (x : BitVec n) : BitVec.ofNat n x.toNat = x := by simp

/-- The fields of a word joined from bit 0 up to bit 63 are the word: the last step of every format. -/
theorem eq_of_join {c d : Word64} (h : d = c.extractLsb' 0 64) : d = c := h.trans BitVec.extractLsb'_eq_self

section

variable {c mask : Word64} {op : BitVec 8} (hop : (wordOpcode c).toNat = op.toNat)
  (hmask : c &&& mask = (wordOpcode c).setWidth 64 <<< 56)

include hmask

/-- A register field that the mask covers names w0 (R144). -/
theorem wordA_eq_zero (hz : mask.extractLsb' 52 4 = BitVec.allOnes 4) : wordA c = 0 := by
  rw [wordA, extractLsb'_eq_zero_of_mask (by decide) hz hmask]
  rfl

theorem wordCr_eq_zero (hz : mask.extractLsb' 44 4 = BitVec.allOnes 4) : wordCr c = 0 := by
  rw [wordCr, extractLsb'_eq_zero_of_mask (by decide) hz hmask]
  rfl

include hop

theorem formatR_of_mask (hz : mask.extractLsb' 0 43 = BitVec.allOnes 43) :
    formatR op (wordA c) (wordB c) (wordCr c) (wordW c) = c := by
  apply eq_of_join
  rw [formatR, ← BitVec.eq_of_toNat_eq hop, ← extractLsb'_eq_zero_of_mask (by decide) hz hmask]
  simp (disch := rfl) only [wordOpcode, regField_wordA, regField_wordB, regField_wordCr, bit_wordW,
    BitVec.extractLsb'_append_extractLsb'_eq_extractLsb']

theorem formatR_noA_of_mask (hzA : mask.extractLsb' 52 4 = BitVec.allOnes 4)
    (hz : mask.extractLsb' 0 43 = BitVec.allOnes 43) : formatR op 0 (wordB c) (wordCr c) (wordW c) = c := by
  rw [← wordA_eq_zero hmask hzA]
  exact formatR_of_mask hop hmask hz

theorem formatR_noCr_of_mask (hzCr : mask.extractLsb' 44 4 = BitVec.allOnes 4)
    (hz : mask.extractLsb' 0 43 = BitVec.allOnes 43) : formatR op (wordA c) (wordB c) 0 (wordW c) = c := by
  rw [← wordCr_eq_zero hmask hzCr]
  exact formatR_of_mask hop hmask hz

theorem formatS_of_mask (hzCr : mask.extractLsb' 44 4 = BitVec.allOnes 4)
    (hz : mask.extractLsb' 9 34 = BitVec.allOnes 34) :
    formatS op (wordA c) (wordB c) (wordShamt c) (wordW c) = c := by
  apply eq_of_join
  rw [formatS, ← BitVec.eq_of_toNat_eq hop, ← extractLsb'_eq_zero_of_mask (by decide) hzCr hmask,
    ← extractLsb'_eq_zero_of_mask (by decide) hz hmask]
  simp (disch := rfl) only [wordOpcode, regField_wordA, regField_wordB, bit_wordW, wordShamt, ofNat_toNat_field,
    BitVec.extractLsb'_append_extractLsb'_eq_extractLsb']

theorem formatL_of_mask (hz : mask.extractLsb' 32 20 = BitVec.allOnes 20) :
    formatL op (wordA c) (wordImm32 c) = c := by
  apply eq_of_join
  rw [formatL, ← BitVec.eq_of_toNat_eq hop, ← extractLsb'_eq_zero_of_mask (by decide) hz hmask]
  simp (disch := rfl) only [wordOpcode, regField_wordA, wordImm32,
    BitVec.extractLsb'_append_extractLsb'_eq_extractLsb']

theorem formatF_of_mask (hz : mask.extractLsb' 0 44 = BitVec.allOnes 44) :
    formatF op (wordA c) (wordB c) (wordCr c) = c := by
  apply eq_of_join
  rw [formatF, ← BitVec.eq_of_toNat_eq hop, ← extractLsb'_eq_zero_of_mask (by decide) hz hmask]
  simp (disch := rfl) only [wordOpcode, regField_wordA, regField_wordB, regField_wordCr,
    BitVec.extractLsb'_append_extractLsb'_eq_extractLsb']

theorem formatF_noCr_of_mask (hzCr : mask.extractLsb' 44 4 = BitVec.allOnes 4)
    (hz : mask.extractLsb' 0 44 = BitVec.allOnes 44) : formatF op (wordA c) (wordB c) 0 = c := by
  rw [← wordCr_eq_zero hmask hzCr]
  exact formatF_of_mask hop hmask hz

theorem formatM_of_mask (hz : mask.extractLsb' 18 34 = BitVec.allOnes 34) :
    formatM op (wordA c) (wordP c) = c := by
  apply eq_of_join
  rw [formatM, ← BitVec.eq_of_toNat_eq hop, ← extractLsb'_eq_zero_of_mask (by decide) hz hmask]
  simp (disch := rfl) only [wordOpcode, regField_wordA, wordP, ofNat_toNat_field,
    BitVec.extractLsb'_append_extractLsb'_eq_extractLsb']

theorem formatT_of_mask (hzA : mask.extractLsb' 52 4 = BitVec.allOnes 4)
    (hzCr : mask.extractLsb' 44 4 = BitVec.allOnes 4) (hz2 : mask.extractLsb' 41 2 = BitVec.allOnes 2)
    (hzQ : mask.extractLsb' 18 18 = BitVec.allOnes 18) :
    formatT op (wordB c) (wordOrd c) (wordK c) (wordP c) = c := by
  have hA := extractLsb'_eq_zero_of_mask (by decide) hzA hmask
  have hCr := extractLsb'_eq_zero_of_mask (by decide) hzCr hmask
  have h2 := extractLsb'_eq_zero_of_mask (by decide) hz2 hmask
  have hQ := extractLsb'_eq_zero_of_mask (by decide) hzQ hmask
  apply eq_of_join
  calc formatT op (wordB c) (wordOrd c) (wordK c) (wordP c)
      = wordOpcode c ++ c.extractLsb' 52 4 ++ regField (wordB c) ++ c.extractLsb' 44 4 ++ (wordOrd c).bit ++
          c.extractLsb' 41 2 ++ BitVec.ofNat 5 (wordK c) ++ c.extractLsb' 18 18 ++ BitVec.ofNat 18 (wordP c) := by
        rw [hA, hCr, h2, hQ, BitVec.eq_of_toNat_eq hop, formatT]
    _ = c.extractLsb' 0 64 := by
        simp (disch := rfl) only [wordOpcode, regField_wordB, bit_wordOrd, wordK, wordP, ofNat_toNat_field,
          BitVec.extractLsb'_append_extractLsb'_eq_extractLsb']

theorem formatV_of_mask (hz : mask.extractLsb' 41 15 = BitVec.allOnes 15) :
    formatV op (wordK c) (wordQ c) (wordP c) = c := by
  apply eq_of_join
  rw [formatV, ← BitVec.eq_of_toNat_eq hop, ← extractLsb'_eq_zero_of_mask (by decide) hz hmask]
  simp (disch := rfl) only [wordOpcode, wordK, wordQ, wordP, ofNat_toNat_field,
    BitVec.extractLsb'_append_extractLsb'_eq_extractLsb']

theorem formatB_of_mask (hz : mask.extractLsb' 47 9 = BitVec.allOnes 9) :
    formatB op (wordMode c) (wordGL c) (wordK c) (wordQ c) (wordP c) = c := by
  apply eq_of_join
  rw [formatB, ← BitVec.eq_of_toNat_eq hop, ← extractLsb'_eq_zero_of_mask (by decide) hz hmask]
  simp (disch := rfl) only [wordOpcode, bit_wordMode, wordGL, wordK, wordQ, wordP, ofNat_toNat_field,
    BitVec.extractLsb'_append_extractLsb'_eq_extractLsb']

end

/-- Every integer field is below its bound (R141). -/
theorem toNat_extractLsb'_fits (c : Word64) (start len : Nat) : decide ((c.extractLsb' start len).toNat < 2 ^ len) = true :=
  decide_eq_true (BitVec.isLt _)

/-- Row by row of the opcode map, in its order and grouped by format: the row's command is well-formed, and its word is the word it was read from. -/
theorem encode_of_opcodeRow {c mask : Word64} {n : Nat} {i : Instr} (hop : (wordOpcode c).toNat = n)
    (hrow : opcodeRow n c = some (mask, i)) (hmask : c &&& mask = (wordOpcode c).setWidth 64 <<< 56) :
    i.wellFormed = true ∧ encode i = c := by
  have hfits := toNat_extractLsb'_fits c
  unfold opcodeRow at hrow
  split at hrow <;> cases hrow
  case h_1 =>
    rw [BitVec.eq_of_toNat_eq (y := 0x01#8) hop] at hmask
    exact ⟨rfl, (BitVec.and_allOnes.symm.trans hmask).symm⟩
  case h_2 =>
    rw [BitVec.eq_of_toNat_eq (y := 0x02#8) hop] at hmask
    exact ⟨rfl, (eq_formatN_of_mask hmask).symm⟩
  case h_3 | h_4 | h_5 | h_6 | h_8 | h_11 | h_12 => exact ⟨rfl, formatR_of_mask hop hmask rfl⟩
  case h_7 => exact ⟨rfl, formatR_noA_of_mask hop hmask rfl rfl⟩
  case h_13 => exact ⟨rfl, formatR_noCr_of_mask hop hmask rfl rfl⟩
  case h_9 | h_10 => exact ⟨hfits 0 9, formatS_of_mask hop hmask rfl rfl⟩
  case h_14 => exact ⟨rfl, formatL_of_mask hop hmask rfl⟩
  case h_15 | h_16 | h_17 | h_18 | h_21 => exact ⟨rfl, formatF_of_mask hop hmask rfl⟩
  case h_19 | h_20 | h_22 | h_23 => exact ⟨rfl, formatF_noCr_of_mask hop hmask rfl rfl⟩
  case h_24 | h_25 => exact ⟨hfits 0 18, formatM_of_mask hop hmask rfl⟩
  case h_26 =>
    refine ⟨?_, formatT_of_mask hop hmask rfl rfl rfl rfl⟩
    exact Bool.and_eq_true_iff.2 ⟨hfits 36 5, hfits 0 18⟩
  case h_27 =>
    refine ⟨?_, formatV_of_mask hop hmask rfl⟩
    simp only [Instr.wellFormed, Bool.and_eq_true]
    exact ⟨⟨hfits 36 5, hfits 18 18⟩, hfits 0 18⟩
  case h_28 =>
    refine ⟨?_, formatB_of_mask hop hmask rfl⟩
    simp only [Instr.wellFormed, Bool.and_eq_true]
    exact ⟨⟨⟨hfits 41 5, hfits 36 5⟩, hfits 18 18⟩, hfits 0 18⟩

/-- Settles O3: a word that decodes has passed its row's check. -/
theorem encodeAfterDecode : Obligations.EncodeAfterDecode := by
  intro c i hdecode
  obtain ⟨mask, hrow, hmask⟩ := decode_eq_command_iff.mp hdecode
  exact encode_of_opcodeRow rfl hrow hmask

end Sys2Proof.Machine
end

