-- ==== Sys2Proof/Proofs/CommandEffects.lean ====
section
/-! PROOF. What the rule of a command can write, said once: the pieces of state outside the bookkeeping of R320. -/

namespace Sys2Proof.Machine

open Sys2Proof

/-! ## The effects -/

/-- The writes of a command lie inside EMEM_N (R82) and leave tags of a size TWGEN can make (R260). -/
def ElemWritesFit (s : State) (l : List (Nat × Element)) : Prop :=
  ∀ x ∈ l, x.1 < s.cfg.ememN ∧ ∀ o ks, x.2.tag = .tw o ks → 1 ≤ ks ∧ ks ≤ s.cfg.ememLog + 1

/-- What the rule of a command can leave of the state before it: only the five of R33 write the flags, and only FCFG the field constants. -/
inductive CommandEffect (i : Instr) (s : State) : State → Prop
  | none : CommandEffect i s s
  | pend (sources : BitVec 3) : CommandEffect i s (s.pend sources)
  | reg (rd : Reg) (v : Word) : CommandEffect i s (s.setReg rd v)
  | regAndFlags (rd : Reg) (n : Nat) (c z : Bool) (hi : writesFlags i = true) :
      CommandEffect i s ((s.writeResult rd n).setFlags c z)
  | flags (c z : Bool) (hi : writesFlags i = true) : CommandEffect i s (s.setFlags c z)
  | field (rn rr2 rni : Reg) (hi : i = .fcfg rn rr2 rni) (hr : s.fieldReady = false)
      (hok : fieldConstantsOk (s.reg rn).toNat (s.reg rr2).toNat (s.reg rni).toNat) :
      CommandEffect i s { s with
        fieldN := s.reg rn, fieldR2 := s.reg rr2, fieldNinv := s.reg rni, fieldReady := true }
  | elems (l : List (Nat × Element)) (hl : ElemWritesFit s l) : CommandEffect i s (s.memWriteAll l)

/-- A command fails on the state before it, or one of the effects retires. -/
def EndsWithEffect (i : Instr) (s : State) (r : StepResult) : Prop :=
  (∃ e, r = fail e s) ∨ ∃ u, r = complete u ∧ CommandEffect i s u

section

variable {i : Instr} {s : State}

theorem endsWithEffect_fail (e : ErrorName) : EndsWithEffect i s (fail e s) := .inl ⟨e, rfl⟩

theorem CommandEffect.ends {u : State} (h : CommandEffect i s u) : EndsWithEffect i s (complete u) := .inr ⟨u, rfl, h⟩

theorem endsWithEffect_writeResult (rd : Reg) (n : Nat) : EndsWithEffect i s (complete (s.writeResult rd n)) :=
  (CommandEffect.reg rd _).ends

theorem endsWithEffect_fieldUnary (rd rs1 : Reg) (f : Nat → Nat) : EndsWithEffect i s (fieldUnary rd rs1 f s) := by
  obtain ⟨_, h⟩ | ⟨_, _, h⟩ | ⟨_, _, h⟩ := fieldUnary_ends rd rs1 f s <;> rw [h]
  · exact endsWithEffect_fail _
  · exact endsWithEffect_fail _
  · exact endsWithEffect_writeResult ..

theorem endsWithEffect_fieldBinary (rd rs1 rs2 : Reg) (f : Nat → Nat → Nat) :
    EndsWithEffect i s (fieldBinary rd rs1 rs2 f s) := by
  obtain ⟨_, h⟩ | ⟨_, _, h⟩ | ⟨_, _, _, h⟩ := fieldBinary_ends rd rs1 rs2 f s <;> rw [h]
  · exact endsWithEffect_fail _
  · exact endsWithEffect_fail _
  · exact endsWithEffect_writeResult ..

/-! ## The writes of the transforms -/

/-- Writes of DATA inside a region that fits. -/
theorem elemWritesFit_of_data {l : List (Nat × Element)} (hfit : ∀ x ∈ l, x.1 < s.cfg.ememN)
    (htag : ∀ x ∈ l, x.2.tag = .data) : ElemWritesFit s l := by
  intro x hx
  refine ⟨hfit x hx, fun o ks h => ?_⟩
  rw [htag x hx] at h
  cases h

theorem elemWritesFit_memWrite {p : Nat} {v : Word} (hp : s.elemExists p) :
    ElemWritesFit s [(p, Element.ofWord v .data)] :=
  elemWritesFit_of_data (List.forall_mem_singleton.2 hp) (List.forall_mem_singleton.2 rfl)

/-- A table of 2^(ks−1) entries fits only when ks is at most EMEM_LOG + 1. -/
theorem elemWritesFit_twiddleTable {ord : TwOrder} {root ks dst : Nat} (hks : ks ≠ 0)
    (hfit : s.regionFits dst (2 ^ (ks - 1))) : ElemWritesFit s (twiddleTable s ord root ks dst) := by
  have hsize : ks - 1 ≤ s.cfg.ememLog :=
    (Nat.pow_le_pow_iff_right (by decide : 1 < 2)).1 ((Nat.le_add_left ..).trans hfit)
  refine List.forall_mem_map.2 fun i hi => ⟨?_, fun o ks' htag => ?_⟩
  · exact (Nat.add_lt_add_left (List.mem_range.1 hi) dst).trans_le hfit
  · cases htag
    omega

theorem elemWritesFit_bitrevWrites {k dst src : Nat} (hfit : s.regionFits dst (2 ^ k)) :
    ElemWritesFit s (bitrevWrites s k dst src) :=
  elemWritesFit_of_data
    (List.forall_mem_map.2 fun i _ => (Nat.add_lt_add_left (bitrev_lt k i) dst).trans_le hfit)
    (List.forall_mem_map.2 fun _ _ => rfl)

/-- The writes of a stage are those of its pairs, two each (R292). -/
theorem forall_mem_butterflyWrites {mode : Mode} {gl k tw buf : Nat} {P : Nat × Element → Prop} :
    (∀ x ∈ butterflyWrites s mode gl k tw buf, P x) ↔
      ∀ j < 2 ^ k / 2 ^ gl, ∀ i < 2 ^ gl / 2, ∀ x ∈ butterflyPair s mode gl k tw buf j i, P x := by
  rw [butterflyWrites, List.forall_mem_flatMap]
  exact ⟨fun h j hj i hi => h (j, i) (mem_stagePairs.2 ⟨hj, hi⟩),
    fun h x hx => h x.1 (mem_stagePairs.1 hx).1 x.2 (mem_stagePairs.1 hx).2⟩

/-- Every write of a stage lies in the buffer (R290). -/
theorem butterflyWrites_in_buffer (s : State) (mode : Mode) {gl k : Nat} (tw buf : Nat) (hgl : 1 ≤ gl) (hk : gl ≤ k) :
    ∀ x ∈ butterflyWrites s mode gl k tw buf, buf ≤ x.1 ∧ x.1 < buf + 2 ^ k := by
  rw [forall_mem_butterflyWrites]
  intro j hj i hi
  have hbottom := pairBottom_lt hgl hk buf hj hi
  have htop : buf ≤ pairTop buf gl j i := (Nat.le_add_right ..).trans (Nat.le_add_right ..)
  have horder : pairTop buf gl j i ≤ pairBottom buf gl j i := Nat.le_add_right ..
  exact List.forall_mem_cons.2
    ⟨⟨htop, horder.trans_lt hbottom⟩, List.forall_mem_singleton.2 ⟨htop.trans horder, hbottom⟩⟩

/-- Every write of a stage is one of DATA (R292). -/
theorem butterflyWrites_data (s : State) (mode : Mode) (gl k tw buf : Nat) :
    ∀ x ∈ butterflyWrites s mode gl k tw buf, x.2.tag = .data := by
  rw [forall_mem_butterflyWrites]
  exact fun j _ i _ => List.forall_mem_cons.2 ⟨rfl, List.forall_mem_singleton.2 rfl⟩

theorem elemWritesFit_butterflyWrites {mode : Mode} {gl k tw buf : Nat} (hgl : 1 ≤ gl) (hk : gl ≤ k)
    (hfit : s.regionFits buf (2 ^ k)) : ElemWritesFit s (butterflyWrites s mode gl k tw buf) :=
  elemWritesFit_of_data (fun x hx => (butterflyWrites_in_buffer s mode tw buf hgl hk x hx).2.trans_le hfit)
    (butterflyWrites_data s mode gl k tw buf)

/-- BFLY ends in an error, or its sizes and its buffer have passed their checks and it writes the pairs (R292). -/
theorem execBfly_ends (mode : Mode) (gl k tw buf : Nat) (s : State) :
    (∃ e, execBfly mode gl k tw buf s = fail e s) ∨
    (1 ≤ gl ∧ gl ≤ k ∧ s.regionFits buf (2 ^ k) ∧
      execBfly mode gl k tw buf s = complete (s.memWriteAll (butterflyWrites s mode gl k tw buf))) := by
  by_cases hsizes : k = 0 ∨ gl = 0 ∨ gl > k
  · unfold execBfly
    rw [if_pos hsizes]
    split <;> exact .inl ⟨_, rfl⟩
  by_cases hfit : s.regionFits buf (2 ^ k) ∧ s.regionFits tw (2 ^ k / 2)
  · unfold execBfly
    rw [if_neg hsizes, if_neg (not_not_intro hfit)]
    repeat' split
    case isFalse.isFalse => exact .inr ⟨by omega, by omega, hfit.1, rfl⟩
    all_goals exact .inl ⟨_, rfl⟩
  · unfold execBfly
    rw [if_neg hsizes, if_pos hfit]
    split <;> exact .inl ⟨_, rfl⟩

/-! ## Every command -/

/-- What exec can answer, and what it can have written. -/
theorem exec_endsWithEffect (i : Instr) (s : State) : EndsWithEffect i s (exec i s) := by
  cases i with
  | nop => exact CommandEffect.none.ends
  | sync irq =>
    cases irq with
    | false => exact CommandEffect.none.ends
    | true => exact (CommandEffect.pend irqSync).ends
  | add rd rs1 rs2 w => exact (CommandEffect.regAndFlags rd _ _ _ rfl).ends
  | adc rd rs1 rs2 w => exact (CommandEffect.regAndFlags rd _ _ _ rfl).ends
  | sub rd rs1 rs2 w => exact (CommandEffect.regAndFlags rd _ _ _ rfl).ends
  | sbb rd rs1 rs2 w => exact (CommandEffect.regAndFlags rd _ _ _ rfl).ends
  | cmp rs1 rs2 w => exact (CommandEffect.flags _ _ rfl).ends
  | and rd rs1 rs2 w => exact endsWithEffect_writeResult ..
  | shr rd rs1 shamt w => exact endsWithEffect_writeResult ..
  | shl rd rs1 shamt w => exact endsWithEffect_writeResult ..
  | mul rd rs1 rs2 w => exact endsWithEffect_writeResult ..
  | mulb rd rs1 rs2 w => exact endsWithEffect_writeResult ..
  | mov rd rs1 w => exact endsWithEffect_writeResult ..
  | li rd imm32 => exact endsWithEffect_writeResult ..
  | fcfg rn rr2 rni =>
    rw [exec_fcfg, execFcfg]
    split
    case isTrue => exact endsWithEffect_fail _
    case isFalse hr =>
      split
      case isTrue => exact endsWithEffect_fail _
      case isFalse hok => exact (CommandEffect.field rn rr2 rni rfl (by simpa using hr) (not_not.1 hok)).ends
  | fadd rd rs1 rs2 =>
    rw [exec_fadd, execFadd]
    exact endsWithEffect_fieldBinary ..
  | fsub rd rs1 rs2 =>
    rw [exec_fsub, execFsub]
    exact endsWithEffect_fieldBinary ..
  | fmul rd rs1 rs2 =>
    rw [exec_fmul, execFmul]
    exact endsWithEffect_fieldBinary ..
  | fsqr rd rs1 =>
    rw [exec_fsqr, execFsqr]
    exact endsWithEffect_fieldUnary ..
  | finv rd rs1 =>
    rw [exec_finv, execFinv]
    split
    case isTrue => exact endsWithEffect_fail _
    split
    case isTrue => exact endsWithEffect_fail _
    split
    case isTrue => exact endsWithEffect_fail _
    case isFalse => exact endsWithEffect_writeResult ..
  | fpow rd rs1 rs2 =>
    rw [exec_fpow, execFpow]
    exact endsWithEffect_fieldUnary ..
  | ftom rd rs1 =>
    rw [exec_ftom, execFtom]
    exact endsWithEffect_fieldUnary ..
  | ffromm rd rs1 =>
    rw [exec_ffromm, execFfromm]
    exact endsWithEffect_fieldUnary ..
  | ld rd p =>
    rw [exec_ld, execLd]
    split
    case isTrue => exact endsWithEffect_fail _
    case isFalse => exact (CommandEffect.reg rd _).ends
  | st rs p =>
    rw [exec_st, execSt]
    split
    case isTrue => exact endsWithEffect_fail _
    case isFalse hp => exact (CommandEffect.elems _ (elemWritesFit_memWrite (not_not.1 hp))).ends
  | twgen ord rs1 ks dst =>
    rw [exec_twgen, execTwgen]
    split
    case isTrue => exact endsWithEffect_fail _
    split
    case isTrue => exact endsWithEffect_fail _
    case isFalse hks =>
      split
      case isTrue => exact endsWithEffect_fail _
      case isFalse hfit =>
        split
        case isTrue => exact endsWithEffect_fail _
        case isFalse => exact (CommandEffect.elems _ (elemWritesFit_twiddleTable hks (not_not.1 hfit))).ends
  | bitrev k dst src =>
    rw [exec_bitrev, execBitrev]
    split
    case isTrue => exact endsWithEffect_fail _
    case isFalse hfit =>
      split
      case isTrue => exact endsWithEffect_fail _
      case isFalse => exact (CommandEffect.elems _ (elemWritesFit_bitrevWrites (not_not.1 hfit).2)).ends
  | bfly mode gl k tw buf =>
    rw [exec_bfly]
    obtain ⟨e, h⟩ | ⟨hgl, hk, hfit, h⟩ := execBfly_ends mode gl k tw buf s <;> rw [h]
    · exact endsWithEffect_fail e
    · exact (CommandEffect.elems _ (elemWritesFit_butterflyWrites hgl hk hfit)).ends

/-- A command that answers has raised an error on the state before it, or one of the effects retired. -/
theorem exec_next_cases {t : State} (h : exec i s = .next t) :
    (∃ e, t = s.raise e) ∨ ∃ u, t = u.retire ∧ CommandEffect i s u := by
  obtain ⟨e, he⟩ | ⟨u, hu, heffect⟩ := exec_endsWithEffect i s
  · cases he.symm.trans h
    exact .inl ⟨e, rfl⟩
  · cases hu.symm.trans h
    exact .inr ⟨u, rfl, heffect⟩

/-! ## The flags -/

theorem CommandEffect.sameFlags {u : State} (h : CommandEffect i s u) (hi : writesFlags i = false) : SameFlags s u := by
  cases h with
  | none => exact ⟨rfl, rfl⟩
  | pend => exact ⟨rfl, rfl⟩
  | reg => exact ⟨rfl, rfl⟩
  | regAndFlags rd n c z hw => exact absurd hw (Bool.eq_false_iff.1 hi)
  | flags c z hw => exact absurd hw (Bool.eq_false_iff.1 hi)
  | field => exact ⟨rfl, rfl⟩
  | elems => exact ⟨rfl, rfl⟩

end

/-- Settles O26: of the effects only those of the five commands of R33 write the flags. -/
theorem onlyArithmeticWritesFlags : Obligations.OnlyArithmeticWritesFlags := by
  intro i s t hi h
  obtain ⟨e, rfl⟩ | ⟨u, rfl, heffect⟩ := exec_next_cases h
  · exact ⟨rfl, rfl⟩
  · exact heffect.sameFlags hi

end Sys2Proof.Machine
end

