-- ==== Sys2Proof/Proofs/StepCases.lean ====
section
/-! PROOF. What one step of the machine can be, said once, with the address of a host write (R93, R320, R360). -/

namespace Sys2Proof.Machine

open Sys2Proof

variable {s t : State}

/-! ## The core -/

/-- The core answers only while running with a command queued, and then executes it (R320). -/
theorem coreStep_next_cases (h : coreStep s = .next t) :
    s.halted = false ∧ ∃ c, s.fifo.head? = some c ∧ executeWord c s = .next t := by
  unfold coreStep at h
  split at h
  case isTrue => cases h
  case isFalse hrun =>
    split at h
    case h_1 => cases h
    case h_2 c _ hfifo => exact ⟨Bool.eq_false_iff.2 hrun, c, by rw [hfifo]; rfl, h⟩

/-- A word raises an error on the state before it, or it is a command of which an effect retires (R143, R320). -/
theorem executeWord_next_cases {c : Word64} (h : executeWord c s = .next t) :
    (∃ e, t = s.raise e) ∨ ∃ i u, decode c = .command i ∧ t = u.retire ∧ CommandEffect i s u := by
  unfold executeWord at h
  split at h
  case h_1 i hi =>
    obtain he | ⟨u, hu, heffect⟩ := exec_next_cases h
    · exact .inl he
    · exact .inr ⟨i, u, hi, hu, heffect⟩
  case h_2 =>
    cases h
    exact .inl ⟨.illegalCommand, rfl⟩

/-! ## The host -/

/-- An access that has a meaning is of 64 bits, inside the block, at an aligned offset (R84, R85). -/
theorem mmioOffset_ok {cfg : Config} {width addr off : Nat} (h : mmioOffset cfg width addr = .ok off) :
    width = 64 ∧ addr = cfg.mmioBase + off ∧ off < 0x1000000 ∧ off % 8 = 0 := by
  unfold mmioOffset mmioSize at h
  split at h
  case isTrue => cases h
  case isFalse hin =>
    split at h
    case isTrue => cases h
    case isFalse hsupported =>
      cases h
      omega

/-- A host access that has a meaning is a read, which puts one value into `reads`, or a write of the register at its offset. -/
theorem hostAccess_next_cases {a : HostAccess} (h : hostAccess a s = .next t) :
    (∃ x : Word64, t = { s with reads := x :: s.reads }) ∨
    ∃ off v, a = .write 64 (s.cfg.mmioBase + off) v ∧ off % 8 = 0 ∧ t = s.mmioWrite (mmioMap s.cfg off) v := by
  cases a with
  | read width addr =>
    simp only [hostAccess] at h
    split at h
    · cases h
    · cases h
      exact .inl ⟨_, rfl⟩
  | write width addr data =>
    simp only [hostAccess] at h
    split at h
    case h_1 => cases h
    case h_2 off hoff =>
      obtain ⟨rfl, rfl, _, h8⟩ := mmioOffset_ok hoff
      cases h
      exact .inr ⟨off, data, rfl, h8, rfl⟩

/-- Only offset 0x10 names CTRL (R60). -/
theorem eq_of_mmioMap_eq_ctrl {cfg : Config} {off : Nat} (h : mmioMap cfg off = .ctrl) (h8 : off % 8 = 0) :
    off = 0x10 := by
  unfold mmioMap at h
  split at h
  case isTrue =>
    split at h <;> cases h
    omega
  case isFalse =>
    repeat' split at h
    all_goals cases h

/-- The element window names elements that exist (R75, R81). -/
theorem lt_of_mmioMap_eq_elemWord {cfg : Config} {off j : Nat} {q : Fin 4} (h : mmioMap cfg off = .elemWord j q) :
    j < cfg.ememN := by
  unfold mmioMap at h
  split at h
  case isTrue =>
    split at h <;> cases h
  case isFalse =>
    repeat' split at h
    all_goals cases h
    assumption

/-! ## Whose turn it is -/

/-- A step is the core's, with no turn given or its turn used up, an access of the host, or a power-on reset (R93, R360). -/
theorem step_next_cases (h : step s = .next t) :
    (∃ rest, (s.turns = [] ∧ rest = [] ∨ s.turns = .core :: rest) ∧ coreStep { s with turns := rest } = .next t) ∨
    (∃ a rest, s.turns = .host a :: rest ∧ hostAccess a { s with turns := rest } = .next t) ∨
    (∃ rest, s.turns = .powerOn :: rest ∧ t = ({ s with turns := rest } : State).powerCycle) := by
  unfold step takeTurn at h
  split at h
  case h_1 hturns =>
    refine .inl ⟨[], .inl ⟨hturns, rfl⟩, ?_⟩
    rwa [← hturns]
  case h_2 rest hturns => exact .inl ⟨rest, .inr hturns, h⟩
  case h_3 a rest hturns => exact .inr (.inl ⟨a, rest, hturns, h⟩)
  case h_4 rest hturns =>
    cases h
    exact .inr (.inr ⟨rest, hturns, rfl⟩)

end Sys2Proof.Machine
end

