-- ==== Sys2Proof/Proofs/Invariant.lean ====
section
/-! PROOF. The invariant of the machine holds at reset, and every step keeps it. -/

namespace Sys2Proof.Machine

open Sys2Proof

section

variable {s t u : State}

/-! ## What the invariant does not look at -/

theorem State.FieldConfigured.of_sameField (h : s.FieldConfigured) (hsame : SameField s t) : t.FieldConfigured := by
  obtain ⟨hn, hr2, hninv, hready⟩ := hsame
  exact ⟨hready ▸ h.ready, hn ▸ h.odd, hn ▸ h.atLeast3, hr2 ▸ hn ▸ h.canonical, hninv ▸ hn ▸ h.inverse⟩

/-- The turns, the registers, the flags and the interrupt bits are free. -/
theorem State.Inv.withFree (h : s.Inv) (turns : List Turn) (reads : List Word64) (regs : Vector Word 16) (c z : Bool)
    (irqEn irqPend : BitVec 3) (dropped : Bool) :
    State.Inv { s with
      turns := turns, reads := reads, regs := regs, flagC := c, flagZ := z, irqEn := irqEn, irqPend := irqPend,
      cmdDropped := dropped } :=
  { h with locked := fun hr => (h.locked hr).of_sameField ⟨rfl, rfl, rfl, rfl⟩ }

/-! ## Element memory -/

/-- Writes inside EMEM_N keep element memory in form. -/
theorem State.Inv.memWriteAll (h : s.Inv) {l : List (Nat × Element)} (hl : ElemWritesFit s l) :
    (s.memWriteAll l).Inv :=
  { h with
    memSorted := Memory.wf_writeAll h.memSorted l
    memBounds := fun x hx => (Memory.mem_writeAll hx).elim (fun hxl => (hl x hxl).1) (h.memBounds x)
    tagSizes := fun x hx o ks htag => by
      obtain hxl | hxm := Memory.mem_writeAll hx
      · obtain ⟨hlow, hhigh⟩ := (hl x hxl).2 o ks htag
        have hlog := h.config.2.1
        exact ⟨hlow, by omega⟩
      · exact h.tagSizes x hxm o ks htag
    locked := fun hr => (h.locked hr).of_sameField ⟨rfl, rfl, rfl, rfl⟩ }

/-- A soft reset leaves no twiddle tag (R361). -/
theorem tag_of_mem_clearTags {m : Memory} {x : Nat × Element} (hx : x ∈ m.clearTags) :
    x.2.tag = .data ∧ ∃ y ∈ m, y.1 = x.1 := by
  obtain ⟨y, hy, rfl⟩ := List.mem_map.1 hx
  exact ⟨rfl, y, hy, rfl⟩

/-! ## The core's step -/

/-- The effect of a command keeps the invariant. -/
theorem CommandEffect.inv {i : Instr} (h : CommandEffect i s u) (hs : s.Inv) : u.Inv := by
  cases h with
  | none => exact hs
  | pend => exact hs.withFree ..
  | reg => exact hs.withFree ..
  | regAndFlags => exact hs.withFree ..
  | flags => exact hs.withFree ..
  | field rn rr2 rni _ _ hok =>
    obtain ⟨hodd, h3, hcanonical, hinverse⟩ := hok
    exact { hs with unlocked := nofun, locked := fun _ => ⟨rfl, hodd, h3, hcanonical, hinverse⟩ }
  | elems l hl => exact hs.memWriteAll hl

/-- A running core keeps its error record 0 when a command leaves the FIFO. -/
theorem State.Inv.retire (hs : s.Inv) (hrun : s.halted = false) : s.retire.Inv :=
  { hs with
    fifoFits := (List.length_tail.trans_le (Nat.sub_le ..)).trans hs.fifoFits
    stopped := fun hhalt => absurd hhalt (Bool.eq_false_iff.1 hrun)
    locked := fun hr => (hs.locked hr).of_sameField ⟨rfl, rfl, rfl, rfl⟩ }

/-- Every code of R321 that is raised is in 0x01..0x0A. -/
theorem ErrorName.code_bounds (e : ErrorName) : 0x01#8 ≤ e.code ∧ e.code ≤ 0x0A#8 := by
  cases e <;> decide

/-- Error entry describes the command at the head (R322). -/
theorem State.Inv.raise (hs : s.Inv) {c : Word64} (hc : s.fifo.head? = some c) (e : ErrorName) : (s.raise e).Inv :=
  { hs with
    running := nofun
    stopped := fun _ => by
      refine ⟨?_, rfl, e.code_bounds⟩
      rw [State.raise_fifo, State.raise_errCmd, State.headWord, List.headD_eq_head?_getD, hc, Option.getD_some]
    locked := fun hr => (hs.locked hr).of_sameField ⟨rfl, rfl, rfl, rfl⟩ }

theorem CommandEffect.halted {i : Instr} (h : CommandEffect i s u) : u.halted = s.halted := by
  cases h <;> rfl

theorem coreStep_keeps_inv (hs : s.Inv) (h : coreStep s = .next t) : t.Inv := by
  obtain ⟨hrun, c, hc, hexec⟩ := coreStep_next_cases h
  obtain ⟨e, rfl⟩ | ⟨i, u, _, rfl, heffect⟩ := executeWord_next_cases hexec
  · exact hs.raise hc e
  · exact (heffect.inv hs).retire (heffect.halted.trans hrun)

/-! ## Resets -/

theorem powerOn_inv {cfg : Config} (hcfg : cfg.Valid) : (State.powerOn cfg).Inv where
  config    := hcfg
  memSorted := List.Pairwise.nil
  memBounds := nofun
  tagSizes  := nofun
  fifoFits  := Nat.zero_le _
  running   := fun _ => ⟨rfl, rfl, rfl⟩
  stopped   := nofun
  unlocked  := fun _ => ⟨rfl, rfl, rfl⟩
  locked    := nofun

theorem State.Inv.powerCycle (hs : s.Inv) : s.powerCycle.Inv :=
  { powerOn_inv hs.config with locked := nofun }

theorem State.Inv.softReset (hs : s.Inv) : s.softReset.Inv :=
  { powerOn_inv hs.config with
    memSorted := Memory.wf_clearTags hs.memSorted
    memBounds := fun x hx => by
      obtain ⟨_, y, hy, hyx⟩ := tag_of_mem_clearTags hx
      exact hyx ▸ hs.memBounds y hy
    tagSizes := fun x hx o ks htag => by
      rw [(tag_of_mem_clearTags hx).1] at htag
      cases htag
    locked := nofun }

theorem State.Inv.clearErr (hs : s.Inv) : s.clearErr.Inv :=
  { hs with
    fifoFits := Nat.zero_le _
    running := fun _ => ⟨rfl, rfl, rfl⟩
    stopped := nofun
    locked := fun hr => (hs.locked hr).of_sameField ⟨rfl, rfl, rfl, rfl⟩ }

/-! ## The host's step -/

theorem State.Inv.writeCtrl (hs : s.Inv) (v : Word64) : (s.writeCtrl v).Inv := by
  unfold State.writeCtrl
  split
  · exact hs.softReset
  · split
    · exact hs.clearErr
    · exact hs

/-- A word is queued only where the FIFO has room and the core runs (R71). -/
theorem State.Inv.writeCmd (hs : s.Inv) (c : Word64) : (s.writeCmd c).Inv := by
  unfold State.writeCmd
  split
  case isTrue => exact hs.withFree ..
  case isFalse hqueue =>
    obtain ⟨hrun, hroom⟩ := not_or.1 hqueue
    have hlevel : s.fifo.length < s.cfg.qdepth := hs.fifoFits.lt_of_ne hroom
    exact { hs with
      fifoFits := List.length_append.trans_le hlevel
      stopped := fun hhalt => absurd hhalt hrun
      locked := fun hr => (hs.locked hr).of_sameField ⟨rfl, rfl, rfl, rfl⟩ }

/-- A host write of an element is a write of one element with tag DATA (R75). -/
theorem State.Inv.writeElem (hs : s.Inv) {j : Nat} (hj : j < s.cfg.ememN) (q : Fin 4) (v : Word64) :
    (s.mmioWrite (.elemWord j q) v).Inv := by
  refine hs.memWriteAll (l := [(j, (s.elem j).hostWrite q v)]) (elemWritesFit_of_data ?_ ?_)
  · exact List.forall_mem_singleton.2 hj
  · exact List.forall_mem_singleton.2 (Element.tag_hostWrite ..)

theorem State.Inv.mmioWrite (hs : s.Inv) {off : Nat} {m : MmioReg} (hm : mmioMap s.cfg off = m) (v : Word64) :
    (s.mmioWrite m v).Inv := by
  cases m
  case ctrl => exact hs.writeCtrl v
  case irqEn => exact hs.withFree ..
  case irqPend => exact hs.withFree ..
  case cmd => exact hs.writeCmd v
  case regWord => exact hs.withFree ..
  case elemWord j q => exact hs.writeElem (lt_of_mmioMap_eq_elemWord hm) q v
  all_goals exact hs

theorem hostAccess_keeps_inv {a : HostAccess} (hs : s.Inv) (h : hostAccess a s = .next t) : t.Inv := by
  obtain ⟨x, rfl⟩ | ⟨off, v, _, _, rfl⟩ := hostAccess_next_cases h
  · exact hs.withFree ..
  · exact hs.mmioWrite rfl v

end

/-! ## The statements -/

/-- Settles O8, agent by agent. -/
theorem stepKeepsTheInvariant : Obligations.StepKeepsTheInvariant := by
  intro s t hs h
  have hturns (rest : List Turn) : State.Inv { s with turns := rest } := hs.withFree ..
  obtain ⟨rest, _, hcore⟩ | ⟨a, rest, _, hhost⟩ | ⟨rest, _, rfl⟩ := step_next_cases h
  · exact coreStep_keeps_inv (hturns rest) hcore
  · exact hostAccess_keeps_inv (hturns rest) hhost
  · exact (hturns rest).powerCycle

/-- Settles O9: everything the invariant bounds is empty or zero after power-on. -/
theorem resetMeetsTheInvariant : Obligations.ResetMeetsTheInvariant :=
  ⟨powerOn_inv (by decide), fun _ => powerOn_inv⟩

end Sys2Proof.Machine
end

