-- ==== Sys2Proof/Proofs/FieldLock.lean ====
section
/-! PROOF. The field constants change only by FCFG and by the resets (R37, R38). -/

namespace Sys2Proof.Machine

open Sys2Proof

section

variable {s t u : State}

theorem not_set_of_sameField (hsame : SameField s t) (hr : s.fieldReady = false) : t.fieldReady ≠ true := by
  obtain ⟨_, _, _, hready⟩ := hsame
  rw [hready, hr]
  exact Bool.false_ne_true

/-- Of the effects of a command only that of FCFG touches the field constants, and it sets FIELD_READY (R212). -/
theorem CommandEffect.field_cases {i : Instr} (h : CommandEffect i s u) :
    SameField s u ∨ s.fieldReady = false ∧ u.fieldReady = true ∧ ∃ rn rr2 rni, i = .fcfg rn rr2 rni := by
  cases h with
  | field rn rr2 rni hi hr _ => exact .inr ⟨hr, rfl, rn, rr2, rni, hi⟩
  | none => exact .inl ⟨rfl, rfl, rfl, rfl⟩
  | pend => exact .inl ⟨rfl, rfl, rfl, rfl⟩
  | reg => exact .inl ⟨rfl, rfl, rfl, rfl⟩
  | regAndFlags => exact .inl ⟨rfl, rfl, rfl, rfl⟩
  | flags => exact .inl ⟨rfl, rfl, rfl, rfl⟩
  | elems => exact .inl ⟨rfl, rfl, rfl, rfl⟩

/-- The core changes the field constants only when FIELD_READY is 0 and an FCFG at the head sets it. -/
theorem coreStep_field_cases (h : coreStep s = .next t) :
    SameField s t ∨ s.fieldReady = false ∧ t.fieldReady = true ∧
      ∃ c rn rr2 rni, s.fifo.head? = some c ∧ decode c = .command (.fcfg rn rr2 rni) := by
  obtain ⟨_, c, hc, hexec⟩ := coreStep_next_cases h
  obtain ⟨e, rfl⟩ | ⟨i, u, hi, rfl, heffect⟩ := executeWord_next_cases hexec
  · exact .inl ⟨rfl, rfl, rfl, rfl⟩
  · obtain hsame | ⟨hr, hset, rn, rr2, rni, rfl⟩ := heffect.field_cases
    · exact .inl hsame
    · exact .inr ⟨hr, hset, c, rn, rr2, rni, hc, hi⟩

theorem writeCtrl_field_cases (s : State) (v : Word64) :
    SameField s (s.writeCtrl v) ∨ v.getLsbD 0 = true ∧ (s.writeCtrl v).fieldReady = false := by
  cases h0 : v.getLsbD 0 with
  | true => exact .inr ⟨rfl, by rw [writeCtrl_softReset s h0]; rfl⟩
  | false =>
    cases h1 : v.getLsbD 1 with
    | true => exact .inl (by rw [writeCtrl_clearErr s h0 h1]; exact ⟨rfl, rfl, rfl, rfl⟩)
    | false => exact .inl (by rw [writeCtrl_neither s h0 h1]; exact ⟨rfl, rfl, rfl, rfl⟩)

/-- Of the registers the host writes only CTRL touches the field constants (R73). -/
theorem mmioWrite_sameField {m : MmioReg} (hm : m ≠ .ctrl) (v : Word64) : SameField s (s.mmioWrite m v) := by
  cases m
  case ctrl => exact absurd rfl hm
  case cmd =>
    simp only [State.mmioWrite, State.writeCmd]
    split <;> exact ⟨rfl, rfl, rfl, rfl⟩
  all_goals exact ⟨rfl, rfl, rfl, rfl⟩

/-- The host changes the field constants only by a soft reset (R361). -/
theorem hostAccess_field_cases {a : HostAccess} (h : hostAccess a s = .next t) :
    SameField s t ∨ t.fieldReady = false ∧
      ∃ v : Word64, a = .write 64 (s.cfg.mmioBase + 0x10) v ∧ v.getLsbD 0 = true := by
  obtain ⟨x, rfl⟩ | ⟨off, v, ha, h8, rfl⟩ := hostAccess_next_cases h
  · exact .inl ⟨rfl, rfl, rfl, rfl⟩
  · by_cases hm : mmioMap s.cfg off = .ctrl
    · obtain rfl := eq_of_mmioMap_eq_ctrl hm h8
      rw [hm]
      exact (writeCtrl_field_cases s v).imp_right fun ⟨h0, hr⟩ => ⟨hr, v, ha, h0⟩
    · exact .inl (mmioWrite_sameField hm v)

end

/-- Settles O41, agent by agent. -/
theorem fieldConstantsChangeOnlyByReset : Obligations.FieldConstantsChangeOnlyByReset := by
  intro s t h
  obtain ⟨rest, _, hcore⟩ | ⟨a, rest, hturns, hhost⟩ | ⟨rest, hturns, rfl⟩ := step_next_cases h
  · obtain hsame | ⟨hr, hset, hfcfg⟩ := coreStep_field_cases hcore
    · exact ⟨fun _ => .inl hsame, fun hr hset => (not_set_of_sameField hsame hr hset).elim⟩
    · exact ⟨fun hkeep => absurd hkeep (by simp [show s.fieldReady = false from hr, hset]), fun _ _ => hfcfg⟩
  · obtain hsame | ⟨hr, v, rfl, h0⟩ := hostAccess_field_cases hhost
    · exact ⟨fun _ => .inl hsame, fun hr hset => (not_set_of_sameField hsame hr hset).elim⟩
    · refine ⟨fun _ => .inr ⟨hr, .inr ⟨v, ?_, h0⟩⟩, fun _ hset => absurd (hr.symm.trans hset) Bool.false_ne_true⟩
      rw [hturns]
      rfl
  · refine ⟨fun _ => .inr ⟨rfl, .inl ?_⟩, nofun⟩
    rw [hturns]
    rfl

end Sys2Proof.Machine
end

