-- ==== Sys2Proof/Proofs/CoreStep.lean ====
section
/-! PROOF. The core's step: when it can be taken, how it ends, and that weak fairness brings it (R320, R322, R371). -/

namespace Sys2Proof.Machine

open Sys2Proof

section

variable {s t : State}

/-! ## When the core can step -/

/-- The core runs with the command word `c` at the FIFO head. -/
def State.Waits (s : State) (c : Word64) : Prop := s.halted = false ∧ s.fifo.head? = some c

theorem State.Waits.coreCanStep {c : Word64} (h : s.Waits c) : s.coreCanStep = true := by
  obtain ⟨hrun, hc⟩ := h
  refine s.coreCanStep_iff.2 ⟨hrun, fun hnil => ?_⟩
  rw [hnil] at hc
  cases hc

/-- A core that answers could step (R320). -/
theorem coreCanStep_of_coreStep (h : coreStep s = .next t) : s.coreCanStep = true := by
  obtain ⟨hrun, c, hc, _⟩ := coreStep_next_cases h
  exact State.Waits.coreCanStep ⟨hrun, hc⟩

/-! ## How a step of the core ends -/

/-- A command makes pending what R320 says the head makes pending. -/
theorem headSources_eq {c : Word64} {i : Instr} (hc : s.fifo.head? = some c) (hi : decode c = .command i) :
    headSources s = commandSources i := by
  obtain ⟨rest, hfifo⟩ := List.head?_eq_some_iff.1 hc
  rw [headSources, hfifo]
  simp only [hi, Decoded.command.injEq]
  by_cases hsync : i = .sync true
  · rw [if_pos hsync, hsync]
    rfl
  · rw [if_neg hsync]
    cases i with
    | sync irq =>
      cases irq with
      | true => exact absurd rfl hsync
      | false => rfl
    | _ => rfl

/-- A word at the head retires or fails (R320, R322). -/
theorem executeWord_retires_or_fails {c : Word64} (hc : s.fifo.head? = some c) :
    ∃ t, executeWord c s = .next t ∧ (Retires (headSources s) s t ∨ ∃ e : ErrorName, Fails e.code s t) := by
  unfold executeWord
  split
  case h_1 i hi =>
    obtain ⟨e, he⟩ | ⟨u, hu, heffect⟩ := exec_ends i s
    · exact ⟨_, he, .inr ⟨e, fails_raise s e⟩⟩
    · exact ⟨_, hu, .inl (headSources_eq hc hi ▸ heffect.retires)⟩
  case h_2 => exact ⟨_, rfl, .inr ⟨.illegalCommand, fails_raise s .illegalCommand⟩⟩

/-- A running core with a command queued steps, and the command retires or fails. -/
theorem coreStep_retires_or_fails (h : s.coreCanStep = true) :
    ∃ t, coreStep s = .next t ∧ (Retires (headSources s) s t ∨ ∃ e : ErrorName, Fails e.code s t) := by
  obtain ⟨hrun, hne⟩ := s.coreCanStep_iff.1 h
  obtain ⟨c, hc⟩ := Option.ne_none_iff_exists'.1 (mt List.head?_eq_none_iff.1 hne)
  rw [coreStep_head hrun hc]
  exact executeWord_retires_or_fails hc

/-! ## Moments of an endless run -/

/-- The moment from `s` to `s'` executes the command at the head (R320). -/
def Executes (t : Turn) (s s' : State) : Prop :=
  t = .core ∧ (Retires (headSources s) s s' ∨ ∃ e : ErrorName, Fails e.code s s')

/-- The moment from `s` to `s'` empties the FIFO from outside the core (R64, R360). -/
def Flushes (t : Turn) (s s' : State) : Prop :=
  (t = .powerOn ∨ ∃ v, t = .host (.write 64 (s.cfg.mmioBase + 0x10) v)) ∧ s'.fifo = []

/-- A CTRL write empties the FIFO or leaves the state alone (R64). -/
theorem writeCtrl_fifo_cases (s : State) (v : Word64) : (s.writeCtrl v).fifo = [] ∨ s.writeCtrl v = s := by
  unfold State.writeCtrl
  split
  case isTrue => exact .inl rfl
  case isFalse =>
    split
    case isTrue => exact .inl rfl
    case isFalse => exact .inr rfl

/-- A host write of another register than CTRL keeps a waiting command at the head: CMD appends at the tail (R71). -/
theorem mmioWrite_keeps_waits {m : MmioReg} {c : Word64} (hs : s.Waits c) (hm : m ≠ .ctrl) (v : Word64) :
    (s.mmioWrite m v).Waits c := by
  cases m
  case ctrl => exact absurd rfl hm
  case cmd =>
    obtain ⟨hrun, hc⟩ := hs
    simp only [State.mmioWrite, State.writeCmd]
    split
    · exact ⟨hrun, hc⟩
    · exact ⟨hrun, by rw [List.head?_append, hc, Option.some_or]⟩
  all_goals exact hs

/-- A host access keeps a waiting command at the head, or is a CTRL write that empties the FIFO. -/
theorem hostAccess_keeps_waits {a : HostAccess} {c : Word64} (hs : s.Waits c) (h : hostAccess a s = .next t) :
    t.Waits c ∨ Flushes (.host a) s t := by
  obtain ⟨x, rfl⟩ | ⟨off, v, rfl, h8, rfl⟩ := hostAccess_next_cases h
  · exact .inl hs
  · by_cases hm : mmioMap s.cfg off = .ctrl
    · obtain rfl := eq_of_mmioMap_eq_ctrl hm h8
      rw [hm]
      obtain hempty | hsame := writeCtrl_fifo_cases s v
      · exact .inr ⟨.inr ⟨v, rfl⟩, hempty⟩
      · exact .inl (by rwa [State.mmioWrite, hsame])
    · exact .inl (mmioWrite_keeps_waits hs hm v)

/-- One moment of a run with a command waiting: it is executed, or flushed, or another agent moved and it waits on. -/
theorem moment_waits_cases {turn : Turn} {c : Word64} (hturns : s.turns = []) (hs : s.Waits c)
    (h : moment turn s t) : Executes turn s t ∨ Flushes turn s t ∨ turn ≠ .core ∧ t.Waits c := by
  obtain ⟨_, hstuck, _⟩ | ⟨rfl, hcore⟩ | ⟨a, rfl, hhost⟩ | ⟨rfl, rfl⟩ := moment_cases h hturns
  · exact absurd hs.coreCanStep (Bool.eq_false_iff.1 hstuck)
  · obtain ⟨t', ht', hends⟩ := coreStep_retires_or_fails hs.coreCanStep
    cases hcore.symm.trans ht'
    exact .inl ⟨rfl, hends⟩
  · obtain hwaits | hflush := hostAccess_keeps_waits hs hhost
    · exact .inr (.inr ⟨nofun, hwaits⟩)
    · exact .inr (.inl hflush)
  · exact .inr (.inl ⟨.inl rfl, rfl⟩)

end

section

variable {sched : Schedule} {run : Nat → State}

/-- Until a waiting command is executed or flushed, it waits and the core has had no turn. -/
theorem waits_until_executed (hrun : IsRun sched run) {n : Nat} {c : Word64} (hn : (run n).Waits c)
    (hnever : ∀ m, n ≤ m → (run m).Waits c →
      ¬ (Executes (sched m) (run m) (run (m + 1)) ∨ Flushes (sched m) (run m) (run (m + 1)))) :
    ∀ m, n ≤ m → (run m).Waits c ∧ sched m ≠ .core := by
  have hmoment (m : Nat) (hm : n ≤ m) (hwaits : (run m).Waits c) : sched m ≠ .core ∧ (run (m + 1)).Waits c := by
    obtain hexec | hflush | hnext := moment_waits_cases (hrun.turns m) hwaits (hrun.2 m)
    · exact absurd (.inl hexec) (hnever m hm hwaits)
    · exact absurd (.inr hflush) (hnever m hm hwaits)
    · exact hnext
  have hwaits (m : Nat) (hm : n ≤ m) : (run m).Waits c := by
    induction m, hm using Nat.le_induction with
    | base => exact hn
    | succ m hm ih => exact (hmoment m hm ih).2
  exact fun m hm => ⟨hwaits m hm, (hmoment m hm (hwaits m hm)).1⟩

/-- Weak fairness brings a waiting command its end (R371). -/
theorem waiting_command_ends (hrun : IsRun sched run) (hfair : WeaklyFair sched run) {n : Nat} {c : Word64}
    (hn : (run n).Waits c) :
    ∃ m, n ≤ m ∧ (run m).Waits c ∧
      (Executes (sched m) (run m) (run (m + 1)) ∨ Flushes (sched m) (run m) (run (m + 1))) := by
  by_contra hnot
  have hforever := waits_until_executed hrun hn fun m hm hwaits hends => hnot ⟨m, hm, hwaits, hends⟩
  obtain ⟨m, hm, hcore⟩ := hfair n fun m hm => (hforever m hm).1.coreCanStep
  exact (hforever m hm).2 hcore

end

/-! ## The statements -/

/-- Settles O6: the step takes the turn, finds the head and executes it. -/
theorem stepRunsTheDecodedCommand : Obligations.StepRunsTheDecodedCommand := by
  intro s c i hi
  have hexec (u : State) : executeWord c u = exec i u := by rw [executeWord, hi]
  refine ⟨fun h => (step_runs h).trans (hexec s), fun rest hturns hrun hc => ?_⟩
  have hstep : step s = coreStep { s with turns := rest } := by simp only [step, takeTurn, hturns]
  exact hstep.trans ((coreStep_head (s := { s with turns := rest }) hrun hc).trans (hexec _))

/-- Settles O7: the two ends of the core's step, and the progress that weak fairness gives a waiting command. -/
theorem coreStepRetiresOrFails : Obligations.CoreStepRetiresOrFails := by
  refine ⟨fun s hturns => ?_, fun sched run hrun hfair n hn hqueued => ?_⟩
  · have hiff : s.coreCanStep = true ↔ s.halted = false ∧ 0 < s.fifo.length := by
      rw [State.coreCanStep_iff, List.length_pos_iff]
    rw [step_core hturns, ← hiff]
    refine ⟨⟨fun ⟨t, ht⟩ => coreCanStep_of_coreStep ht, fun h => ?_⟩, fun t ht => ?_⟩
    · obtain ⟨t, ht, _⟩ := coreStep_retires_or_fails h
      exact ⟨t, ht⟩
    · obtain ⟨t', ht', hends⟩ := coreStep_retires_or_fails (coreCanStep_of_coreStep ht)
      cases ht.symm.trans ht'
      exact hends
  · obtain ⟨c, hc⟩ := Option.ne_none_iff_exists'.1 (mt List.head?_eq_none_iff.1 (List.length_pos_iff.1 hqueued))
    obtain ⟨m, hm, ⟨hmrun, hmc⟩, ⟨hcore, hends⟩ | hflush⟩ := waiting_command_ends hrun hfair ⟨hn, hc⟩
    · exact ⟨m, hm, .inl ⟨hcore, hmrun, hmc.trans hc.symm, hends⟩⟩
    · exact ⟨m, hm, .inr hflush⟩

end Sys2Proof.Machine
end

