-- ==== Sys2Proof/Proofs/Reset.lean ====
section
/-! PROOF. The reset values (R76, R360, R361). -/

namespace Sys2Proof.Machine

open Sys2Proof

/-- An element of a memory that lists none holds EMEM_INIT with tag DATA (R360). -/
theorem elem_of_mem_nil {s : State} (h : s.mem = []) (a : Nat) :
    s.elem a = Element.ofWord (Config.ememInit s.epoch a) .data := by
  rw [State.elem, h]
  rfl

theorem powerOn_clearedByReset (cfg : Config) : ClearedByReset (State.powerOn cfg) where
  regs       := State.reg_powerOn cfg
  flags      := ⟨rfl, rfl⟩
  field      := ⟨rfl, rfl, rfl, rfl⟩
  tags       := fun a => by rw [elem_of_mem_nil rfl, Element.tag_ofWord]
  fifo       := rfl
  halted     := rfl
  errCode    := rfl
  errCmd     := rfl
  errSeq     := rfl
  irqEn      := rfl
  irqPend    := rfl
  retired    := rfl
  cmdDropped := rfl
  id         := rfl
  params     := rfl

/-- A power-on in the course of a run leaves what power-on leaves, with contents of its own epoch (R360). -/
theorem powerCycle_clearedByReset (s : State) : ClearedByReset s.powerCycle :=
  { powerOn_clearedByReset s.cfg with
    tags   := fun a => by rw [elem_of_mem_nil rfl, Element.tag_ofWord]
    id     := rfl
    params := rfl }

/-- A soft reset clears what power-on clears, and keeps the element contents (R361). -/
theorem softReset_clearedByReset (s : State) : ClearedByReset s.softReset :=
  { powerOn_clearedByReset s.cfg with
    tags   := fun a => by rw [State.elem_softReset]
    id     := rfl
    params := rfl }

theorem value_of_mem_nil {s : State} (h : s.mem = []) (a : Nat) : (s.elem a).value = Config.ememInit s.epoch a := by
  rw [elem_of_mem_nil h, Element.value_ofWord]

/-- Settles O10, reset by reset. -/
theorem resetValues : Obligations.ResetValues := by
  refine ⟨rfl, fun cfg => ⟨rfl, powerOn_clearedByReset cfg, value_of_mem_nil rfl⟩, fun s rest h => ?powerOn,
    fun s v rest h h0 => ?softReset⟩
  case powerOn =>
    have hstep : step s = .next ({ s with turns := rest } : State).powerCycle := by simp only [step, takeTurn, h]
    exact ⟨_, hstep, rfl, rfl, powerCycle_clearedByReset _, value_of_mem_nil rfl⟩
  case softReset =>
    have hstep : step s = .next (({ s with turns := rest } : State).writeCtrl v) :=
      step_writeOf (m := .ctrl) h rfl rfl (by decide) (by decide)
    rw [writeCtrl_softReset _ h0] at hstep
    exact ⟨_, hstep, rfl, rfl, softReset_clearedByReset _, fun a => by rw [State.elem_softReset]; rfl⟩

end Sys2Proof.Machine
end

