-- ==== Sys2Proof/Proofs/MmioRules.lean ====
section
/-! PROOF. Reads without side effects, ignored writes and refused accesses (R60, R61, R85, R88, R90). -/

namespace Sys2Proof.Machine

open Sys2Proof

/-! ## The address map -/

/-- The gaps of the address map name nothing (R60, R88). -/
theorem mmioMap_unmapped (cfg : Config) {off : Nat}
    (h : (0x58 ≤ off ∧ off < 0x100) ∨ (0x160 ≤ off ∧ off < 0x200) ∨ (0x400 ≤ off ∧ off < 0x800000) ∨
      0x800000 + 32 * 2 ^ cfg.ememLog ≤ off) : mmioMap cfg off = .unmapped := by
  obtain h | h | h | h := h
  · unfold mmioMap
    rw [if_neg (by omega), if_pos h.2]
  · unfold mmioMap
    rw [if_neg (by omega), if_neg (by omega), if_neg (by omega), if_neg (by omega), if_neg (by omega), if_pos h.2]
  · unfold mmioMap
    rw [if_neg (by omega), if_neg (by omega), if_neg (by omega), if_neg (by omega), if_neg (by omega),
      if_neg (by omega), if_neg (by omega), if_pos h.2]
  · exact mmioMap_pastElements cfg h

/-- CTRL, CMD and unmapped offsets show 0 (R64, R71, R88). -/
theorem mmioValue_zero (s : State) {off : Nat}
    (h : off = 0x10 ∨ off = 0x48 ∨ (0x58 ≤ off ∧ off < 0x100) ∨ (0x160 ≤ off ∧ off < 0x200) ∨
      (0x400 ≤ off ∧ off < 0x800000) ∨ 0x800000 + 32 * 2 ^ s.cfg.ememLog ≤ off) :
    s.mmioValue (mmioMap s.cfg off) = 0#64 := by
  obtain rfl | rfl | h := h
  · rfl
  · rfl
  · rw [mmioMap_unmapped s.cfg h]
    rfl

/-- A write of a read-only register, of the field-constant window or of an unmapped offset is ignored (R61, R88). -/
theorem mmioWrite_ignored (s : State) {off : Nat} (v : Word64) (h8 : off % 8 = 0)
    (h : off = 0x00 ∨ off = 0x08 ∨ off = 0x18 ∨ off = 0x20 ∨ off = 0x28 ∨ off = 0x30 ∨
      (0x50 ≤ off ∧ off < 0x200) ∨ (0x400 ≤ off ∧ off < 0x800000) ∨ 0x800000 + 32 * 2 ^ s.cfg.ememLog ≤ off) :
    s.mmioWrite (mmioMap s.cfg off) v = s := by
  obtain rfl | rfl | rfl | rfl | rfl | rfl | ⟨hlo, hhi⟩ | h := h
  · rfl
  · rfl
  · rfl
  · rfl
  · rfl
  · rfl
  · by_cases hretired : off = 0x50
    · subst hretired
      rfl
    by_cases hfield : 0x100 ≤ off ∧ off < 0x160
    · exact mmioWrite_fieldWindow s s.cfg v hfield.1 hfield.2
    · rw [mmioMap_unmapped s.cfg (by omega)]
      rfl
  · rw [mmioMap_unmapped s.cfg (.inr (.inr h))]
    rfl

/-- An access inside the block of another width or alignment is refused (R85). -/
theorem mmioOffset_unsupported (cfg : Config) {width off : Nat} (hlt : off < 0x1000000) (h : width ≠ 64 ∨ off % 8 ≠ 0) :
    mmioOffset cfg width (cfg.mmioBase + off) = .error .unsupportedAccess := by
  have hin : ¬ (cfg.mmioBase + off < cfg.mmioBase ∨ cfg.mmioBase + mmioSize ≤ cfg.mmioBase + off) := by
    simp only [mmioSize]
    omega
  rw [mmioOffset, if_neg hin, Nat.add_sub_cancel_left, if_pos h]

/-! ## The statements -/

/-- Settles O56: a read's only effect is the value it returns. -/
theorem readsHaveNoSideEffects : Obligations.ReadsHaveNoSideEffects := by
  intro s off rest hlt h8 h
  refine ⟨⟨_, step_hostRead h hlt h8⟩, fun hzero => ?_⟩
  rw [step_hostRead h hlt h8, mmioValue_zero s hzero]

/-- Settles O57: the write leaves the state with its turn used up. -/
theorem readOnlyWritesAreIgnored : Obligations.ReadOnlyWritesAreIgnored := by
  intro s off v rest hlt h8 hignored h
  rw [step_hostWrite h hlt h8]
  exact congrArg Host.Outcome.next (mmioWrite_ignored { s with turns := rest } v h8 hignored)

/-- Settles O58: the access has no offset. -/
theorem unsupportedAccessesAreRefused : Obligations.UnsupportedAccessesAreRefused := by
  intro s width off v rest hlt hbad
  have hoff := mmioOffset_unsupported s.cfg hlt hbad
  refine ⟨fun h => ?_, fun h => ?_⟩
  · rw [step_host h]
    simp only [hostAccess, hoff]
  · rw [step_host h]
    simp only [hostAccess, hoff]

end Sys2Proof.Machine
end

