-- ==== Sys2Proof/Proofs/WideIntegerLaws.lean ====
section
/-! PROOF. The laws of integer arithmetic (R183). -/

namespace Sys2Proof.Machine

open Sys2Proof

/-- A result of W bits, read back at width W (R170). -/
theorem truncReg_of_reg_eq {s : State} {w : Width} {r : Reg} {n : Nat} (h : s.reg r = BitVec.ofNat 256 n)
    (hn : n < Width.modulus w) : truncReg s (Width.bits w) r = n := by
  have hword : n < 2 ^ 256 := hn.trans_le (Nat.pow_le_pow_right two_pos (bits_le w))
  rw [truncReg, h, BitVec.toNat_ofNat, Nat.mod_eq_of_lt hword]
  exact Nat.mod_eq_of_lt hn

/-- Adding and subtracting one number modulo m. -/
theorem add_emod_sub_emod {a b m : Nat} (ha : a < m) : (((a + b) % m : Nat) - (b : Int)) % (m : Int) = a := by
  rw [Int.natCast_mod, Int.emod_sub_emod, Nat.cast_add, add_sub_cancel_right]
  exact Int.emod_eq_of_lt (Int.natCast_nonneg a) (Int.ofNat_lt.2 ha)

/-- R183 (1): ADD then SUB of one register gives back the first operand. -/
theorem add_then_sub (rd re rs1 rs2 : Reg) (w : Width) (s : State) (hne : rd ≠ rs2) :
    Answers (exec (.add rd rs1 rs2 w) s) fun t => Answers (exec (.sub re rd rs2 w) t) fun u =>
      (u.reg re).toNat = truncReg s (Width.bits w) rs1 := by
  obtain ⟨t, ht, hadd⟩ := finishAdd_answers rd w (s.operand w rs1 + s.operand w rs2) s
  obtain ⟨u, hu, hsub⟩ := finishSub_answers re (t.operand w rd) t (operand_lt t w rs2) (Nat.zero_le 1)
  refine ⟨t, ht, u, hu, ?_⟩
  have hsum : t.operand w rd = (s.operand w rs1 + s.operand w rs2) % Width.modulus w :=
    truncReg_of_reg_eq hadd.result (Nat.mod_lt _ (modulus_pos w))
  have hsubtrahend : t.operand w rs2 = s.operand w rs2 := by rw [State.operand, hadd.regs rs2 hne.symm, State.operand]
  beta_reduce
  rw [hsub.result, hsum, hsubtrahend, Nat.cast_zero, sub_zero, ← cast_modulus,
    add_emod_sub_emod (operand_lt s w rs1), BitVec.ofInt_natCast, BitVec.toNat_ofNat]
  exact Nat.mod_eq_of_lt ((operand_lt s w rs1).trans_le (Nat.pow_le_pow_right two_pos (bits_le w)))

/-- A shift right and back, bit by bit. -/
theorem testBit_div_mul_two_pow (a n i : Nat) : (a / 2 ^ n * 2 ^ n).testBit i = (decide (n ≤ i) && a.testBit i) := by
  rw [Nat.testBit_mul_two_pow]
  by_cases h : n ≤ i
  · simp [h, Nat.testBit_div_two_pow]
  · simp [h]

/-- R183 (2): SHR then SHL by one amount clears the low bits. -/
theorem shr_then_shl (rd re rs1 : Reg) (shamt : Nat) (w : Width) (s : State) :
    Answers (exec (.shr rd rs1 shamt w) s) fun t => Answers (exec (.shl re rd shamt w) t) fun u =>
      ∀ i : Nat, (u.reg re).getLsbD i =
        (decide (shamt < Width.bits w) && decide (shamt ≤ i) && decide (i < Width.bits w) && (s.reg rs1).getLsbD i) := by
  obtain ⟨t, ht, hshr⟩ := complete_writeResult_answers rd
    (if shamt < Width.bits w then s.operand w rs1 / 2 ^ shamt else 0) s
  obtain ⟨u, hu, hshl⟩ := complete_writeResult_answers re
    (if shamt < Width.bits w then t.operand w rd * 2 ^ shamt % Width.modulus w else 0) t
  refine ⟨t, ht, u, hu, fun i => ?_⟩
  have hresult := hshr.result
  rw [hshl.result, BitVec.getLsbD_ofNat]
  by_cases hshamt : shamt < Width.bits w
  case neg => simp [hshamt]
  rw [if_pos hshamt] at hresult
  have hvalue : t.operand w rd = s.operand w rs1 / 2 ^ shamt :=
    truncReg_of_reg_eq hresult ((Nat.div_le_self ..).trans_lt (operand_lt s w rs1))
  rw [if_pos hshamt, hvalue, Width.modulus, Nat.testBit_mod_two_pow, testBit_div_mul_two_pow, testBit_operand]
  by_cases hi : i < Width.bits w
  · have hword : i < 256 := hi.trans_le (bits_le w)
    simp [hshamt, hi, hword]
  · simp [hi]

/-- R183 (4): MUL commutes. -/
theorem mul_comm_sources (rd rs1 rs2 : Reg) (w : Width) (s : State) :
    exec (.mul rd rs1 rs2 w) s = exec (.mul rd rs2 rs1 w) s := by
  rw [exec_mul, exec_mul, execMul, execMul, Nat.mul_comm]

/-- Settles O25, law by law. -/
theorem wideIntegerLaws : Obligations.WideIntegerLaws := by
  refine ⟨fun rd re rs1 rs2 w W s hW hne => ?_, fun rd re rs1 shamt w W s hW => ?_, mul_comm_sources⟩
  · obtain rfl := bits_of_isWidth hW
    exact add_then_sub rd re rs1 rs2 w s hne
  · obtain rfl := bits_of_isWidth hW
    exact shr_then_shl rd re rs1 shamt w s

end Sys2Proof.Machine
end

