-- ==== Sys2Proof/Proofs/MontgomeryForm.lean ====
section
/-! PROOF. Montgomery form as an element of the ring of integers modulo N (R10, R11, R211). -/

namespace Sys2Proof.Machine

open Sys2Proof

/-! ## Canonicity -/

section

variable {n r2 ninv a b : Nat}

/-- A product of canonical values is small enough for REDC (R11). -/
theorem mul_lt_mul_radix (hn : n < radix) (ha : a < n) (hb : b < n) : a * b < n * radix :=
  Nat.mul_lt_mul'' ha (hb.trans hn)

theorem montMul_lt (hn : n < radix) (ha : a < n) (hb : b < n) : montMul n ninv a b < n :=
  redc_lt (mul_lt_mul_radix hn ha hb)

/-- REDC of a canonical value is canonical. -/
theorem redc_canonical_lt (ha : a < n) : redc n ninv a < n :=
  redc_lt (ha.trans_le (Nat.le_mul_of_pos_right n (by decide)))

theorem fieldAdd_lt (ha : a < n) (hb : b < n) : fieldAdd n a b < n := by
  rw [fieldAdd_eq_mod ha hb]
  exact Nat.mod_lt _ (Nat.zero_lt_of_lt ha)

/-- Every turn of R211's loop keeps the accumulator canonical. -/
theorem montPowLoop_lt (hn : n < radix) (ha : a < n) (e i : Nat) {acc : Nat} (hacc : acc < n) :
    montPowLoop n ninv a e i acc < n := by
  induction i generalizing acc with
  | zero => exact hacc
  | succ i ih =>
    refine ih ?_
    have hsq : montMul n ninv acc acc < n := montMul_lt hn hacc hacc
    rw [montPowTurn]
    cases e.testBit i with
    | false => exact hsq
    | true => exact montMul_lt hn hsq ha

theorem montPow_lt (hn : n < radix) (hr2 : r2 < n) (ha : a < n) (e : Nat) : montPow n r2 ninv a e < n :=
  montPowLoop_lt hn ha e 256 (redc_canonical_lt hr2)

end

/-! ## The loop of R211 as a fold -/

theorem montPowLoop_eq_foldl (n ninv a e k acc : Nat) :
    montPowLoop n ninv a e k acc =
      (List.range k).foldl (fun acc i => montPowTurn n ninv a (e.testBit (k - 1 - i)) acc) acc := by
  induction k generalizing acc with
  | zero => rfl
  | succ k ih =>
    rw [montPowLoop, ih, List.range_succ_eq_map, List.foldl_cons, List.foldl_map]
    simp only [Nat.add_sub_cancel, Nat.sub_zero, Nat.sub_sub, Nat.add_comm]

/-- With exponent 0 the loop never multiplies by the base. -/
theorem montPowLoop_zero_base (n ninv a b i acc : Nat) :
    montPowLoop n ninv a 0 i acc = montPowLoop n ninv b 0 i acc := by
  induction i generalizing acc with
  | zero => rfl
  | succ i ih =>
    simp only [montPowLoop, montPowTurn, Nat.zero_testBit, Bool.false_eq_true, if_false]
    exact ih _

/-! ## Montgomery form -/

/-- `v` is the Montgomery form of `x` modulo `n` (R10). -/
def IsMont (n v : Nat) (x : ZMod n) : Prop := v < n ∧ (v : ZMod n) = x * (radix : Nat)

section

variable {n v : Nat}

/-- A canonical value is the remainder of whatever it is equal to modulo N. -/
theorem eq_emod_of_cast_eq {x : Int} (hlt : v < n) (h : (v : ZMod n) = (x : ZMod n)) : (v : Int) = x % (n : Int) := by
  rw [← Int.cast_natCast, ZMod.intCast_eq_intCast_iff'] at h
  rwa [Int.emod_eq_of_lt (Int.natCast_nonneg v) (Int.ofNat_lt.2 hlt)] at h

theorem eq_mod_of_cast_eq {x : Nat} (hlt : v < n) (h : (v : ZMod n) = (x : ZMod n)) : v = x % n := by
  rwa [ZMod.natCast_eq_natCast_iff', Nat.mod_eq_of_lt hlt] at h

/-- mont(x) = x·R mod N, as the model and the statements write it. -/
theorem isMont_natCast_iff {x : Nat} (hn : 0 < n) : IsMont n v x ↔ v = x * radix % n := by
  rw [IsMont, ← Nat.cast_mul]
  constructor
  · exact fun ⟨hlt, heq⟩ => eq_mod_of_cast_eq hlt heq
  · rintro rfl
    exact ⟨Nat.mod_lt _ hn, ZMod.natCast_mod _ _⟩

/-- The Montgomery form of an integer is its multiple of R modulo N. -/
theorem IsMont.eq_emod {x : Int} (h : IsMont n v x) : (v : Int) = x * (2 : Int) ^ 256 % (n : Int) := by
  obtain ⟨hlt, heq⟩ := h
  refine eq_emod_of_cast_eq hlt ?_
  rw [heq, Int.cast_mul, Int.cast_pow, Int.cast_ofNat, Nat.cast_pow, Nat.cast_ofNat]

/-- A canonical value fits a register or an element. -/
theorem IsMont.toNat_ofNat {x : ZMod n} (h : IsMont n v x) (hn : n < radix) : IsMont n (BitVec.ofNat 256 v).toNat x := by
  rwa [BitVec.toNat_ofNat, Nat.mod_eq_of_lt (h.1.trans hn)]

/-- A valid R2 is the Montgomery form of R (R12). -/
theorem isMont_r2 {r2 : Nat} (hr2 : r2 = 2 ^ 512 % n) (hpos : 0 < n) : IsMont n r2 (radix : Nat) := by
  rw [isMont_natCast_iff hpos, hr2, ← pow_add]

end

section

variable {n ninv : Nat} (hn : n < radix) (hinv : radix ∣ n * ninv + 1)

include hinv in
/-- N·NINV ≡ −1 makes R a unit modulo N. -/
theorem isUnit_radix : IsUnit ((radix : Nat) : ZMod n) := by
  rw [ZMod.isUnit_iff_coprime]
  refine Nat.eq_one_of_dvd_one ((Nat.dvd_add_right ?_).1 ((Nat.gcd_dvd_left radix n).trans hinv))
  exact (Nat.gcd_dvd_right radix n).mul_right ninv

include hinv in
/-- Every canonical value is a Montgomery form. -/
theorem exists_isMont {v : Nat} (hv : v < n) : ∃ x, IsMont n v x := by
  obtain ⟨x, hx⟩ := (isUnit_radix hinv).dvd (a := (v : ZMod n))
  exact ⟨x, hv, hx.trans (mul_comm ..)⟩

include hn hinv

/-- REDC divides by R modulo N (R11). -/
theorem cast_redc_mul_radix {t : Nat} (ht : t < radix * radix) :
    (redc n ninv t : ZMod n) * (radix : Nat) = (t : Nat) := by
  rw [← Nat.cast_mul]
  exact (ZMod.natCast_eq_natCast_iff _ _ n).2 (redc_mul_radix_modEq hn hinv ht)

/-- REDC takes a value out of Montgomery form (R220). -/
theorem IsMont.cast_redc {v : Nat} {x : ZMod n} (h : IsMont n v x) : (redc n ninv v : ZMod n) = x := by
  obtain ⟨hlt, heq⟩ := h
  have hsmall : v < radix * radix := (hlt.trans hn).trans_le (Nat.le_mul_of_pos_right _ (by decide))
  refine (isUnit_radix hinv).mul_right_cancel ?_
  rw [cast_redc_mul_radix hn hinv hsmall, heq]

variable {a b : Nat} {x y : ZMod n}

/-- MontMul is the product (R11). -/
theorem IsMont.montMul (ha : IsMont n a x) (hb : IsMont n b y) : IsMont n (montMul n ninv a b) (x * y) := by
  obtain ⟨halt, haeq⟩ := ha
  obtain ⟨hblt, hbeq⟩ := hb
  refine ⟨montMul_lt hn halt hblt, (isUnit_radix hinv).mul_right_cancel ?_⟩
  have hsmall : a * b < radix * radix := Nat.mul_lt_mul'' (halt.trans hn) (hblt.trans hn)
  rw [Machine.montMul, cast_redc_mul_radix hn hinv hsmall, Nat.cast_mul, haeq, hbeq]
  ring

/-- Taking `e / 2^i` of the exponent's bits, the accumulator is that power; one turn takes one bit more. -/
theorem IsMont.montPowLoop {e i acc : Nat} (ha : IsMont n a x) (hacc : IsMont n acc (x ^ (e / 2 ^ i))) :
    IsMont n (montPowLoop n ninv a e i acc) (x ^ e) := by
  induction i generalizing acc with
  | zero =>
    rw [pow_zero, Nat.div_one] at hacc
    exact hacc
  | succ i ih =>
    refine ih ?_
    have hsq := IsMont.montMul hn hinv hacc hacc
    have hbits : e / 2 ^ i = e / 2 ^ (i + 1) + e / 2 ^ (i + 1) + (e.testBit i).toNat := by
      rw [Nat.toNat_testBit, Nat.pow_succ, ← Nat.div_div_eq_div_mul]
      omega
    rw [hbits, pow_add, pow_add, montPowTurn]
    cases e.testBit i with
    | false => simpa using hsq
    | true => simpa using IsMont.montMul hn hinv hsq ha

variable {r2 : Nat} (hr2 : r2 = 2 ^ 512 % n) (hpos : 0 < n)

include hr2 hpos

/-- ONE is the Montgomery form of 1 (R12). -/
theorem isMont_montOne : IsMont n (montOne n r2 ninv) 1 := by
  have hR2 := isMont_r2 hr2 hpos
  refine ⟨redc_canonical_lt hR2.1, ?_⟩
  rw [montOne, IsMont.cast_redc hn hinv hR2, one_mul]

/-- MontPow is the power (R211). -/
theorem IsMont.montPow {e : Nat} (ha : IsMont n a x) (he : e < 2 ^ 256) :
    IsMont n (montPow n r2 ninv a e) (x ^ e) := by
  refine IsMont.montPowLoop hn hinv ha ?_
  rw [Nat.div_eq_of_lt he, pow_zero]
  exact isMont_montOne hn hinv hr2 hpos

/-- MontPow with exponent 0 is ONE, whatever the base (R211). -/
theorem isMont_montPow_zero (a : Nat) : IsMont n (Machine.montPow n r2 ninv a 0) 1 := by
  have hone := isMont_montOne hn hinv hr2 hpos
  have hpow := IsMont.montPow hn hinv hr2 hpos (e := 0) hone (by decide)
  rwa [pow_zero, Machine.montPow, montPowLoop_zero_base n ninv _ a] at hpow

end

/-! ## Field sums -/

section

variable {n a b : Nat} {x y : ZMod n}

theorem IsMont.fieldAdd (ha : IsMont n a x) (hb : IsMont n b y) : IsMont n (fieldAdd n a b) (x + y) := by
  obtain ⟨halt, haeq⟩ := ha
  obtain ⟨hblt, hbeq⟩ := hb
  refine ⟨fieldAdd_lt halt hblt, ?_⟩
  rw [fieldAdd_eq_mod halt hblt, ZMod.natCast_mod, Nat.cast_add, haeq, hbeq, add_mul]

/-- Field subtraction is subtraction modulo N: the borrow case adds N, which is 0. -/
theorem cast_fieldSub (hb : b < n) : (fieldSub n a b : ZMod n) = (a : ZMod n) - b := by
  have h := congrArg (Int.cast : Int → ZMod n) (fieldSub_eq_int (a := a) hb)
  push_cast at h
  rw [h]
  split <;> simp

theorem IsMont.fieldSub (ha : IsMont n a x) (hb : IsMont n b y) : IsMont n (fieldSub n a b) (x - y) := by
  obtain ⟨halt, haeq⟩ := ha
  obtain ⟨hblt, hbeq⟩ := hb
  exact ⟨fieldSub_lt halt hblt, by rw [cast_fieldSub hblt, haeq, hbeq, sub_mul]⟩

end

/-! ## The statement -/

/-- Settles O28: the loop as a fold, and the power by the bits of the exponent. -/
theorem montPowIsThePower : Obligations.MontPowIsThePower := by
  intro n r2 ninv a e
  refine ⟨montPowLoop_eq_foldl n ninv a e 256 _, fun h3 hn hinv hr2 => ⟨?_, fun x ha he => ?_⟩⟩
  · have hone := isMont_montPow_zero hn (Nat.dvd_of_mod_eq_zero hinv) hr2 (by omega) a
    rw [← Nat.cast_one, isMont_natCast_iff (by omega), one_mul] at hone
    exact hone
  · have hpow := IsMont.montPow hn (Nat.dvd_of_mod_eq_zero hinv) hr2 (by omega)
      ((isMont_natCast_iff (by omega)).2 ha) he
    rwa [← Nat.cast_pow, isMont_natCast_iff (by omega)] at hpow

end Sys2Proof.Machine
end

