-- ==== Sys2Proof/Proofs/FieldPowers.lean ====
section
/-! PROOF. The inverse and the power (R217, R218), and that every field result is canonical (R221). -/

namespace Sys2Proof.Machine

open Sys2Proof

section

variable {s t : State}

/-! ## The four ends of FINV -/

theorem execFinv_notReady (rd rs1 : Reg) (hr : s.fieldReady = false) :
    execFinv rd rs1 s = fail .fieldNotReady s := if_pos (Bool.eq_false_iff.1 hr)

theorem execFinv_outOfRange (rd : Reg) {rs1 : Reg} (hr : s.fieldReady = true)
    (hge : (s.reg rs1).toNat ≥ s.fieldN.toNat) : execFinv rd rs1 s = fail .outOfRange s :=
  (if_neg (not_not_intro hr)).trans (if_pos hge.not_gt)

theorem execFinv_noInverse (rd : Reg) {rs1 : Reg} (hr : s.fieldReady = true)
    (hlt : (s.reg rs1).toNat < s.fieldN.toNat) (hzero : (s.reg rs1).toNat = 0) :
    execFinv rd rs1 s = fail .noInverse s :=
  (if_neg (not_not_intro hr)).trans ((if_neg (not_not_intro hlt)).trans (if_pos hzero))

theorem execFinv_inverts (rd : Reg) {rs1 : Reg} (hr : s.fieldReady = true)
    (hlt : (s.reg rs1).toNat < s.fieldN.toNat) (hne : (s.reg rs1).toNat ≠ 0) :
    execFinv rd rs1 s = complete (s.writeResult rd (s.montPow (s.reg rs1).toNat (s.modN - 2))) :=
  (if_neg (not_not_intro hr)).trans ((if_neg (not_not_intro hlt)).trans (if_neg hne))

end

/-- Settles O34: the four ends of FINV's rule. -/
theorem finvIsTheFermatPower : Obligations.FinvIsTheFermatPower := by
  intro rd rs1 s
  refine ⟨Laws.RoundTrip.finv rd rs1 rfl, fun _ => decode_formatF_eq_mustBeZero rfl, fun hr => ?notReady,
    fun hr hge => ?outOfRange, fun hr hlt hzero => ?noInverse, fun hr hlt hne => ?inverts⟩
  case notReady =>
    rw [exec_finv, execFinv_notReady rd rs1 hr]
    exact fail_answers .fieldNotReady s
  case outOfRange =>
    rw [exec_finv, execFinv_outOfRange rd hr hge]
    exact fail_answers .outOfRange s
  case noInverse =>
    rw [exec_finv, execFinv_noInverse rd hr hlt hzero]
    exact fail_answers .noInverse s
  case inverts =>
    rw [exec_finv, execFinv_inverts rd hr hlt hne]
    exact complete_writeResult_answers ..

/-- Settles O35: FPOW is the rule of one operand with MontPow. -/
theorem fpowIsThePower : Obligations.FpowIsThePower := by
  intro rd rs1 rs2 s
  exact ⟨Laws.RoundTrip.fpow rd rs1 rs2 rfl, fieldUnary_answers rd rs1 (fun a => s.montPow a (s.reg rs2).toNat) s⟩

/-! ## Canonical results -/

section

variable {s t : State}

/-- A value below N, written to a register, reads back as itself. -/
theorem reg_writeResult_lt (rd : Reg) {v : Nat} (hv : v < s.modN) :
    ((s.writeResult rd v).retire.reg rd).toNat < s.fieldN.toNat := by
  rw [State.retire_reg, State.reg_writeResult_same, BitVec.toNat_ofNat]
  exact (Nat.mod_le ..).trans_lt hv

/-- A failed command leaves the core halted (R322). -/
theorem not_fail_of_running {e : ErrorName} (h : fail e s = .next t) : t.halted ≠ false := by
  cases h
  simp

/-- A command of one operand with a canonical value for canonical operands has a canonical result. -/
theorem fieldUnary_canonical {rd rs1 : Reg} {f : Nat → Nat} (hf : ∀ a < s.modN, f a < s.modN)
    (h : fieldUnary rd rs1 f s = .next t) (ht : t.halted = false) : (t.reg rd).toNat < t.fieldN.toNat := by
  obtain ⟨_, hend⟩ | ⟨_, _, hend⟩ | ⟨_, hlt, hend⟩ := fieldUnary_ends rd rs1 f s <;> rw [hend] at h
  · exact absurd ht (not_fail_of_running h)
  · exact absurd ht (not_fail_of_running h)
  · cases h
    exact reg_writeResult_lt rd (hf _ hlt)

/-- The same for a command of two operands. -/
theorem fieldBinary_canonical {rd rs1 rs2 : Reg} {f : Nat → Nat → Nat}
    (hf : ∀ a < s.modN, ∀ b < s.modN, f a b < s.modN)
    (h : fieldBinary rd rs1 rs2 f s = .next t) (ht : t.halted = false) : (t.reg rd).toNat < t.fieldN.toNat := by
  obtain ⟨_, hend⟩ | ⟨_, _, hend⟩ | ⟨_, hlt1, hlt2, hend⟩ := fieldBinary_ends rd rs1 rs2 f s <;> rw [hend] at h
  · exact absurd ht (not_fail_of_running h)
  · exact absurd ht (not_fail_of_running h)
  · cases h
    exact reg_writeResult_lt rd (hf _ hlt1 _ hlt2)

/-- FINV's value is a MontPow of a canonical operand. -/
theorem execFinv_canonical {rd rs1 : Reg} (hf : ∀ a < s.modN, s.montPow a (s.modN - 2) < s.modN)
    (h : execFinv rd rs1 s = .next t) (ht : t.halted = false) : (t.reg rd).toNat < t.fieldN.toNat := by
  cases hr : s.fieldReady
  case false =>
    rw [execFinv_notReady rd rs1 hr] at h
    exact absurd ht (not_fail_of_running h)
  by_cases hlt : (s.reg rs1).toNat < s.fieldN.toNat
  case neg =>
    rw [execFinv_outOfRange rd hr (Nat.not_lt.1 hlt)] at h
    exact absurd ht (not_fail_of_running h)
  by_cases hzero : (s.reg rs1).toNat = 0
  case pos =>
    rw [execFinv_noInverse rd hr hlt hzero] at h
    exact absurd ht (not_fail_of_running h)
  rw [execFinv_inverts rd hr hlt hzero] at h
  cases h
  exact reg_writeResult_lt rd (hf _ hlt)

end

/-- Settles O38, command by command: each value is canonical for canonical operands. -/
theorem fieldResultsAreCanonical : Obligations.FieldResultsAreCanonical := by
  intro i rd s t hi hfield _ h ht
  have hN : s.modN < radix := s.fieldN.isLt
  have hR2 : s.fieldR2.toNat < s.modN := hfield.canonical
  cases i <;> cases hi
  case fadd => exact fieldBinary_canonical (fun _ ha _ hb => fieldAdd_lt ha hb) h ht
  case fsub => exact fieldBinary_canonical (fun _ ha _ hb => fieldSub_lt ha hb) h ht
  case fmul => exact fieldBinary_canonical (fun _ ha _ hb => montMul_lt hN ha hb) h ht
  case fsqr => exact fieldUnary_canonical (fun _ ha => montMul_lt hN ha ha) h ht
  case finv => exact execFinv_canonical (fun _ ha => montPow_lt hN hR2 ha _) h ht
  case fpow rs1 rs2 => exact fieldUnary_canonical (fun _ ha => montPow_lt hN hR2 ha (s.reg rs2).toNat) h ht
  case ftom => exact fieldUnary_canonical (fun _ ha => montMul_lt hN ha hR2) h ht
  case ffromm => exact fieldUnary_canonical (fun _ ha => redc_canonical_lt ha) h ht

end Sys2Proof.Machine
end

