-- ==== Sys2Proof/Proofs/FieldLaws.lean ====
section
/-! PROOF. The field commands as operations on Montgomery forms: the homomorphism and the inverse (R221). -/

namespace Sys2Proof.Machine

open Sys2Proof

section

variable {s t : State}

/-! ## Valid constants, as facts about numbers -/

theorem State.FieldConfigured.radix_dvd (h : s.FieldConfigured) :
    radix ∣ s.fieldN.toNat * s.fieldNinv.toNat + 1 := Nat.dvd_of_mod_eq_zero h.inverse

theorem State.FieldConfigured.pos (h : s.FieldConfigured) : 0 < s.fieldN.toNat :=
  two_pos.trans h.atLeast3

theorem State.FieldValid.of_sameField (h : s.FieldValid) (hsame : SameField s t) : t.FieldValid := by
  refine ⟨h.configured.of_sameField hsame, ?_⟩
  obtain ⟨hn, hr2, _, _⟩ := hsame
  rw [hn, hr2, h.square]

/-! ## Commands on Montgomery forms -/

/-- The command left the Montgomery form of `x` in `rd`, and every other register and the field constants as they were. -/
structure LeavesMont (n : Nat) (rd : Reg) (x : ZMod n) (s t : State) : Prop where
  result : IsMont n (t.reg rd).toNat x
  regs   : SameRegsBut rd s t
  field  : SameField s t

theorem answers_leavesMont {r : StepResult} {rd : Reg} {v : Nat} {x : ZMod s.fieldN.toNat}
    (h : Answers r (WritesOnlyReg rd (BitVec.ofNat 256 v) s)) (hv : IsMont s.fieldN.toNat v x) :
    Answers r (LeavesMont s.fieldN.toNat rd x s) := by
  obtain ⟨t, ht, hwrites⟩ := h
  refine ⟨t, ht, ?_, hwrites.regs, hwrites.field⟩
  rw [hwrites.result]
  exact hv.toNat_ofNat s.fieldN.isLt

variable {n : Nat} (hvalid : s.FieldValid) (hn : s.fieldN.toNat = n)

include hvalid hn

/-- FTOM enters Montgomery form (R219). -/
theorem ftom_leavesMont (rd : Reg) {rs1 : Reg} (hlt : (s.reg rs1).toNat < n) :
    Answers (exec (.ftom rd rs1) s) (LeavesMont n rd (s.reg rs1).toNat s) := by
  subst hn
  have hdvd := hvalid.configured.radix_dvd
  obtain ⟨_, _, _, _, hvalue⟩ := ftomEntersMontgomeryForm rd rs1 s
  obtain ⟨x, hx⟩ := exists_isMont hdvd hlt
  rw [hx.2]
  exact answers_leavesMont (hvalue hvalid.configured.ready hlt) <|
    hx.montMul s.fieldN.isLt hdvd (isMont_r2 hvalid.square hvalid.configured.pos)

section

variable {x y : ZMod n} {rs1 rs2 : Reg} (h1 : IsMont n (s.reg rs1).toNat x) (h2 : IsMont n (s.reg rs2).toNat y)

include h1

/-- FFROMM leaves Montgomery form (R220). -/
theorem ffromm_leaves (rd : Reg) :
    Answers (exec (.ffromm rd rs1) s) fun t => (t.reg rd).toNat < n ∧ ((t.reg rd).toNat : ZMod n) = x := by
  subst hn
  obtain ⟨_, _, _, _, hvalue⟩ := ffrommLeavesMontgomeryForm rd rs1 s
  obtain ⟨t, ht, hwrites⟩ := hvalue hvalid.configured.ready h1.1
  have hlt := redc_canonical_lt (ninv := s.fieldNinv.toNat) h1.1
  refine ⟨t, ht, ?_⟩
  beta_reduce
  rw [hwrites.result, BitVec.toNat_ofNat, Nat.mod_eq_of_lt (hlt.trans s.fieldN.isLt)]
  exact ⟨hlt, h1.cast_redc s.fieldN.isLt hvalid.configured.radix_dvd⟩

include h2

/-- FMUL is the product (R215). -/
theorem fmul_leavesMont (rd : Reg) : Answers (exec (.fmul rd rs1 rs2) s) (LeavesMont n rd (x * y) s) := by
  subst hn
  obtain ⟨_, _, _, hvalue⟩ := fmulIsMontgomeryProduct rd rs1 rs2 s
  exact answers_leavesMont (hvalue hvalid.configured.ready h1.1 h2.1) <|
    h1.montMul s.fieldN.isLt hvalid.configured.radix_dvd h2

/-- FADD is the sum (R213). -/
theorem fadd_leavesMont (rd : Reg) : Answers (exec (.fadd rd rs1 rs2) s) (LeavesMont n rd (x + y) s) := by
  subst hn
  obtain ⟨_, _, hvalue⟩ := fieldBinary_answers rd rs1 rs2 (fieldAdd s.modN) s
  exact answers_leavesMont (hvalue hvalid.configured.ready h1.1 h2.1) (h1.fieldAdd h2)

/-- FSUB is the difference (R214). -/
theorem fsub_leavesMont (rd : Reg) : Answers (exec (.fsub rd rs1 rs2) s) (LeavesMont n rd (x - y) s) := by
  subst hn
  obtain ⟨_, _, hvalue⟩ := fieldBinary_answers rd rs1 rs2 (fieldSub s.modN) s
  exact answers_leavesMont (hvalue hvalid.configured.ready h1.1 h2.1) (h1.fieldSub h2)

end

/-- FINV is the power N − 2 (R217). -/
theorem finv_leavesMont (rd : Reg) {rs1 : Reg} {x : ZMod n} (h1 : IsMont n (s.reg rs1).toNat x)
    (hne : (s.reg rs1).toNat ≠ 0) : Answers (exec (.finv rd rs1) s) (LeavesMont n rd (x ^ (n - 2)) s) := by
  subst hn
  obtain ⟨_, _, _, _, _, hvalue⟩ := finvIsTheFermatPower rd rs1 s
  exact answers_leavesMont (hvalue hvalid.configured.ready h1.1 hne) <|
    h1.montPow s.fieldN.isLt hvalid.configured.radix_dvd hvalid.square hvalid.configured.pos
      ((Nat.sub_le ..).trans_lt s.fieldN.isLt)

end

/-- An operation in Montgomery form, then FFROMM: the plain result. -/
theorem operation_then_ffromm {s : State} {n : Nat} {r : StepResult} {rp : Reg} {x : ZMod n} (hvalid : s.FieldValid)
    (hn : s.fieldN.toNat = n) (h : Answers r (LeavesMont n rp x s)) (rq : Reg) :
    Answers r fun t => Answers (exec (.ffromm rq rp) t) fun u =>
      (u.reg rq).toNat < n ∧ ((u.reg rq).toNat : ZMod n) = x := by
  obtain ⟨t, ht, hresult, _, hfield⟩ := h
  exact ⟨t, ht, ffromm_leaves (hvalid.of_sameField hfield) (hfield.1 ▸ hn) hresult rq⟩

/-- What is said of an answer may be weakened. -/
theorem Answers.mono {r : StepResult} {P Q : State → Prop} (h : Answers r P) (hPQ : ∀ t, P t → Q t) : Answers r Q := by
  obtain ⟨t, ht, hP⟩ := h
  exact ⟨t, ht, hPQ t hP⟩

/-! ## The statements -/

/-- Settles O39: the three operations act on the elements of the ring that the registers hold the forms of. -/
theorem montgomeryHomomorphism : Obligations.MontgomeryHomomorphism := by
  intro ra rb rp rq rx ry s hvalid hba hya hx hy
  obtain ⟨s1, hs1, hform1, hregs1, hfield1⟩ := ftom_leavesMont hvalid rfl ra hx
  have hN1 : s1.fieldN.toNat = s.fieldN.toNat := congrArg BitVec.toNat hfield1.1
  have hvalid1 := hvalid.of_sameField hfield1
  rw [← hregs1 ry hya] at hy ⊢
  obtain ⟨s2, hs2, hform2, hregs2, hfield2⟩ := ftom_leavesMont hvalid1 hN1 rb hy
  have hN2 : s2.fieldN.toNat = s.fieldN.toNat := (congrArg BitVec.toNat hfield2.1).trans hN1
  have hvalid2 := hvalid1.of_sameField hfield2
  rw [← hregs2 ra hba.symm] at hform1
  have hplain {r : StepResult} {x : ZMod s.fieldN.toNat} (h : Answers r (LeavesMont s.fieldN.toNat rp x s2)) :=
    operation_then_ffromm hvalid2 hN2 h rq
  refine ⟨s1, hs1, s2, hs2, ?product, ?sum, ?difference⟩
  case product =>
    refine (hplain (fmul_leavesMont hvalid2 hN2 hform1 hform2 rp)).mono fun _ h => h.mono fun _ ⟨hlt, heq⟩ => ?_
    exact eq_mod_of_cast_eq hlt (heq.trans (Nat.cast_mul ..).symm)
  case sum =>
    refine (hplain (fadd_leavesMont hvalid2 hN2 hform1 hform2 rp)).mono fun _ h => h.mono fun _ ⟨hlt, heq⟩ => ?_
    exact eq_mod_of_cast_eq hlt (heq.trans (Nat.cast_add ..).symm)
  case difference =>
    refine (hplain (fsub_leavesMont hvalid2 hN2 hform1 hform2 rp)).mono fun _ h => h.mono fun _ ⟨hlt, heq⟩ => ?_
    refine eq_emod_of_cast_eq hlt (heq.trans ?_)
    rw [Int.cast_sub, Int.cast_natCast, Int.cast_natCast]

/-- Settles O40: Fermat's little theorem for the element whose form the operand is. -/
theorem inverseTimesElementIsOne : Obligations.InverseTimesElementIsOne := by
  intro rd rp rs1 s hvalid hprime hne hlt hnonzero
  have hpos := hvalid.configured.pos
  obtain ⟨x, hx⟩ := exists_isMont hvalid.configured.radix_dvd hlt
  obtain ⟨t, ht, hinverse, hregs, hfield⟩ := finv_leavesMont hvalid rfl rd hx hnonzero
  have hx' : IsMont s.fieldN.toNat (t.reg rs1).toNat x := by rwa [hregs rs1 hne.symm]
  have hNt : t.fieldN.toNat = s.fieldN.toNat := congrArg BitVec.toNat hfield.1
  obtain ⟨u, hu, hproduct, _, _⟩ := fmul_leavesMont (hvalid.of_sameField hfield) hNt hinverse hx' rp
  refine ⟨t, ht, u, hu, ?_⟩
  have hxne : x ≠ 0 := by
    rintro rfl
    have hzero := eq_mod_of_cast_eq (x := 0) hx.1 (by rw [hx.2, zero_mul, Nat.cast_zero])
    exact hnonzero hzero
  have : Fact (Nat.Prime s.fieldN.toNat) := ⟨hprime⟩
  have hfermat : x ^ (s.fieldN.toNat - 2) * x = 1 := by
    rw [← pow_succ, show s.fieldN.toNat - 2 + 1 = s.fieldN.toNat - 1 by have := hprime.two_le; omega]
    exact ZMod.pow_card_sub_one_eq_one hxne
  rw [hfermat, ← Nat.cast_one, isMont_natCast_iff hpos, one_mul] at hproduct
  exact hproduct

end Sys2Proof.Machine
end

