-- ==== Sys2Proof/Proofs/TwiddleGeneration.lean ====
section
/-! PROOF. The table that TWGEN writes (R260). -/

namespace Sys2Proof.Machine

open Sys2Proof

section

variable {ord : TwOrder} {rs1 : Reg} {ks dst : Nat} {s : State}

/-! ## The ends of the rule, in the order of its checks -/

theorem execTwgen_notReady (hr : s.fieldReady = false) : execTwgen ord rs1 ks dst s = fail .fieldNotReady s :=
  if_pos (Bool.eq_false_iff.1 hr)

theorem execTwgen_invalidLength (hr : s.fieldReady = true) (hks : ks = 0) :
    execTwgen ord rs1 ks dst s = fail .invalidLength s :=
  (if_neg (not_not_intro hr)).trans (if_pos hks)

theorem execTwgen_badAddress (hr : s.fieldReady = true) (hks : ks ≠ 0)
    (hpast : dst + 2 ^ (ks - 1) > 2 ^ s.cfg.ememLog) : execTwgen ord rs1 ks dst s = fail .badAddress s :=
  (if_neg (not_not_intro hr)).trans ((if_neg hks).trans (if_pos hpast.not_ge))

theorem execTwgen_outOfRange (hr : s.fieldReady = true) (hks : ks ≠ 0)
    (hfit : dst + 2 ^ (ks - 1) ≤ 2 ^ s.cfg.ememLog) (hge : (s.reg rs1).toNat ≥ s.fieldN.toNat) :
    execTwgen ord rs1 ks dst s = fail .outOfRange s :=
  (if_neg (not_not_intro hr)).trans ((if_neg hks).trans ((if_neg (not_not_intro hfit)).trans (if_pos hge.not_gt)))

theorem execTwgen_writes (hr : s.fieldReady = true) (hks : ks ≠ 0)
    (hfit : dst + 2 ^ (ks - 1) ≤ 2 ^ s.cfg.ememLog) (hlt : (s.reg rs1).toNat < s.fieldN.toNat) :
    execTwgen ord rs1 ks dst s = complete (s.memWriteAll (twiddleTable s ord (s.reg rs1).toNat ks dst)) :=
  (if_neg (not_not_intro hr)).trans ((if_neg hks).trans
    ((if_neg (not_not_intro hfit)).trans (if_neg (not_not_intro hlt))))

end

/-! ## The table -/

section

variable (s : State) (ord : TwOrder) (root ks dst : Nat)

/-- No two entries of a table are one element. -/
theorem twiddleTable_pairwise_ne : (twiddleTable s ord root ks dst).Pairwise fun x y => x.1 ≠ y.1 :=
  List.pairwise_map.2 (List.nodup_range.imp fun hne heq => hne (Nat.add_left_cancel heq))

/-- Entry i of the table (R260). -/
theorem elem_memWriteAll_twiddleTable {i : Nat} (hi : i < 2 ^ (ks - 1)) :
    (s.memWriteAll (twiddleTable s ord root ks dst)).elem (dst + i) =
      Element.ofWord (BitVec.ofNat 256 (s.montPow root (twExponent ord ks i))) (.tw ord ks) :=
  State.elem_memWriteAll_of_mem s _ _ _ (twiddleTable_pairwise_ne s ord root ks dst)
    (List.mem_map.2 ⟨i, List.mem_range.2 hi, rfl⟩)

/-- Nothing outside the table is written (R260). -/
theorem sameElemsOutside_twiddleTable :
    SameElemsOutside dst (2 ^ (ks - 1)) s (s.memWriteAll (twiddleTable s ord root ks dst)) := by
  intro a hout
  refine State.elem_memWriteAll_of_forall_ne s _ a (List.forall_mem_map.2 fun i hi heq => hout ?_)
  have hlt := List.mem_range.1 hi
  omega

theorem twExponent_eq (i : Nat) : twExponent ord ks i = if ord = .nat then i else bitrev (ks - 1) i := by
  cases ord <;> rfl

end

/-- Settles O45: the ends of TWGEN's rule, of which the last only writes the table. -/
theorem twgenWritesTheTable : Obligations.TwgenWritesTheTable := by
  intro ord rs1 ks dst s
  refine ⟨fun hks hdst => Laws.RoundTrip.twgen ord rs1 ks dst ?wellFormed, fun hr => ?notReady,
    fun hr hks => ?invalidLength, fun hr hks hpast => ?badAddress, fun hr hks hfit hge => ?outOfRange,
    fun hr hks hfit hlt => ?writes⟩
  case wellFormed => exact Bool.and_eq_true_iff.2 ⟨decide_eq_true hks, decide_eq_true hdst⟩
  case notReady =>
    rw [exec_twgen, execTwgen_notReady hr]
    exact fail_answers .fieldNotReady s
  case invalidLength =>
    rw [exec_twgen, execTwgen_invalidLength hr hks]
    exact fail_answers .invalidLength s
  case badAddress =>
    rw [exec_twgen, execTwgen_badAddress hr hks hpast]
    exact fail_answers .badAddress s
  case outOfRange =>
    rw [exec_twgen, execTwgen_outOfRange hr hks hfit hge]
    exact fail_answers .outOfRange s
  case writes =>
    rw [exec_twgen, execTwgen_writes hr hks hfit hlt]
    refine ⟨_, rfl, fun i hi => ?_, sameElemsOutside_twiddleTable s ord _ ks dst, writesOnlyElems_memWriteAll s _⟩
    rw [State.retire_elem, elem_memWriteAll_twiddleTable s ord _ ks dst hi, Element.value_ofWord, Element.tag_ofWord,
      twExponent_eq]
    exact ⟨rfl, rfl⟩

end Sys2Proof.Machine
end

