-- ==== Sys2Proof/Proofs/Butterfly.lean ====
section
/-! PROOF. The butterfly stage: its errors in order, its writes, and its meaning in the field (R292, R324). -/

namespace Sys2Proof.Machine

open Sys2Proof

/-! ## The checks of a table -/

/-- The twiddle offsets of a stage are those of its pairs (R292). -/
theorem exists_mem_twOffsets {mode : Mode} {k gl : Nat} {P : Nat → Prop} :
    (∃ t ∈ twOffsets mode k gl, P t) ↔ ∃ j < 2 ^ k / 2 ^ gl, ∃ i < 2 ^ gl / 2, P (twIdx mode k gl j i) := by
  constructor
  · rintro ⟨t, ht, hP⟩
    obtain ⟨x, hx, rfl⟩ := List.mem_map.1 ht
    obtain ⟨hj, hi⟩ := mem_stagePairs.1 hx
    exact ⟨x.1, hj, x.2, hi, hP⟩
  · rintro ⟨j, hj, i, hi, hP⟩
    exact ⟨_, List.mem_map.2 ⟨(j, i), mem_stagePairs.2 ⟨hj, hi⟩, rfl⟩, hP⟩

/-- A tag without the order is no tag of that order, of any size. -/
theorem Tag.order?_ne_some_iff {g : Tag} {o : TwOrder} : g.order? ≠ some o ↔ ∀ ks, g ≠ .tw o ks := by
  cases g <;> simp [Tag.order?]

theorem Tag.order?_eq_some_iff {g : Tag} {o : TwOrder} : g.order? = some o ↔ ∃ ks, g = .tw o ks := by
  cases g <;> simp [Tag.order?]

/-- Among tags of one order the size tells them apart. -/
theorem Tag.ks?_ne_some_of_ne {g : Tag} {o : TwOrder} {k : Nat} (ho : ∃ ks, g = .tw o ks) (hne : g ≠ .tw o k) :
    g.ks? ≠ some k := by
  obtain ⟨ks, rfl⟩ := ho
  simpa [Tag.ks?] using hne

/-! ## The ends of the rule, in the order of its checks -/

section

variable {mode : Mode} {gl k tw buf : Nat} {s : State}

theorem execBfly_notReady (hr : s.fieldReady = false) : execBfly mode gl k tw buf s = fail .fieldNotReady s :=
  if_pos (Bool.eq_false_iff.1 hr)

variable (hr : s.fieldReady = true)

include hr

theorem execBfly_invalidLength (hsizes : k = 0 ∨ gl = 0 ∨ gl > k) :
    execBfly mode gl k tw buf s = fail .invalidLength s := by
  rw [execBfly, if_neg (not_not_intro hr), if_pos hsizes]

variable (hgl : 1 ≤ gl) (hk : gl ≤ k)

include hgl hk

theorem execBfly_badAddress (hpast : buf + 2 ^ k > 2 ^ s.cfg.ememLog ∨ tw + 2 ^ k / 2 > 2 ^ s.cfg.ememLog) :
    execBfly mode gl k tw buf s = fail .badAddress s := by
  have hfits : ¬ (s.regionFits buf (2 ^ k) ∧ s.regionFits tw (2 ^ k / 2)) :=
    fun ⟨hb, ht⟩ => hpast.elim hb.not_gt ht.not_gt
  rw [execBfly, if_neg (not_not_intro hr), if_neg (by omega), if_pos hfits]

variable (hbuf : buf + 2 ^ k ≤ 2 ^ s.cfg.ememLog) (htw : tw + 2 ^ k / 2 ≤ 2 ^ s.cfg.ememLog)

include hbuf htw

theorem execBfly_overlap (h : buf < tw + 2 ^ k / 2 ∧ tw < buf + 2 ^ k) :
    execBfly mode gl k tw buf s = fail .overlap s := by
  rw [execBfly, if_neg (not_not_intro hr), if_neg (by omega), if_neg (not_not_intro ⟨hbuf, htw⟩), if_pos h]

variable (hapart : buf + 2 ^ k ≤ tw ∨ tw + 2 ^ k / 2 ≤ buf)

include hapart

theorem execBfly_backendMismatch (h : ∃ j < 2 ^ k / 2 ^ gl, ∃ i < 2 ^ gl / 2, ∀ ks,
    (s.elem (tw + twIdx mode k gl j i)).tag ≠ .tw (wantedOrder mode) ks) :
    execBfly mode gl k tw buf s = fail .backendMismatch s := by
  simp only [← Tag.order?_ne_some_iff] at h
  rw [execBfly, if_neg (not_not_intro hr), if_neg (by omega), if_neg (not_not_intro ⟨hbuf, htw⟩), if_neg (by omega),
    if_pos (exists_mem_twOffsets.2 h)]

/-- No entry the stage reads has another order: the rule's check does not find one. -/
theorem execBfly_tableLength (horders : ∀ j < 2 ^ k / 2 ^ gl, ∀ i < 2 ^ gl / 2, ∃ ks,
    (s.elem (tw + twIdx mode k gl j i)).tag = .tw (wantedOrder mode) ks)
    (h : ∃ j < 2 ^ k / 2 ^ gl, ∃ i < 2 ^ gl / 2,
      (s.elem (tw + twIdx mode k gl j i)).tag ≠ .tw (wantedOrder mode) k) :
    execBfly mode gl k tw buf s = fail .invalidLength s := by
  have hnone : ¬ ∃ t ∈ twOffsets mode k gl, (s.tagRead (tw + t)).order? ≠ some (wantedOrder mode) := by
    rw [exists_mem_twOffsets]
    exact fun ⟨j, hj, i, hi, hne⟩ => hne (Tag.order?_eq_some_iff.2 (horders j hj i hi))
  have hsome : ∃ t ∈ twOffsets mode k gl, (s.tagRead (tw + t)).ks? ≠ some k := by
    obtain ⟨j, hj, i, hi, hne⟩ := h
    exact exists_mem_twOffsets.2 ⟨j, hj, i, hi, Tag.ks?_ne_some_of_ne (horders j hj i hi) hne⟩
  rw [execBfly, if_neg (not_not_intro hr), if_neg (by omega), if_neg (not_not_intro ⟨hbuf, htw⟩), if_neg (by omega),
    if_neg hnone, if_pos hsome]

variable (htags : ∀ j < 2 ^ k / 2 ^ gl, ∀ i < 2 ^ gl / 2,
  (s.elem (tw + twIdx mode k gl j i)).tag = .tw (wantedOrder mode) k)

include htags

/-- With every tag right the two checks of ranges remain. -/
theorem execBfly_tagged : execBfly mode gl k tw buf s =
    if (∃ e ∈ List.range (2 ^ k), ¬ s.canonical (s.memRead (buf + e))) ∨
      ∃ t ∈ twOffsets mode k gl, ¬ s.canonical (s.memRead (tw + t)) then fail .outOfRange s
    else complete (s.memWriteAll (butterflyWrites s mode gl k tw buf)) := by
  have horder : ¬ ∃ t ∈ twOffsets mode k gl, (s.tagRead (tw + t)).order? ≠ some (wantedOrder mode) := by
    rw [exists_mem_twOffsets]
    exact fun ⟨j, hj, i, hi, hne⟩ => hne (Tag.order?_eq_some_iff.2 ⟨k, htags j hj i hi⟩)
  have hsize : ¬ ∃ t ∈ twOffsets mode k gl, (s.tagRead (tw + t)).ks? ≠ some k := by
    rw [exists_mem_twOffsets]
    exact fun ⟨j, hj, i, hi, hne⟩ => hne (congrArg Tag.ks? (htags j hj i hi))
  rw [execBfly, if_neg (not_not_intro hr), if_neg (by omega), if_neg (not_not_intro ⟨hbuf, htw⟩), if_neg (by omega),
    if_neg horder, if_neg hsize, ite_or]

theorem execBfly_outOfRange (h : (∃ e < 2 ^ k, (s.elem (buf + e)).value.toNat ≥ s.fieldN.toNat) ∨
    ∃ j < 2 ^ k / 2 ^ gl, ∃ i < 2 ^ gl / 2, (s.elem (tw + twIdx mode k gl j i)).value.toNat ≥ s.fieldN.toNat) :
    execBfly mode gl k tw buf s = fail .outOfRange s := by
  rw [execBfly_tagged hr hgl hk hbuf htw hapart htags]
  refine if_pos (h.imp (fun ⟨e, he, hge⟩ => ?_) fun ⟨j, hj, i, hi, hge⟩ => ?_)
  · exact ⟨e, List.mem_range.2 he, hge.not_gt⟩
  · exact exists_mem_twOffsets.2 ⟨j, hj, i, hi, hge.not_gt⟩

end

/-- A stage that passes every check writes its pairs (R292). -/
theorem StageReady.execBfly_writes {mode : Mode} {gl k tw buf : Nat} {s : State} (h : StageReady mode gl k tw buf s) :
    execBfly mode gl k tw buf s = complete (s.memWriteAll (butterflyWrites s mode gl k tw buf)) := by
  have htags := h.tags
  rw [← wantedOrder_eq] at htags
  rw [execBfly_tagged h.ready h.sizes.1 h.sizes.2 h.bufFits h.twFits h.disjoint htags]
  refine if_neg ?_
  rw [exists_mem_twOffsets]
  rintro (⟨e, he, hge⟩ | ⟨j, hj, i, hi, hge⟩)
  · exact hge (h.bufValues e (List.mem_range.1 he))
  · exact hge (h.twValues j hj i hi)

/-- Settles O50: the ends of BFLY's rule, each clause after the checks before it. -/
theorem bflyReportsTheFirstError : Obligations.BflyReportsTheFirstError := by
  intro mode want gl k tw buf s hwant
  have hmode : want = wantedOrder mode := by
    obtain ⟨rfl, rfl⟩ | ⟨rfl, rfl⟩ := hwant <;> rfl
  subst hmode
  rw [exec_bfly]
  refine ⟨fun hr => ?notReady, fun hr => ⟨fun hsizes => ?invalidLength, fun hgl hk => ⟨fun hpast => ?badAddress,
    fun hbuf htw => ⟨fun hover => ?overlap, fun hapart => ⟨fun hmismatch => ?backendMismatch,
      fun horders => ⟨fun hsize => ?tableLength, fun htags hrange => ?outOfRange⟩⟩⟩⟩⟩⟩
  case notReady =>
    rw [execBfly_notReady hr]
    exact fail_answers .fieldNotReady s
  case invalidLength =>
    rw [execBfly_invalidLength hr hsizes]
    exact fail_answers .invalidLength s
  case badAddress =>
    rw [execBfly_badAddress hr hgl hk hpast]
    exact fail_answers .badAddress s
  case overlap =>
    rw [execBfly_overlap hr hgl hk hbuf htw hover]
    exact fail_answers .overlap s
  case backendMismatch =>
    rw [execBfly_backendMismatch hr hgl hk hbuf htw hapart hmismatch]
    exact fail_answers .backendMismatch s
  case tableLength =>
    rw [execBfly_tableLength hr hgl hk hbuf htw hapart horders hsize]
    exact fail_answers .invalidLength s
  case outOfRange =>
    rw [execBfly_outOfRange hr hgl hk hbuf htw hapart htags hrange]
    exact fail_answers .outOfRange s

/-! ## The writes of a stage -/

section

variable (s : State) (mode : Mode) {gl k : Nat} (tw buf : Nat) (hgl : 1 ≤ gl) (hk : gl ≤ k)

theorem stagePairs_nodup (k gl : Nat) : (stagePairs k gl).Nodup :=
  List.nodup_range.product List.nodup_range

/-- The two addresses of a pair are those of its group and place (R290). -/
theorem pairOf_of_mem_butterflyPair {j i : Nat} (hgl : 1 ≤ gl) (hi : i < 2 ^ gl / 2) {x : Nat × Element}
    (hx : x ∈ butterflyPair s mode gl k tw buf j i) : pairOf gl (x.1 - buf) = (j, i) := by
  have htop : buf ≤ pairTop buf gl j i := (Nat.le_add_right ..).trans (Nat.le_add_right ..)
  have hbottom : buf ≤ pairBottom buf gl j i := htop.trans (Nat.le_add_right ..)
  refine (pairOf_eq_iff hgl buf _ j i).2 ⟨hi, ?_⟩
  obtain rfl | rfl := List.mem_pair.1 hx
  · exact .inl (Nat.add_sub_cancel' htop)
  · exact .inr (Nat.add_sub_cancel' hbottom)

include hgl

/-- No two writes of a stage name one element (R290). -/
theorem butterflyWrites_pairwise_ne :
    (butterflyWrites s mode gl k tw buf).Pairwise fun x y => x.1 ≠ y.1 := by
  refine List.pairwise_flatMap.2 ⟨fun p hp => ?samePair, ?otherPair⟩
  case samePair =>
    refine List.pairwise_pair.2 fun heq => ?_
    have hhalf := halfGroup_pos hgl
    have hne : pairTop buf gl p.1 p.2 ≠ pairTop buf gl p.1 p.2 + 2 ^ gl / 2 := by omega
    exact hne heq
  case otherPair =>
    refine (stagePairs_nodup k gl).imp_of_mem fun {p q} hp hq hne x hx y hy heq => hne ?_
    have hpx := pairOf_of_mem_butterflyPair s mode tw buf hgl (mem_stagePairs.1 hp).2 hx
    have hqy := pairOf_of_mem_butterflyPair s mode tw buf hgl (mem_stagePairs.1 hq).2 hy
    exact hpx.symm.trans (heq ▸ hqy)

/-- What a write of pair (j, i) leaves in its element (R292). -/
theorem elem_memWriteAll_of_mem_butterflyPair {j i : Nat} (hj : j < 2 ^ k / 2 ^ gl) (hi : i < 2 ^ gl / 2) {a : Nat}
    {e : Element} (h : (a, e) ∈ butterflyPair s mode gl k tw buf j i) :
    (s.memWriteAll (butterflyWrites s mode gl k tw buf)).elem a = e :=
  State.elem_memWriteAll_of_mem s _ a e (butterflyWrites_pairwise_ne s mode tw buf hgl)
    (List.mem_flatMap.2 ⟨(j, i), mem_stagePairs.2 ⟨hj, hi⟩, h⟩)

include hk

/-- Nothing outside the buffer is written (R292). -/
theorem sameElemsOutside_butterflyWrites :
    SameElemsOutside buf (2 ^ k) s (s.memWriteAll (butterflyWrites s mode gl k tw buf)) := fun a hout =>
  State.elem_memWriteAll_of_forall_ne s _ a fun x hx heq =>
    hout (heq ▸ butterflyWrites_in_buffer s mode tw buf hgl hk x hx)

/-- Every element of the buffer is written, with tag DATA (R292). -/
theorem tag_memWriteAll_butterflyWrites {e : Nat} (he : e < 2 ^ k) :
    ((s.memWriteAll (butterflyWrites s mode gl k tw buf)).elem (buf + e)).tag = .data := by
  have hmem := pairOf_mem_stagePairs hgl hk he
  cases hpair : pairOf gl e with
  | mk j i =>
    rw [hpair] at hmem
    obtain ⟨hj, hi⟩ := mem_stagePairs.1 hmem
    have helem {a e} := elem_memWriteAll_of_mem_butterflyPair s mode tw buf hgl hj hi (a := a) (e := e)
    obtain ⟨_, htop | hbottom⟩ := (pairOf_eq_iff hgl buf e j i).1 hpair
    · rw [htop, helem (List.mem_pair.2 (.inl rfl)), Element.tag_ofWord]
    · rw [hbottom, helem (List.mem_pair.2 (.inr rfl)), Element.tag_ofWord]

end

/-- A stage that passes its checks: both elements of every pair, the tags, and the frame (R292). -/
theorem StageReady.answers {mode : Mode} {gl k tw buf : Nat} {s : State} (h : StageReady mode gl k tw buf s) :
    Answers (exec (.bfly mode gl k tw buf) s) fun t =>
      (∀ j < 2 ^ k / 2 ^ gl, ∀ i < 2 ^ gl / 2, ∀ a b w r : Nat,
        a = s.memRead (pairTop buf gl j i) → b = s.memRead (pairBottom buf gl j i) →
        w = s.memRead (tw + twIdx mode k gl j i) → r = s.montMul w b →
        (t.elem (pairTop buf gl j i)).value = BitVec.ofNat 256 (fieldAdd s.modN a r) ∧
        (t.elem (pairBottom buf gl j i)).value = BitVec.ofNat 256 (fieldSub s.modN a r)) ∧
      (∀ e < 2 ^ k, (t.elem (buf + e)).tag = .data) ∧
      SameElemsOutside buf (2 ^ k) s t ∧ WritesOnlyElems s t := by
  obtain ⟨hgl, hk⟩ := h.sizes
  rw [exec_bfly, h.execBfly_writes]
  refine ⟨_, rfl, ?pairs, fun e he => ?tags, sameElemsOutside_butterflyWrites s mode tw buf hgl hk,
    writesOnlyElems_memWriteAll s _⟩
  case pairs =>
    rintro j hj i hi _ _ _ _ rfl rfl rfl rfl
    have helem {a e} := elem_memWriteAll_of_mem_butterflyPair s mode tw buf hgl hj hi (a := a) (e := e)
    rw [State.retire_elem, State.retire_elem, helem (List.mem_pair.2 (.inl rfl)), helem (List.mem_pair.2 (.inr rfl)),
      Element.value_ofWord, Element.value_ofWord]
    exact ⟨rfl, rfl⟩
  case tags =>
    rw [State.retire_elem]
    exact tag_memWriteAll_butterflyWrites s mode tw buf hgl hk he

/-- Settles O49: what a stage that passes its checks answers, and its word's round trip. -/
theorem bflyRunsTheStage : Obligations.BflyRunsTheStage := by
  intro mode gl k tw buf s
  refine ⟨fun hgl hk htw hbuf => Laws.RoundTrip.bfly mode gl k tw buf ?wellFormed, fun h => h.answers⟩
  case wellFormed =>
    simp only [Instr.wellFormed, Bool.and_eq_true, decide_eq_true_eq]
    exact ⟨⟨⟨hgl, hk⟩, htw⟩, hbuf⟩

/-! ## The field butterfly -/

/-- Every pair that holds the forms of x and y, with the form of u as its twiddle, holds those of x + u·y and x − u·y afterwards. -/
def MapsPairs (mode : Mode) (gl k tw buf n : Nat) (s t : State) : Prop :=
  ∀ j < 2 ^ k / 2 ^ gl, ∀ i < 2 ^ gl / 2, ∀ x y u : ZMod n,
    IsMont n (s.memRead (pairTop buf gl j i)) x → IsMont n (s.memRead (pairBottom buf gl j i)) y →
    IsMont n (s.memRead (tw + twIdx mode k gl j i)) u →
    IsMont n (t.memRead (pairTop buf gl j i)) (x + u * y) ∧ IsMont n (t.memRead (pairBottom buf gl j i)) (x - u * y)

/-- With valid constants a stage is the butterfly of the field. -/
theorem StageReady.mapsPairs {mode : Mode} {gl k tw buf n : Nat} {s : State} (h : StageReady mode gl k tw buf s)
    (hvalid : s.FieldValid) (hn : s.fieldN.toNat = n) :
    Answers (exec (.bfly mode gl k tw buf) s) fun t =>
      MapsPairs mode gl k tw buf n s t ∧ SameElemsOutside buf (2 ^ k) s t ∧ WritesOnlyElems s t := by
  subst hn
  refine h.answers.mono fun t ⟨hpairs, _, houtside, hwrites⟩ => ⟨fun j hj i hi x y u hx hy hu => ?_, houtside, hwrites⟩
  obtain ⟨htop, hbottom⟩ := hpairs j hj i hi _ _ _ _ rfl rfl rfl rfl
  have hproduct := hu.montMul s.fieldN.isLt hvalid.configured.radix_dvd hy
  have hsum := hx.fieldAdd hproduct
  have hdiff := hx.fieldSub hproduct
  rw [State.memRead, State.memRead, htop, hbottom]
  exact ⟨hsum.toNat_ofNat s.fieldN.isLt, hdiff.toNat_ofNat s.fieldN.isLt⟩

/-- Settles O51: the forms of x + u·y and x − u·y, written out. -/
theorem bflyIsTheFieldButterfly : Obligations.BflyIsTheFieldButterfly := by
  intro mode gl k tw buf s hvalid h
  have hpos := hvalid.configured.pos
  refine (h.mapsPairs hvalid rfl).mono fun t ⟨hpairs, _, _⟩ j hj i hi x y u hx hy hu => ?_
  obtain ⟨htop, hbottom⟩ := hpairs j hj i hi x y u ((isMont_natCast_iff hpos).2 hx) ((isMont_natCast_iff hpos).2 hy)
    ((isMont_natCast_iff hpos).2 hu)
  refine ⟨?_, ?_⟩
  · rw [← Nat.cast_mul, ← Nat.cast_add, isMont_natCast_iff hpos] at htop
    exact htop
  · exact IsMont.eq_emod (x := (x : Int) - u * y) (by push_cast; exact hbottom)

end Sys2Proof.Machine
end

