-- ==== Sys2Proof/Proofs/ForwardTransform.lean ====
section
/-! PROOF. The forward NR transform: a reversed table and k stages (R293).
Each stage splits a polynomial modulo X^g − w² into its remainders modulo X^(g/2) − w and X^(g/2) + w. -/

namespace Sys2Proof.Machine

open Sys2Proof

/-! ## Reversed indices -/

/-- Reversing a short index in a longer field moves it up (R9). -/
theorem bitrev_add (e d : Nat) {j : Nat} (hj : j < 2 ^ e) : bitrev (e + d) j = bitrev e j * 2 ^ d := by
  induction e generalizing j with
  | zero =>
    obtain rfl : j = 0 := by omega
    refine Nat.eq_of_testBit_eq fun b => ?_
    simp [testBit_bitrev, bitrev]
  | succ e ih =>
    have hhalf : j / 2 < 2 ^ e := by omega
    rw [Nat.add_right_comm, bitrev, bitrev, ih hhalf]
    ring

/-- The two children of group j (R290). -/
theorem bitrev_two_mul (e j : Nat) : bitrev (e + 1) (2 * j) = bitrev e j := by
  rw [bitrev, Nat.mul_mod_right, Nat.mul_div_cancel_left j two_pos, Nat.zero_mul, Nat.zero_add]

theorem bitrev_two_mul_add_one (e j : Nat) : bitrev (e + 1) (2 * j + 1) = 2 ^ e + bitrev e j := by
  have hodd : (2 * j + 1) % 2 = 1 := by omega
  have hhalf : (2 * j + 1) / 2 = j := by omega
  rw [bitrev, hodd, hhalf, Nat.one_mul]

/-! ## Remainders of the polynomial -/

section

variable {A : Type} [CommRing A] (x : Nat → A) (ω : A)

/-- Coefficient i of Σ x_j·X^j modulo X^g − ω^(g·c), for g = 2^d and c the reversal of the group's number `j` in `e` bits: what place i of group j holds before the stage of group size g. -/
def groupRemainder (e d j i : Nat) : A :=
  ∑ l ∈ Finset.range (2 ^ e), x (l * 2 ^ d + i) * ω ^ (l * (2 ^ d * bitrev e j))

/-- A sum over twice the range, even and odd terms apart. -/
theorem sum_range_two_mul (f : Nat → A) (m : Nat) :
    ∑ l ∈ Finset.range (2 * m), f l = ∑ l ∈ Finset.range m, (f (2 * l) + f (2 * l + 1)) := by
  induction m with
  | zero => rfl
  | succ m ih => rw [Nat.mul_succ, Finset.sum_range_succ, Finset.sum_range_succ, Finset.sum_range_succ, ih, add_assoc]

/-- The remainder modulo one of the two factors, in the terms of the remainder modulo the product. -/
theorem groupRemainder_succ (e d j i : Nat) :
    groupRemainder x ω (e + 1) d j i =
      ∑ l ∈ Finset.range (2 ^ e), (x (l * 2 ^ (d + 1) + i) * ω ^ (l * (2 ^ (d + 1) * bitrev (e + 1) j)) +
        x (l * 2 ^ (d + 1) + (i + 2 ^ d)) * ω ^ (l * (2 ^ (d + 1) * bitrev (e + 1) j)) *
          ω ^ (2 ^ d * bitrev (e + 1) j)) := by
  rw [groupRemainder, pow_succ 2 e, mul_comm (2 ^ e), sum_range_two_mul]
  refine Finset.sum_congr rfl fun l _ => ?_
  have heven : 2 * l * 2 ^ d + i = l * 2 ^ (d + 1) + i := by ring
  have hodd : (2 * l + 1) * 2 ^ d + i = l * 2 ^ (d + 1) + (i + 2 ^ d) := by ring
  have hexpEven : 2 * l * (2 ^ d * bitrev (e + 1) j) = l * (2 ^ (d + 1) * bitrev (e + 1) j) := by ring
  have hexpOdd : (2 * l + 1) * (2 ^ d * bitrev (e + 1) j) =
      l * (2 ^ (d + 1) * bitrev (e + 1) j) + 2 ^ d * bitrev (e + 1) j := by ring
  rw [heven, hodd, hexpEven, hexpOdd, pow_add ω, mul_assoc (x (l * 2 ^ (d + 1) + (i + 2 ^ d)))]

/-- The top of a pair: the remainder modulo X^(g/2) − w (R292). -/
theorem groupRemainder_two_mul (e d j i : Nat) :
    groupRemainder x ω (e + 1) d (2 * j) i =
      groupRemainder x ω e (d + 1) j i + ω ^ (2 ^ d * bitrev e j) * groupRemainder x ω e (d + 1) j (i + 2 ^ d) := by
  rw [groupRemainder_succ, bitrev_two_mul, Finset.sum_add_distrib, ← Finset.sum_mul, mul_comm (ω ^ _)]
  rfl

/-- The bottom of a pair: the remainder modulo X^(g/2) + w, ω^(S/2) being −1 (R292). -/
theorem groupRemainder_two_mul_add_one {e d : Nat} (hω : ω ^ 2 ^ (d + e) = -1) (j i : Nat) :
    groupRemainder x ω (e + 1) d (2 * j + 1) i =
      groupRemainder x ω e (d + 1) j i - ω ^ (2 ^ d * bitrev e j) * groupRemainder x ω e (d + 1) j (i + 2 ^ d) := by
  have hhalf : ω ^ (2 ^ d * bitrev (e + 1) (2 * j + 1)) = -ω ^ (2 ^ d * bitrev e j) := by
    rw [bitrev_two_mul_add_one, mul_add, ← pow_add, pow_add, hω, neg_one_mul]
  have hwhole (l : Nat) :
      ω ^ (l * (2 ^ (d + 1) * bitrev (e + 1) (2 * j + 1))) = ω ^ (l * (2 ^ (d + 1) * bitrev e j)) := by
    have hdouble (c : Nat) : l * (2 ^ (d + 1) * c) = 2 ^ d * c * (2 * l) := by ring
    rw [hdouble, hdouble, pow_mul, hhalf, (even_two_mul l).neg_pow, ← pow_mul]
  simp only [groupRemainder_succ, hwhole, hhalf, Finset.sum_add_distrib, ← Finset.sum_mul]
  rw [mul_neg, ← sub_eq_add_neg, mul_comm (ω ^ _)]
  rfl

/-- Before the first stage the one group holds the coefficients. -/
theorem groupRemainder_zero (d i : Nat) : groupRemainder x ω 0 d 0 i = x i := by
  simp [groupRemainder]

/-- After the last stage each group holds one value of the polynomial. -/
theorem groupRemainder_last (k j : Nat) :
    groupRemainder x ω k 0 j 0 = ∑ l ∈ Finset.range (2 ^ k), x l * ω ^ (l * bitrev k j) := by
  simp [groupRemainder]

/-- The sum of the statement, in the ring. -/
theorem cast_list_sum_powers (c : Nat → Nat) (r m N : Nat) :
    ((((List.range N).map fun j => c j * r ^ (j * m)).sum : Nat) : A) =
      ∑ l ∈ Finset.range N, (c l : A) * (r : A) ^ (l * m) := by
  have hlist : ((List.range N).map fun j => c j * r ^ (j * m)).sum = ∑ l ∈ Finset.range N, c l * r ^ (l * m) := rfl
  rw [hlist]
  push_cast
  rfl

end

/-! ## The exponents of the table -/

/-- An element whose power S/2 is −1 has order S, so that S is at most N: every exponent of the table fits R211's 256 bits. -/
theorem two_pow_le_of_pow_eq_neg_one {n k : Nat} (hn : 3 ≤ n) {ω : ZMod n} (hω : ω ^ 2 ^ k = -1) : 2 ^ (k + 1) ≤ n := by
  have : NeZero n := ⟨by omega⟩
  have : Fact (2 < n) := ⟨hn⟩
  have horder : orderOf ω = 2 ^ (k + 1) := by
    refine orderOf_eq_prime_pow (hω ▸ ZMod.neg_one_ne_one) ?_
    rw [pow_succ, pow_mul, hω, neg_one_sq]
  calc 2 ^ (k + 1) = orderOf ω := horder.symm
    _ ≤ Nat.card (ZMod n) := orderOf_le_card
    _ = n := Nat.card_zmod n

/-! ## Commands one after another -/

theorem execAll_cons_answers {i : Instr} {is : List Instr} {s : State} {P Q : State → Prop}
    (h : Answers (exec i s) P) (hrest : ∀ t, P t → Answers (execAll is t) Q) : Answers (execAll (i :: is) s) Q := by
  obtain ⟨t, ht, hP⟩ := h
  rw [execAll, ht]
  exact hrest t hP

/-- The stages from group size 2^d down (R293). -/
def nrStagesFrom (k tw buf d : Nat) : List Instr := (List.range d).map fun m => .bfly .nr (d - m) k tw buf

theorem nrStages_eq (k tw buf : Nat) : nrStages k tw buf = nrStagesFrom k tw buf k := rfl

theorem nrStagesFrom_succ (k tw buf d : Nat) :
    nrStagesFrom k tw buf (d + 1) = .bfly .nr (d + 1) k tw buf :: nrStagesFrom k tw buf d := by
  simp only [nrStagesFrom, List.range_succ_eq_map, List.map_cons, List.map_map, Nat.sub_zero, Function.comp_def,
    Nat.succ_eq_add_one, Nat.add_sub_add_right]

/-- What a command that only writes elements leaves alone. -/
structure KeepsRest (s t : State) : Prop where
  halted : t.halted = s.halted
  cfg    : t.cfg = s.cfg
  regs   : SameRegs s t
  flags  : SameFlags s t
  field  : SameField s t

theorem WritesOnlyElems.keepsRest {s t : State} (h : WritesOnlyElems s t) : KeepsRest s t :=
  ⟨h.retires.halted, h.retires.around.cfg, h.regs, h.flags, h.field⟩

theorem KeepsRest.refl (s : State) : KeepsRest s s := ⟨rfl, rfl, fun _ => rfl, ⟨rfl, rfl⟩, ⟨rfl, rfl, rfl, rfl⟩⟩

theorem KeepsRest.trans {s t u : State} (h1 : KeepsRest s t) (h2 : KeepsRest t u) : KeepsRest s u := by
  obtain ⟨hC, hZ⟩ := h1.flags
  obtain ⟨hN, hR2, hNinv, hready⟩ := h1.field
  refine ⟨h2.halted.trans h1.halted, h2.cfg.trans h1.cfg, fun r => (h2.regs r).trans (h1.regs r), ?_, ?_⟩
  · exact ⟨h2.flags.1.trans hC, h2.flags.2.trans hZ⟩
  · obtain ⟨hN', hR2', hNinv', hready'⟩ := h2.field
    exact ⟨hN'.trans hN, hR2'.trans hR2, hNinv'.trans hNinv, hready'.trans hready⟩

/-! ## The stages -/

/-- The buffer and the table lie in element memory, apart from each other (R292). -/
structure RegionsApart (k tw buf : Nat) (s : State) : Prop where
  bufFits : buf + 2 ^ k ≤ 2 ^ s.cfg.ememLog
  twFits  : tw + 2 ^ k / 2 ≤ 2 ^ s.cfg.ememLog
  apart   : buf + 2 ^ k ≤ tw ∨ tw + 2 ^ k / 2 ≤ buf

/-- With the groups of size 2^d still to be split: the table holds the powers of ω, and each group its remainder. -/
structure BeforeStage (k tw buf n : Nat) (x : Nat → ZMod n) (ω : ZMod n) (d : Nat) (s : State) : Prop where
  valid   : s.FieldValid
  modulus : s.fieldN.toNat = n
  regions : RegionsApart k tw buf s
  tags    : ∀ m < 2 ^ k / 2, s.tagRead (tw + m) = .tw .rev k
  table   : ∀ m < 2 ^ k / 2, IsMont n (s.memRead (tw + m)) (ω ^ bitrev (k - 1) m)
  buffer  : ∀ e, d + e = k → ∀ j < 2 ^ e, ∀ i < 2 ^ d,
    IsMont n (s.memRead (buf + j * 2 ^ d + i)) (groupRemainder x ω e d j i)

section

variable {k tw buf n : Nat} {x : Nat → ZMod n} {ω : ZMod n}

/-- Every element of the buffer is in its group. -/
theorem BeforeStage.memRead_lt {d : Nat} {s : State} (h : BeforeStage k tw buf n x ω d s) (hd : d ≤ k) {a : Nat}
    (ha : a < 2 ^ k) : s.memRead (buf + a) < n := by
  obtain ⟨e, rfl⟩ := Nat.exists_eq_add_of_le hd
  have hgroup : a / 2 ^ d < 2 ^ e := Nat.div_lt_of_lt_mul (pow_add 2 d e ▸ ha)
  have hplace := (h.buffer e rfl _ hgroup _ (Nat.mod_lt a (Nat.two_pow_pos d))).1
  rwa [Nat.add_assoc, Nat.mul_comm, Nat.div_add_mod] at hplace

/-- The stage passes its checks (R292). -/
theorem BeforeStage.stageReady {d : Nat} {s : State} (h : BeforeStage k tw buf n x ω (d + 1) s) (hd : d + 1 ≤ k) :
    StageReady .nr (d + 1) k tw buf s where
  ready     := h.valid.configured.ready
  sizes     := ⟨Nat.le_add_left .., hd⟩
  bufFits   := h.regions.bufFits
  twFits    := h.regions.twFits
  disjoint  := h.regions.apart
  tags      := fun _ hj _ hi => h.tags _ (twIdx_lt .nr (Nat.le_add_left ..) hd hj hi)
  bufValues := fun _ he => h.modulus.symm ▸ h.memRead_lt hd he
  twValues  := fun _ hj _ hi => h.modulus.symm ▸ (h.table _ (twIdx_lt .nr (Nat.le_add_left ..) hd hj hi)).1

/-- The table has an entry for each of the first 2^e indices, which is the power that splits the polynomial of that group (R291). -/
theorem BeforeStage.twiddle {d e : Nat} {s : State} (h : BeforeStage k tw buf n x ω (d + 1) s) (hk : d + 1 + e = k)
    {j : Nat} (hj : j < 2 ^ e) : IsMont n (s.memRead (tw + j)) (ω ^ (2 ^ d * bitrev e j)) := by
  subst hk
  have hsize : d + 1 + e = e + d + 1 := by omega
  have hhalf : 2 ^ (d + 1 + e) / 2 = 2 ^ (e + d) := by rw [hsize, pow_succ, Nat.mul_div_cancel _ two_pos]
  have hentry := h.table j (hhalf ▸ hj.trans_le (Nat.pow_le_pow_right two_pos (Nat.le_add_right ..)))
  rwa [hsize, Nat.add_sub_cancel, bitrev_add e d hj, Nat.mul_comm] at hentry

/-- The two halves of group q are groups 2q and 2q + 1 of half the size (R290). -/
theorem pairTop_eq_place (buf d q i : Nat) : pairTop buf (d + 1) q i = buf + 2 * q * 2 ^ d + i := by
  rw [pairTop]
  ring

theorem pairBottom_eq_place (buf d q i : Nat) : pairBottom buf (d + 1) q i = buf + (2 * q + 1) * 2 ^ d + i := by
  rw [pairBottom, pairTop, pow_succ, Nat.mul_div_cancel _ two_pos]
  ring

theorem pairBottom_eq_second_half (buf d q i : Nat) :
    pairBottom buf (d + 1) q i = buf + q * 2 ^ (d + 1) + (i + 2 ^ d) := by
  rw [pairBottom, pairTop, pow_succ, Nat.mul_div_cancel _ two_pos, Nat.add_assoc]

/-- What the stage makes of the pairs of group q: the remainders of its two halves. -/
theorem BeforeStage.halves {d e : Nat} {s t : State} (h : BeforeStage k tw buf n x ω (d + 1) s) (hk : d + 1 + e = k)
    (hω : ω ^ 2 ^ (d + e) = -1) (hpairs : MapsPairs .nr (d + 1) k tw buf n s t) {q i : Nat} (hq : q < 2 ^ e)
    (hi : i < 2 ^ d) :
    IsMont n (t.memRead (pairTop buf (d + 1) q i)) (groupRemainder x ω (e + 1) d (2 * q) i) ∧
    IsMont n (t.memRead (pairBottom buf (d + 1) q i)) (groupRemainder x ω (e + 1) d (2 * q + 1) i) := by
  have hgroups : 2 ^ k / 2 ^ (d + 1) = 2 ^ e := by rw [← hk, pow_add, Nat.mul_div_cancel_left _ (Nat.two_pow_pos _)]
  have hhalf : 2 ^ (d + 1) / 2 = 2 ^ d := by rw [pow_succ, Nat.mul_div_cancel _ two_pos]
  have htop := h.buffer e hk q hq i (hi.trans (Nat.pow_lt_pow_right (by decide) (Nat.lt_succ_self d)))
  have hbottom := h.buffer e hk q hq (i + 2 ^ d) (by rw [pow_succ]; omega)
  rw [← pairBottom_eq_second_half] at hbottom
  rw [groupRemainder_two_mul, groupRemainder_two_mul_add_one x ω hω]
  exact hpairs q (hgroups.symm ▸ hq) i (hhalf.symm ▸ hi) _ _ _ htop hbottom (h.twiddle hk hq)

/-- One stage splits every group in two (R293). -/
theorem BeforeStage.next {d : Nat} {s : State} (hω : ω ^ (2 ^ k / 2) = -1) (hd : d + 1 ≤ k)
    (h : BeforeStage k tw buf n x ω (d + 1) s) :
    Answers (exec (.bfly .nr (d + 1) k tw buf) s) fun t => BeforeStage k tw buf n x ω d t ∧ KeepsRest s t := by
  refine ((h.stageReady hd).mapsPairs h.valid h.modulus).mono fun t ⟨hpairs, houtside, hwrites⟩ => ?_
  have hrest := hwrites.keepsRest
  have hapart := h.regions.apart
  have htable {m : Nat} (hm : m < 2 ^ k / 2) : t.elem (tw + m) = s.elem (tw + m) := houtside _ (by omega)
  refine ⟨⟨h.valid.of_sameField hrest.field, ?modulus, ?regions, fun m hm => ?tags, fun m hm => ?table,
    fun e hk j hj i hi => ?buffer⟩, hrest⟩
  case modulus => rw [hrest.field.1, h.modulus]
  case regions => exact ⟨hrest.cfg ▸ h.regions.bufFits, hrest.cfg ▸ h.regions.twFits, hapart⟩
  case tags =>
    rw [State.tagRead, htable hm]
    exact h.tags m hm
  case table =>
    rw [State.memRead, htable hm]
    exact h.table m hm
  case buffer =>
    obtain ⟨e, rfl⟩ : ∃ e', e = e' + 1 := ⟨k - d - 1, by omega⟩
    have hk' : d + 1 + e = k := by omega
    have hω' : ω ^ 2 ^ (d + e) = -1 := by
      rwa [← hk', Nat.add_right_comm, pow_succ, Nat.mul_div_cancel _ two_pos] at hω
    rw [pow_succ] at hj
    obtain ⟨q, rfl | rfl⟩ := Nat.even_or_odd' j
    · rw [← pairTop_eq_place]
      exact (h.halves hk' hω' hpairs (by omega) hi).1
    · rw [← pairBottom_eq_place]
      exact (h.halves hk' hω' hpairs (by omega) hi).2

/-- All the stages (R293). -/
theorem BeforeStage.all {d : Nat} {s : State} (hω : ω ^ (2 ^ k / 2) = -1) (hd : d ≤ k)
    (h : BeforeStage k tw buf n x ω d s) :
    Answers (execAll (nrStagesFrom k tw buf d) s) fun t => BeforeStage k tw buf n x ω 0 t ∧ KeepsRest s t := by
  induction d generalizing s with
  | zero => exact ⟨s, rfl, h, KeepsRest.refl s⟩
  | succ d ih =>
    rw [nrStagesFrom_succ]
    refine execAll_cons_answers (h.next hω hd) fun t ⟨hnext, hrest⟩ => ?_
    exact (ih (Nat.le_of_succ_le hd) hnext).mono fun u ⟨hlast, hrest'⟩ => ⟨hlast, hrest.trans hrest'⟩

end

/-! ## The table -/

/-- TWGEN of a reversed table, before the first stage (R260). -/
theorem twgen_beforeStage {k tw buf n : Nat} {wr : Reg} {x : Nat → ZMod n} {ω : ZMod n} {s : State}
    (hvalid : s.FieldValid) (hn : s.fieldN.toNat = n) (hk : 1 ≤ k) (hregions : RegionsApart k tw buf s)
    (hroot : IsMont n (s.reg wr).toNat ω) (hω : ω ^ (2 ^ k / 2) = -1)
    (hbuffer : ∀ j < 2 ^ k, IsMont n (s.memRead (buf + j)) (x j)) :
    Answers (exec (.twgen .rev wr k tw) s) fun t => BeforeStage k tw buf n x ω k t ∧ KeepsRest s t := by
  subst hn
  obtain ⟨k, rfl⟩ := Nat.exists_eq_add_of_le' hk
  have hhalf : 2 ^ (k + 1) / 2 = 2 ^ k := by rw [pow_succ, Nat.mul_div_cancel _ two_pos]
  obtain ⟨hbufFits, htwFits, hapart⟩ := hregions
  rw [hhalf] at htwFits hapart hω
  obtain ⟨_, _, _, _, _, htable⟩ := twgenWritesTheTable .rev wr (k + 1) tw s
  refine (htable hvalid.configured.ready (Nat.succ_ne_zero k) htwFits hroot.1).mono
    fun t ⟨hentries, houtside, hwrites⟩ => ?_
  have hrest := hwrites.keepsRest
  have hexponent (m : Nat) : bitrev k m < 2 ^ 256 :=
    calc bitrev k m < 2 ^ k := bitrev_lt k m
      _ ≤ 2 ^ (k + 1) := Nat.pow_le_pow_right two_pos (Nat.le_succ k)
      _ ≤ s.fieldN.toNat := two_pow_le_of_pow_eq_neg_one hvalid.configured.atLeast3 hω
      _ ≤ 2 ^ 256 := s.fieldN.isLt.le
  refine ⟨⟨hvalid.of_sameField hrest.field, ?modulus, ?regions, fun m hm => ?tags, fun m hm => ?table,
    fun e he j hj i hi => ?buffer⟩, hrest⟩
  case modulus => rw [hrest.field.1]
  case regions => exact ⟨hrest.cfg ▸ hbufFits, by rw [hhalf, hrest.cfg]; exact htwFits, by rw [hhalf]; exact hapart⟩
  case tags => exact (hentries m (hhalf ▸ hm)).2
  case table =>
    rw [State.memRead, (hentries m (hhalf ▸ hm)).1]
    refine IsMont.toNat_ofNat ?_ s.fieldN.isLt
    exact hroot.montPow s.fieldN.isLt hvalid.configured.radix_dvd hvalid.square hvalid.configured.pos (hexponent m)
  case buffer =>
    obtain rfl : e = 0 := by omega
    obtain rfl : j = 0 := by omega
    have hsame : t.elem (buf + i) = s.elem (buf + i) := houtside _ (by rw [Nat.add_sub_cancel]; omega)
    rw [groupRemainder_zero, Nat.zero_mul, Nat.add_zero, State.memRead, hsame]
    exact hbuffer i hi

/-! ## The statement -/

/-- Settles O52: the stages split the polynomial down to its values, in reversed order. -/
theorem forwardNrTransform : Obligations.ForwardNrTransform := by
  intro k tw buf r wr x s hvalid hk hbuf htw hapart hroot hω hbuffer
  have hpos := hvalid.configured.pos
  have hω' : (r : ZMod s.fieldN.toNat) ^ (2 ^ k / 2) = -1 := by
    rw [← Nat.cast_pow, ← ZMod.natCast_mod, hω, Nat.cast_sub hpos, ZMod.natCast_self, zero_sub, Nat.cast_one]
  have htwgen := twgen_beforeStage (x := fun j => (x j : ZMod s.fieldN.toNat)) hvalid rfl hk ⟨hbuf, htw, hapart⟩
    ((isMont_natCast_iff hpos).2 hroot) hω' fun j hj => (isMont_natCast_iff hpos).2 (hbuffer j hj)
  rw [nrStages_eq]
  refine execAll_cons_answers htwgen fun t ⟨hfirst, hrest⟩ => (hfirst.all hω' le_rfl).mono fun u ⟨hlast, hrest'⟩ => ?_
  obtain ⟨hhalted, _, hregs, hflags, hfield⟩ := hrest.trans hrest'
  refine ⟨fun m hm => ?_, hhalted, hregs, hflags, hfield⟩
  have hvalue := hlast.buffer k (Nat.zero_add k) _ (bitrev_lt k m) 0 (Nat.two_pow_pos 0)
  rw [groupRemainder_last, bitrev_bitrev hm, pow_zero, Nat.mul_one, Nat.add_zero] at hvalue
  rw [← cast_list_sum_powers] at hvalue
  exact (isMont_natCast_iff hpos).1 hvalue

end Sys2Proof.Machine
end
